-- ==== Sys2Proof/Config.lean ====
section
/-! DEFINITION. The implementation parameters of 00_scope.md R5. The three that R5 marks `parameter` are fields of
`Config`, which a state carries, so that every value of each can be run and stated about; what R5 derives from LEN_W is
computed from it; what the packet format fixes is a number here. -/

namespace Sys2Proof

/-- `HDR_LEN` (R5). -/
abbrev Config.hdrLen : Nat := 48

/-- `XHDR_LEN` (R5): bytes of an extension field's own header. -/
abbrev Config.xhdrLen : Nat := 4

/-- `KEYID_LEN` (R5). -/
abbrev Config.keyidLen : Nat := 4

/-- `VOTHER_POLICY` (R5, R122): what versions 5, 6, 7 do with bytes after the header. -/
inductive VOtherPolicy where
  | macOnly
  | trailingData
  deriving DecidableEq, Repr

/-- `SHORT_MAC_POLICY` (R5, R141): what a MAC region of 1, 2 or 3 bytes decodes to. -/
inductive ShortMacPolicy where
  | acceptNoKey
  | truncated
  deriving DecidableEq, Repr

/-- The open parameters of the block, fixed when it is built (R42): no operation writes them. `lenW` is `LEN_W`, the
width of LEN, POS and every buffer address. -/
structure Config where
  lenW     : Nat
  vother   : VOtherPolicy
  shortMac : ShortMacPolicy
  deriving DecidableEq, Repr

/-- `LEN_MAX` (R5): the largest packet length. -/
def Config.lenMax (c : Config) : Nat := 2 ^ c.lenW - 1

/-- `XMAX` (R5): capacity of the extension record table. No packet has a trailer where LEN_MAX < 48; it is then 0. -/
def Config.xmax (c : Config) : Nat := (c.lenMax - Config.hdrLen) / Config.xhdrLen

/-- `XCNT_W` (R5): width of the extension count, the least that holds XMAX and at least one bit. R5 gives 14 for
XMAX = 16371. DEDUCED for other values of LEN_W (log 3), safe. -/
def Config.xcntW (c : Config) : Nat := Nat.log2 c.xmax + 1

/-- The values NTPP-1.0 takes (R5). -/
def Config.ntpp10 : Config := { lenW := 16, vother := .macOnly, shortMac := .acceptNoKey }

/-- The default parameters of the rules on whole runs: both policies as NTPP-1.0 has them, LEN_W any (R5, R154, R155,
R157). -/
abbrev Config.defaultPolicies (c : Config) : Prop := c.vother = .macOnly ∧ c.shortMac = .acceptNoKey

end Sys2Proof
end

