-- ==== Sys2Proof/Word.lean ====
section
/-! DEFINITION. The words of the block and the names of its states and error codes. -/

namespace Sys2Proof

/-- A byte is 8 bits, bit 7 the most significant (00_scope.md R10). -/
abbrev Byte := BitVec 8

/-- ST, the FSM state register (10_state.md R21). Code 7 is unused and has no member (U13). -/
inductive Fsm where
  | idle | hdr | disp | ext | mac | chk | done
  deriving DecidableEq, Repr

/-- The numeric codes of ST (R21); they are on no port. -/
def Fsm.code : Fsm → BitVec 3
  | .idle => 0 | .hdr => 1 | .disp => 2 | .ext => 3 | .mac => 4 | .chk => 5 | .done => 6

/-- The values of ERR (10_state.md R38, 60_exceptions.md R170). Code 3 is never written and has no member (U13). -/
inductive ErrCode where
  | none | truncated | trailingData
  deriving DecidableEq, Repr

/-- The codes on the `err` port (R170). -/
def ErrCode.code : ErrCode → BitVec 2
  | .none => 0 | .truncated => 1 | .trailingData => 2

end Sys2Proof
end

