-- ==== Sys2Proof/Syntax.lean ====
section
/-! DEFINITION. The operations of the block as syntax: one constructor for each row of
spec/opcode_table.json (24 rows, the fifteen operations of 00_scope.md R6). Operands are the packet bits the
row's fields name: X.FALL carries the rejected length L, X.TAKE the type T and the length L; the D rows carry
none, since the other bits of byte 0 take no part (R120 to R122). Log 13. -/

namespace Sys2Proof

inductive Instr where
  /-- START (45_assembler.md R150): begin a run. -/
  | start
  /-- H.TRUNC (41_header_parser.md R110): LEN < 48. -/
  | hTrunc
  /-- H.LOAD (41_header_parser.md R111): LEN ≥ 48. -/
  | hLoad
  /-- D.V4 (42_version_dispatch.md R120): VN = 4. -/
  | dV4
  /-- D.LEGACY (42_version_dispatch.md R121), the row VN = 0. -/
  | dLegacy0
  /-- D.LEGACY, the row VN = 1. -/
  | dLegacy1
  /-- D.LEGACY, the row VN = 2. -/
  | dLegacy2
  /-- D.LEGACY, the row VN = 3. -/
  | dLegacy3
  /-- D.HIGH (42_version_dispatch.md R122), the row VN = 5. -/
  | dHigh5
  /-- D.HIGH, the row VN = 6. -/
  | dHigh6
  /-- D.HIGH, the row VN = 7. -/
  | dHigh7
  /-- X.STOP (43_extension_fsm.md R132): REM < 4. -/
  | xStop
  /-- X.FALL (43_extension_fsm.md R133), the row L mod 4 = 1. -/
  | xFallMod1 (l : BitVec 16)
  /-- X.FALL, the row L mod 4 = 2. -/
  | xFallMod2 (l : BitVec 16)
  /-- X.FALL, the row L mod 4 = 3. -/
  | xFallMod3 (l : BitVec 16)
  /-- X.FALL, the row L = 0. -/
  | xFallZero
  /-- X.FALL, the row L mod 4 = 0, L ≠ 0 and L > REM. -/
  | xFallOver (l : BitVec 16)
  /-- X.TAKE (43_extension_fsm.md R134): field type T and length L, 4 ≤ L ≤ REM, L mod 4 = 0. -/
  | xTake (t l : BitVec 16)
  /-- M.NONE (44_mac_validator.md R140): REM = 0. -/
  | mNone
  /-- M.SHORT (44_mac_validator.md R141): REM ∈ {1, 2, 3}. -/
  | mShort
  /-- M.KEY (44_mac_validator.md R142): REM = 4. -/
  | mKey
  /-- M.FULL (44_mac_validator.md R143): REM > 4. -/
  | mFull
  /-- C.OK (45_assembler.md R151): POS = LEN. -/
  | cOk
  /-- C.TRAIL (45_assembler.md R152): POS ≠ LEN. -/
  | cTrail
  deriving DecidableEq, Repr

/-- The name a trace is written with (30_encoding.md R87). -/
def Instr.mnemonic : Instr → String
  | .start => "START"
  | .hTrunc => "H.TRUNC"
  | .hLoad => "H.LOAD"
  | .dV4 => "D.V4"
  | .dLegacy0 | .dLegacy1 | .dLegacy2 | .dLegacy3 => "D.LEGACY"
  | .dHigh5 | .dHigh6 | .dHigh7 => "D.HIGH"
  | .xStop => "X.STOP"
  | .xFallMod1 _ | .xFallMod2 _ | .xFallMod3 _ | .xFallZero | .xFallOver _ => "X.FALL"
  | .xTake _ _ => "X.TAKE"
  | .mNone => "M.NONE"
  | .mShort => "M.SHORT"
  | .mKey => "M.KEY"
  | .mFull => "M.FULL"
  | .cOk => "C.OK"
  | .cTrail => "C.TRAIL"

end Sys2Proof
end

