-- ==== Sys2Proof/WellFormed.lean ====
section
/-! DEFINITION. Which terms of `Instr` carry operands their row of the table admits (30_encoding.md R81, R85).
The bound by REM is a condition on the state: the meaning and `Sel.admits` check it. -/

namespace Sys2Proof

/-- The constraint the row puts on its own packet bits: L mod 4 for the three rows of pattern 01, 10, 11, and
"L != 0" with low bits 00 for the last X.FALL row and X.TAKE. -/
def Instr.wellFormed : Instr → Bool
  | .xFallMod1 l => l.toNat % 4 == 1
  | .xFallMod2 l => l.toNat % 4 == 2
  | .xFallMod3 l => l.toNat % 4 == 3
  | .xFallOver l => l.toNat % 4 == 0 && l.toNat != 0
  | .xTake _ l => l.toNat % 4 == 0 && l.toNat != 0
  | .start | .hTrunc | .hLoad | .dV4 | .dLegacy0 | .dLegacy1 | .dLegacy2 | .dLegacy3
  | .dHigh5 | .dHigh6 | .dHigh7 | .xStop | .xFallZero | .mNone | .mShort | .mKey | .mFull
  | .cOk | .cTrail => true

end Sys2Proof
end

