-- ==== Sys2Proof/Decode.lean ====
section
/-! DEFINITION. Operation selection (30_encoding.md R84, R85), total on any state of the selection inputs and any
bytes, and after it the encoder, written from the match and mask columns of opcode_table.json. The block has no
instruction encodings: an operation is selected by ST, `start`, LEN, POS and, where packet bits take part, by a
UNIT of the packet, byte 0 in ST = DISP and the 32-bit big-endian word at POS in ST = EXT. -/

namespace Sys2Proof

/-- The selection inputs that are not packet bits (R84). -/
structure Sel where
  st    : Fsm
  start : Bool
  len   : Nat
  pos   : Nat
  deriving DecidableEq, Repr

/-- REM = LEN − POS, on mathematical integers (10_state.md R25, 00_scope.md R11). -/
def Sel.rem (c : Sel) : Int := (c.len : Int) - (c.pos : Int)

/-- Why no operation is selected. -/
inductive DecodeError where
  /-- ST ∈ {IDLE, DONE} and `start` = 0: nothing is enabled until the host raises `start` (R86). -/
  | waiting
  /-- ST = DISP and the unit is not one byte (VN holds no value; no run reaches this). -/
  | noVersion
  /-- ST = EXT, REM ≥ 4 and the unit is not four bytes. -/
  | noWord
  /-- ST = MAC and REM < 0 (no run reaches this, 10_state.md R45). -/
  | remNegative
  deriving DecidableEq, Repr

/-- The row of ST = DISP that byte 0 selects: bits 5–3 under mask 0x38 (R85). -/
def decodeByte0 (b : Byte) : Instr :=
  if b &&& 0x38 = 0x20 then .dV4
  else if b &&& 0x38 = 0x00 then .dLegacy0
  else if b &&& 0x38 = 0x08 then .dLegacy1
  else if b &&& 0x38 = 0x10 then .dLegacy2
  else if b &&& 0x38 = 0x18 then .dLegacy3
  else if b &&& 0x38 = 0x28 then .dHigh5
  else if b &&& 0x38 = 0x30 then .dHigh6
  else .dHigh7

/-- T = W[31:16] (30_encoding.md R74). -/
def wordType (w : BitVec 32) : BitVec 16 := w.extractLsb' 16 16

/-- L = W[15:0] (30_encoding.md R74). -/
def wordLen (w : BitVec 32) : BitVec 16 := w.extractLsb' 0 16

/-- The row of ST = EXT with REM ≥ 4 that the word W at POS selects (R85). -/
def decodeWord (rem : Int) (w : BitVec 32) : Instr :=
  if w &&& 0x00000003 = 1 then .xFallMod1 (wordLen w)
  else if w &&& 0x00000003 = 2 then .xFallMod2 (wordLen w)
  else if w &&& 0x00000003 = 3 then .xFallMod3 (wordLen w)
  else if w &&& 0x0000FFFF = 0 then .xFallZero
  else if rem < ((wordLen w).toNat : Int) then .xFallOver (wordLen w)
  else .xTake (wordType w) (wordLen w)

/-- Four bytes as one big-endian word (20_memory.md R54). -/
def unitWord (b0 b1 b2 b3 : Byte) : BitVec 32 := b0 ++ b1 ++ b2 ++ b3

/-- The selection table R84. Bytes of a unit that takes no part are ignored: a row with mask 0 matches every
packet. -/
def decode (c : Sel) (u : List Byte) : Except DecodeError Instr :=
  match c.st with
  | .idle | .done => if c.start then .ok .start else .error .waiting
  | .hdr => if c.len < 48 then .ok .hTrunc else .ok .hLoad
  | .disp =>
    match u with
    | [b] => .ok (decodeByte0 b)
    | _ => .error .noVersion
  | .ext =>
    if c.rem < 4 then .ok .xStop
    else
      match u with
      | [b0, b1, b2, b3] => .ok (decodeWord c.rem (unitWord b0 b1 b2 b3))
      | _ => .error .noWord
  | .mac =>
    if c.rem < 0 then .error .remNegative
    else if c.rem = 0 then .ok .mNone
    else if c.rem < 4 then .ok .mShort
    else if c.rem = 4 then .ok .mKey
    else .ok .mFull
  | .chk => if c.pos = c.len then .ok .cOk else .ok .cTrail

/-- The operation the decoder reads from a table word, numbered as opcode_table.json numbers it. The table gives no
state, so the word's width says which unit it is: no bits is the host's START, up to 8 bits is byte 0 (ST = DISP),
more is the word W of ST = EXT, with POS = 48 and LEN = LEN_MAX of NTPP-1.0, the largest REM there is. Log 14. -/
def decodeTableWord (nbits w : Nat) : Option Instr :=
  (if nbits = 0 then decode { st := .idle, start := true, len := 0, pos := 0 } []
   else if nbits ≤ 8 then
     decode { st := .disp, start := false, len := 48, pos := 48 } [BitVec.ofNat 8 w]
   else
     decode { st := .ext, start := false, len := Config.ntpp10.lenMax, pos := 48 }
       [BitVec.ofNat 8 (w / 2 ^ 24), BitVec.ofNat 8 (w / 2 ^ 16), BitVec.ofNat 8 (w / 2 ^ 8),
        BitVec.ofNat 8 w]).toOption

/-- The four bytes of an extension field's own header, type then length, big-endian (30_encoding.md R74). -/
def extHeaderBytes (t l : BitVec 16) : List Byte :=
  [t.extractLsb' 8 8, t.extractLsb' 0 8, l.extractLsb' 8 8, l.extractLsb' 0 8]

/-- The packet bits that select a row, bits the row leaves free being 0 (the type of a rejected header, the LI and
MODE bits of byte 0); no bytes for a row with mask 0. -/
def encode : Instr → List Byte
  | .dV4 => [0x20]
  | .dLegacy0 => [0x00]
  | .dLegacy1 => [0x08]
  | .dLegacy2 => [0x10]
  | .dLegacy3 => [0x18]
  | .dHigh5 => [0x28]
  | .dHigh6 => [0x30]
  | .dHigh7 => [0x38]
  | .xFallMod1 l => extHeaderBytes 0 l
  | .xFallMod2 l => extHeaderBytes 0 l
  | .xFallMod3 l => extHeaderBytes 0 l
  | .xFallZero => extHeaderBytes 0 0
  | .xFallOver l => extHeaderBytes 0 l
  | .xTake t l => extHeaderBytes t l
  | .start | .hTrunc | .hLoad | .xStop | .mNone | .mShort | .mKey | .mFull | .cOk | .cTrail => []

/-- The `mask` column of the row, as a number. -/
def Instr.mask : Instr → Nat
  | .dV4 | .dLegacy0 | .dLegacy1 | .dLegacy2 | .dLegacy3 | .dHigh5 | .dHigh6 | .dHigh7 => 0x38
  | .xFallMod1 _ | .xFallMod2 _ | .xFallMod3 _ | .xFallOver _ | .xTake _ _ => 0x00000003
  | .xFallZero => 0x0000FFFF
  | .start | .hTrunc | .hLoad | .xStop | .mNone | .mShort | .mKey | .mFull | .cOk | .cTrail => 0

/-- The `match` column of the row, as a number. -/
def Instr.pattern : Instr → Nat
  | .dV4 => 0x20
  | .dLegacy0 => 0x00
  | .dLegacy1 => 0x08
  | .dLegacy2 => 0x10
  | .dLegacy3 => 0x18
  | .dHigh5 => 0x28
  | .dHigh6 => 0x30
  | .dHigh7 => 0x38
  | .xFallMod1 _ => 0x00000001
  | .xFallMod2 _ => 0x00000002
  | .xFallMod3 _ => 0x00000003
  | .xFallZero | .xFallOver _ | .xTake _ _ => 0x00000000
  | .start | .hTrunc | .hLoad | .xStop | .mNone | .mShort | .mKey | .mFull | .cOk | .cTrail => 0x0

/-- A unit as the table numbers its bits: big-endian. -/
def unitNat (u : List Byte) : Nat := u.foldl (fun n b => 256 * n + b.toNat) 0

/-- The `state`, `condition` and `constraint` fields of the row (R84): which selection inputs admit the operation.
The packet bits are `mask` and `pattern`. -/
def Sel.admits (c : Sel) : Instr → Bool
  | .start => (c.st == .idle || c.st == .done) && c.start
  | .hTrunc => c.st == .hdr && decide (c.len < 48)
  | .hLoad => c.st == .hdr && decide (48 ≤ c.len)
  | .dV4 | .dLegacy0 | .dLegacy1 | .dLegacy2 | .dLegacy3 | .dHigh5 | .dHigh6 | .dHigh7 => c.st == .disp
  | .xStop => c.st == .ext && decide (c.rem < 4)
  | .xFallMod1 _ | .xFallMod2 _ | .xFallMod3 _ | .xFallZero => c.st == .ext && decide (4 ≤ c.rem)
  | .xFallOver l => c.st == .ext && decide (4 ≤ c.rem) && decide (c.rem < (l.toNat : Int))
  | .xTake _ l => c.st == .ext && decide (4 ≤ c.rem) && decide ((l.toNat : Int) ≤ c.rem)
  | .mNone => c.st == .mac && decide (c.rem = 0)
  | .mShort => c.st == .mac && decide (0 < c.rem) && decide (c.rem < 4)
  | .mKey => c.st == .mac && decide (c.rem = 4)
  | .mFull => c.st == .mac && decide (4 < c.rem)
  | .cOk => c.st == .chk && c.pos == c.len
  | .cTrail => c.st == .chk && c.pos != c.len

end Sys2Proof
end

