-- ==== Sys2Proof/Machine/State.lean ====
section
/-! DEFINITION. The state of the block (10_state.md R20), the packet buffer and input pins the host drives
(10_state.md R24, 20_memory.md R50), and which agent moves next (00_scope.md R7). Plain data throughout. -/

namespace Sys2Proof.Machine

/-- The packet buffer: the bytes that differ from what an unlisted address reads as, addresses strictly rising. -/
abbrev Memory := List Host.Cell

/-- One 64-bit NTP timestamp: SEC = bits 63:32, FRAC = bits 31:0 (10_state.md R32). -/
structure Timestamp where
  sec  : BitVec 32
  frac : BitVec 32
  deriving DecidableEq, Repr

/-- The thirteen values H.LOAD reads (10_state.md R26). -/
structure Header where
  li      : BitVec 2
  vn      : BitVec 3
  mode    : BitVec 3
  stratum : BitVec 8
  poll    : BitVec 8
  prec    : BitVec 8
  rdelay  : BitVec 32
  rdisp   : BitVec 32
  refid   : BitVec 32
  refts   : Timestamp
  orgts   : Timestamp
  rects   : Timestamp
  xmtts   : Timestamp
  deriving DecidableEq, Repr

/-- One extension record (10_state.md R33). -/
structure XRec where
  xtype : BitVec 16
  xlen  : BitVec 16
  xoff  : Nat
  deriving DecidableEq, Repr

/-- The output ports of 10_state.md R24, less `pkt_raddr` (U14: not architectural). -/
inductive OutPort where
  | busy | done | ok | err | xle
  | li | vn | mode | stratum | poll | prec | rdelay | rdisp | refid | refts | orgts | rects | xmtts
  | xcnt | xrecType | xrecLen | xrecOff
  | macP | macKv | macKey | macOff | macDlen
  deriving DecidableEq, Repr

/-- What the host can do (70_reset_and_hazards.md R205). -/
inductive HostAct where
  /-- Write one byte of PKT. -/
  | writePkt (a : Nat) (b : Byte)
  /-- Drive `len_i`, a port of LEN_W bits. -/
  | setLen (n : Nat)
  /-- Drive `start`. -/
  | setStart (b : Bool)
  /-- Drive `rst`. -/
  | setRst (b : Bool)
  /-- Drive `xidx`, a port of XCNT_W bits. -/
  | setXidx (i : Nat)
  /-- Read an output port. -/
  | read (p : OutPort)
  deriving DecidableEq, Repr

/-- Which agent moves: the block takes one operation (or waits), or the host acts once (R7). -/
inductive Turn where
  | block
  | host (a : HostAct)
  deriving DecidableEq, Repr

/-- The reasons a step stops with a fault. -/
inductive Fault where
  /-- A `MemRead` outside 0..LEN−1 (20_memory.md R52, 60_exceptions.md R179), raised by `memRead`. Safe: it is
  not an event of the block, and no operation reaches it. -/
  | boundsViolation
  /-- The host writes at an address of more than LEN_W bits, which PKT does not have (20_memory.md R50). Raised by
  `hostTurn`. Safe (log 3). -/
  | noSuchAddress
  deriving DecidableEq, Repr

/-- The reasons a step is refused. -/
inductive Refusal where
  /-- An operation that has no meaning yet; `exec` has no such arm left, so nothing raises it. Safe. -/
  | notModelled (mnemonic : String)
  /-- A meaning was asked for in a state where its "Enabled when" does not hold, or with operands that are not the
  packet bits at POS. Raised by the meanings, never by a step that decodes. Safe (log 9). -/
  | notEnabled
  /-- A block turn where no operation is selected though the block is busy: ST = DISP with VN = ⊥, or ST = MAC with
  POS > LEN. Raised by `blockTurn`. Safe: no run reaches such a state (log 10). -/
  | noOperation
  /-- The host writes a byte of PKT below LEN while `busy` = 1 (20_memory.md R58, U6). Raised by `hostTurn`. Safe
  (log 11). -/
  | bufferChanged
  /-- The host reads a port that holds ⊥ (10_state.md R43, U4, U8). Raised by `hostTurn`. Safe (log 17). -/
  | undefinedRead
  /-- The host drives `len_i` or `xidx` with a value that does not fit the port (10_state.md R24). Raised by `hostTurn`.
  Safe (log 3). -/
  | portWidth
  deriving DecidableEq, Repr

/-- The machine. `none` in a register is the spec's ⊥ (10_state.md R43, log 1). The registers and pins that hold a buffer
address, a length or an index (POS, LEN, `len_i`, XOFF, MAC_OFF, MAC_DLEN: LEN_W bits; XCNT, `xidx`: XCNT_W bits) hold
the number. DESIGN CHOICE (log 3), safe: LEN_W is a parameter (00_scope.md R5), R46 proves that no sum of theirs
wraps, and that each fits its width is part of the invariant. -/
structure State where
  /- Control (R21 to R23) -/
  st      : Fsm
  pos     : Nat
  len     : Nat
  /- Header result registers (R26 to R32) -/
  li      : Option (BitVec 2)
  vn      : Option (BitVec 3)
  mode    : Option (BitVec 3)
  stratum : Option (BitVec 8)
  poll    : Option (BitVec 8)
  prec    : Option (BitVec 8)
  rdelay  : Option (BitVec 32)
  rdisp   : Option (BitVec 32)
  refid   : Option (BitVec 32)
  refts   : Option Timestamp
  orgts   : Option Timestamp
  rects   : Option Timestamp
  xmtts   : Option Timestamp
  /- Extension record table (R33, R34) -/
  xtab    : List XRec
  xcnt    : Nat
  /- MAC registers (R36) -/
  macP    : Bool
  macKv   : Bool
  macKey  : Option (BitVec 32)
  macOff  : Option Nat
  macDlen : Option Nat
  /- Status flags (R38) -/
  ok      : Bool
  err     : ErrCode
  xle     : Bool
  /- Input pins, driven by the host (R24) -/
  rst     : Bool
  start   : Bool
  lenI    : Nat
  xidx    : Nat
  /- The packet buffer, owned by the host (R50) -/
  pkt     : Memory
  /- No byte of the packet has changed since START (R58, U6). The model's own field (log 18); no operation reads it -/
  intact  : Bool
  /- The build-time parameters (R5) -/
  cfg     : Config
  /- The turns still to come; the block moves when there is none (R7, log 4) -/
  turns   : List Turn
  deriving DecidableEq, Repr

/-- Right after reset (10_state.md R44). The pins, the buffer, the turns and `intact` are the model's own choice (log 4, 5,
6, 18); the parameters are those of NTPP-1.0. -/
def State.reset : State :=
  { st := .idle, pos := 0, len := 0,
    li := none, vn := none, mode := none, stratum := none, poll := none, prec := none,
    rdelay := none, rdisp := none, refid := none,
    refts := none, orgts := none, rects := none, xmtts := none,
    xtab := [], xcnt := 0,
    macP := false, macKv := false, macKey := none, macOff := none, macDlen := none,
    ok := false, err := .none, xle := false,
    rst := false, start := false, lenI := 0, xidx := 0,
    pkt := [], intact := true, cfg := Config.ntpp10, turns := [] }

end Sys2Proof.Machine
end

