-- ==== Sys2Proof/Machine/Ops.lean ====
section
/-! DEFINITION. The named operations over the packet buffer and the registers: reading and writing one byte,
`MemRead` (20_memory.md R52), the register writes of each operation rule as one update of State, the error entry
`raise` (60_exceptions.md R176) and the only way out of an error, the next START (R178), beside it; and the shared
shapes of a meaning. -/

namespace Sys2Proof.Machine

/-- What a meaning and a step answer. -/
abbrev Result := Host.Outcome State Fault Refusal

/-! ### The packet buffer -/

/-- What an address the host has not written reads as. DESIGN CHOICE (log 5), unsafe for claims about
`State.reset` itself. -/
def Memory.blank : Byte := 0

/-- PKT[a]. -/
def Memory.read : Memory → Nat → Byte
  | [], _ => Memory.blank
  | (k, v) :: m, a => if k = a then v else Memory.read m a

/-- The host's write of one byte (the block has none, 20_memory.md R51); keeps the canonical form. -/
def Memory.write : Memory → Nat → Byte → Memory
  | [], a, b => if b = Memory.blank then [] else [(a, b)]
  | (k, v) :: m, a, b =>
    if a < k then (if b = Memory.blank then (k, v) :: m else (a, b) :: (k, v) :: m)
    else if a = k then (if b = Memory.blank then m else (a, b) :: m)
    else (k, v) :: Memory.write m a b

/-- Write consecutive bytes, the first at the lowest address. -/
def Memory.writeAll : Memory → Nat → List Byte → Memory
  | m, _, [] => m
  | m, a, b :: bs => Memory.writeAll (Memory.write m a b) (a + 1) bs

/-- The canonical form: addresses strictly rising, and no listed byte equal to what an unlisted address reads as. -/
abbrev Memory.wf (m : Memory) : Prop :=
  m.Pairwise (fun c d => c.1 < d.1) ∧ ∀ c ∈ m, c.2 ≠ Memory.blank

/-- Every listed address has at most `w` bits. -/
abbrev Memory.within (w : Nat) (m : Memory) : Prop := ∀ c ∈ m, c.1 < 2 ^ w

/-- `MemRead(addr, n)`: defined iff `addr + n ≤ LEN` on integers, lowest address first (20_memory.md R52). -/
def memRead (s : State) (addr n : Nat) : Except Fault (List Byte) :=
  if addr + n ≤ s.len then
    .ok ((List.range n).map fun i => Memory.read s.pkt (addr + i))
  else .error .boundsViolation

/-! ### Control state -/

/-- The inputs of operation selection (30_encoding.md R84). -/
def State.sel (s : State) : Sel := { st := s.st, start := s.start, len := s.len, pos := s.pos }

/-- REM = LEN − POS, on integers (10_state.md R25). -/
def State.rem (s : State) : Int := (s.len : Int) - (s.pos : Int)

/-- ST = f and `rst` not asserted: no operation is enabled while it is (70_reset_and_hazards.md R190). -/
abbrev State.At (s : State) (f : Fsm) : Prop := s.rst = false ∧ s.st = f

/-- `ST <- f`, the control transfer (00_scope.md R12). -/
def State.goto (s : State) (f : Fsm) : State := { s with st := f }

/-- XVALID(L, REM) (30_encoding.md R81). -/
abbrev xValid (l : BitVec 16) (rem : Int) : Prop :=
  4 ≤ l.toNat ∧ l.toNat % 4 = 0 ∧ (l.toNat : Int) ≤ rem

/-! ### Errors: entry and return -/

/-- The error entry `raise <Kind>` (60_exceptions.md R176): the code, OK and ST, nothing else. -/
def State.raise (s : State) (k : ErrCode) : State := { s with err := k, ok := false, st := .done }

/-- The writes of START (45_assembler.md R150), which is also what ends an error (60_exceptions.md R178). -/
def State.startRun (s : State) : State :=
  { s with
    len := s.lenI, pos := 0, xtab := [], xcnt := 0,
    ok := false, err := .none, xle := false,
    macP := false, macKv := false, macKey := none, macOff := none, macDlen := none,
    li := none, vn := none, mode := none, stratum := none, poll := none, prec := none,
    rdelay := none, rdisp := none, refid := none,
    refts := none, orgts := none, rects := none, xmtts := none,
    intact := true, st := .hdr }

/-- The registers of the block at their reset values (10_state.md R44, 70_reset_and_hazards.md R190, R191); the
pins, the packet buffer, the parameters and the turns are not the block's and stay; no run is on (log 18). -/
def State.resetBlock (s : State) : State :=
  { State.reset with
    rst := s.rst, start := s.start, lenI := s.lenI, xidx := s.xidx,
    pkt := s.pkt, cfg := s.cfg, turns := s.turns }

/-! ### The host's write -/

/-- The host's write of one byte of PKT. Below LEN a byte that changes is no longer the byte of the packet the run was
about (20_memory.md R58, log 18). -/
def State.hostWrite (s : State) (a : Nat) (b : Byte) : State :=
  { s with
    pkt := Memory.write s.pkt a b,
    intact := s.intact && (decide (s.len ≤ a) || Memory.read s.pkt a == b) }

/-! ### Register writes of the operations -/

/-- The writes of H.LOAD, given what it read (41_header_parser.md R111). -/
def State.loadHeader (s : State) (h : Header) : State :=
  { s with
    li := some h.li, vn := some h.vn, mode := some h.mode, stratum := some h.stratum,
    poll := some h.poll, prec := some h.prec, rdelay := some h.rdelay, rdisp := some h.rdisp,
    refid := some h.refid, refts := some h.refts, orgts := some h.orgts, rects := some h.rects,
    xmtts := some h.xmtts, pos := 48, st := .disp }

/-- The writes of X.FALL (43_extension_fsm.md R133): POS is not advanced. -/
def State.fallBack (s : State) : State := { s with xle := true, st := .mac }

/-- The writes of X.TAKE (43_extension_fsm.md R134). -/
def State.takeField (s : State) (t l : BitVec 16) : State :=
  { s with
    xtab := s.xtab ++ [{ xtype := t, xlen := l, xoff := s.pos }],
    xcnt := s.xcnt + 1,
    pos := s.pos + l.toNat,
    st := .ext }

/-- The writes of M.NONE (44_mac_validator.md R140). -/
def State.noMac (s : State) : State := { s with macP := false, macKv := false, st := .chk }

/-- The writes M.SHORT, M.KEY and M.FULL share (44_mac_validator.md R141 to R143): a MAC is present, every
remaining byte is consumed. -/
def State.takeMac (s : State) (kv : Bool) (key : BitVec 32) (off dlen : Nat) : State :=
  { s with
    macP := true, macKv := kv, macKey := some key,
    macOff := some off, macDlen := some dlen,
    pos := s.len, st := .chk }

/-- The writes of C.OK (45_assembler.md R151). -/
def State.accept (s : State) : State := { s with ok := true, st := .done }

/-! ### Shapes of a meaning -/

/-- `k` where the operation's "Enabled when" holds; elsewhere the operation does not occur (log 9). -/
def whenEnabled (c : Prop) [Decidable c] (k : Result) : Result :=
  if c then k else .refused .notEnabled

/-- Go on with what a reader answers, or stop with its fault (40_primitive_codecs.md R100). -/
def withRead {α : Type} (r : Except Fault α) (k : α → Result) : Result :=
  match r with
  | .ok v => k v
  | .error f => .fault f

/-- D.V4, D.LEGACY and D.HIGH: the row of version `v` transfers control to `f` (R120 to R122). -/
def dispatchTo (v : BitVec 3) (f : Fsm) (s : State) : Result :=
  whenEnabled (s.At .disp ∧ s.vn = some v) (.next (s.goto f))

end Sys2Proof.Machine
end

