-- ==== Sys2Proof/Machine/Operands.lean ====
section
/-! DEFINITION. The field readers (40_primitive_codecs.md), their inverses the big-endian writers (R106), the numeric
readings of raw fields, and the assembly of the header (30_encoding.md R71 to R73). -/

namespace Sys2Proof.Machine

/-- `BE(s)` (00_scope.md R12): BE([]) = 0, BE(s ++ [b]) = 256·BE(s) + b. -/
def be (bs : List Byte) : Nat := bs.foldl (fun n b => 256 * n + b.toNat) 0

/-- `BEn(v)`: the n bytes of v, most significant first (R106). DESIGN CHOICE (log 22), safe: for v ≥ 256^n, which R106
leaves undefined, the low n bytes of v. -/
def beBytes : Nat → Nat → List Byte
  | 0, _ => []
  | n + 1, v => BitVec.ofNat 8 (v / 256 ^ n) :: beBytes n v

/-- `RdU8(a)` (R101). -/
def rdU8 (s : State) (a : Nat) : Except Fault (BitVec 8) :=
  (memRead s a 1).map fun bs => BitVec.ofNat 8 (be bs)

/-- `RdU16(a)` (R102). -/
def rdU16 (s : State) (a : Nat) : Except Fault (BitVec 16) :=
  (memRead s a 2).map fun bs => BitVec.ofNat 16 (be bs)

/-- `RdU32(a)` (R103). -/
def rdU32 (s : State) (a : Nat) : Except Fault (BitVec 32) :=
  (memRead s a 4).map fun bs => BitVec.ofNat 32 (be bs)

/-- `RdFix32(a)`, as bits (R104). -/
def rdFix32 (s : State) (a : Nat) : Except Fault (BitVec 32) := rdU32 s a

/-- `RdTs64(a) = (RdU32(a), RdU32(a + 4))` (R105). -/
def rdTs64 (s : State) (a : Nat) : Except Fault Timestamp := do
  let sec ← rdU32 s a
  let frac ← rdU32 s (a + 4)
  return { sec := sec, frac := frac }

/-- `sext` of an 8-bit value (00_scope.md R11). -/
def sext8 (v : BitVec 8) : Int := if v.toNat < 128 then (v.toNat : Int) else (v.toNat : Int) - 256

/-- `RdI8(a)`, the signed view of a byte (R101). -/
def rdI8 (s : State) (a : Nat) : Except Fault Int := (rdU8 s a).map sext8

/-- A 16.16 field in seconds: raw / 65536, unsigned (R104). -/
def fix32Seconds (v : BitVec 32) : Rat := (v.toNat : Rat) / 65536

/-- The integer part v[31:16] of a 16.16 field (R104). -/
def fix32Int (v : BitVec 32) : BitVec 16 := v.extractLsb' 16 16

/-- The fraction v[15:0], in units of 2^−16 s, of a 16.16 field (R104). -/
def fix32Frac (v : BitVec 32) : BitVec 16 := v.extractLsb' 0 16

/-- A timestamp as one 64-bit value (R105). -/
def Timestamp.value (t : Timestamp) : BitVec 64 := t.sec ++ t.frac

/-- Seconds after 1900-01-01T00:00:00Z, era not resolved (10_state.md R32). -/
def Timestamp.instant (t : Timestamp) : Rat := (t.sec.toNat : Rat) + (t.frac.toNat : Rat) / 4294967296

/-- LI = b[7:6] (30_encoding.md R72). -/
def byte0Li (b : Byte) : BitVec 2 := b.extractLsb' 6 2

/-- VN = b[5:3] (R72). -/
def byte0Vn (b : Byte) : BitVec 3 := b.extractLsb' 3 3

/-- MODE = b[2:0] (R72). -/
def byte0Mode (b : Byte) : BitVec 3 := b.extractLsb' 0 3

/-- The version bits of byte 0, the rest 0: what takes part in ST = DISP (mask 0x38, R85). -/
def versionByte (v : BitVec 3) : Byte := BitVec.ofNat 8 (8 * v.toNat)

/-- Everything H.LOAD reads, PKT[0..47] (41_header_parser.md R111). -/
def readHeader (s : State) : Except Fault Header := do
  let b ← rdU8 s 0
  let stratum ← rdU8 s 1
  let poll ← rdU8 s 2
  let prec ← rdU8 s 3
  let rdelay ← rdFix32 s 4
  let rdisp ← rdFix32 s 8
  let refid ← rdU32 s 12
  let refts ← rdTs64 s 16
  let orgts ← rdTs64 s 24
  let rects ← rdTs64 s 32
  let xmtts ← rdTs64 s 40
  return { li := byte0Li b, vn := byte0Vn b, mode := byte0Mode b, stratum := stratum, poll := poll,
           prec := prec, rdelay := rdelay, rdisp := rdisp, refid := refid,
           refts := refts, orgts := orgts, rects := rects, xmtts := xmtts }

/-- X.FALL (43_extension_fsm.md R133) on the row whose rejected lengths satisfy `c`: the operand is L = RdU16(POS + 2). -/
def fallOn (l : BitVec 16) (c : Prop) [Decidable c] (s : State) : Result :=
  whenEnabled (s.At .ext ∧ 4 ≤ s.rem)
    (withRead (rdU16 s (s.pos + 2)) fun len =>
      whenEnabled (len = l ∧ c) (.next s.fallBack))

/-- M.KEY and M.FULL: a MAC with the key identifier RdU32(POS) and the digest of REM − 4 bytes after it
(44_mac_validator.md R142, R143), where `c` holds of REM. -/
def keyedMac (c : Prop) [Decidable c] (s : State) : Result :=
  whenEnabled (s.At .mac ∧ c)
    (withRead (rdU32 s s.pos) fun key =>
      .next (s.takeMac true key (s.pos + 4) (s.len - s.pos - 4)))

end Sys2Proof.Machine
end

