-- ==== Sys2Proof/Machine/Flags.lean ====
section
/-! DEFINITION. The status outputs: `busy` and `done` are functions of ST (10_state.md R21); OK, ERR and XLE are
registers that steer nothing (R38). The block has no arithmetic condition codes. -/

namespace Sys2Proof.Machine

/-- `busy = 1` iff ST ∈ {HDR, DISP, EXT, MAC, CHK} (R21). -/
def State.busy (s : State) : Bool :=
  match s.st with
  | .hdr | .disp | .ext | .mac | .chk => true
  | .idle | .done => false

/-- `done = 1` iff ST = DONE (R21). -/
def State.isDone (s : State) : Bool := s.st == .done

/-- The result registers may be read only while `done = 1` and OK = 1 (R41). -/
def State.resultValid (s : State) : Bool := s.isDone && s.ok

end Sys2Proof.Machine
end

