-- ==== Sys2Proof/Machine/Environment.lean ====
section
/-! DEFINITION. The host's side: the output ports (10_state.md R24) with the validity rules R41 and R43, and one turn
of the host (70_reset_and_hazards.md R205). -/

namespace Sys2Proof.Machine

/-- A result port: a value only while `done = 1` and OK = 1 (R41). -/
def State.gated (s : State) (v : Option Nat) : Option Nat := if s.resultValid then v else none

/-- A flag port: a value only while `done = 1` (R38, R41). -/
def State.whenDone (s : State) (v : Nat) : Option Nat := if s.isDone then some v else none

/-- The record the read port shows: XTAB[xidx], ⊥ when xidx ≥ XCNT (R24, U8). -/
def State.xrec (s : State) : Option XRec :=
  if s.xidx < s.xcnt then s.xtab[s.xidx]? else none

/-- The value on an output port as an unsigned number, `none` for ⊥ (R24, R41, R43). -/
def State.port (s : State) : OutPort → Option Nat
  | .busy => some s.busy.toNat
  | .done => some s.isDone.toNat
  | .ok => s.whenDone s.ok.toNat
  | .err => s.whenDone s.err.code.toNat
  | .xle => s.whenDone s.xle.toNat
  | .li => s.gated (s.li.map (·.toNat))
  | .vn => s.gated (s.vn.map (·.toNat))
  | .mode => s.gated (s.mode.map (·.toNat))
  | .stratum => s.gated (s.stratum.map (·.toNat))
  | .poll => s.gated (s.poll.map (·.toNat))
  | .prec => s.gated (s.prec.map (·.toNat))
  | .rdelay => s.gated (s.rdelay.map (·.toNat))
  | .rdisp => s.gated (s.rdisp.map (·.toNat))
  | .refid => s.gated (s.refid.map (·.toNat))
  | .refts => s.gated (s.refts.map (·.value.toNat))
  | .orgts => s.gated (s.orgts.map (·.value.toNat))
  | .rects => s.gated (s.rects.map (·.value.toNat))
  | .xmtts => s.gated (s.xmtts.map (·.value.toNat))
  | .xcnt => s.gated (some s.xcnt)
  | .xrecType => s.gated (s.xrec.map (·.xtype.toNat))
  | .xrecLen => s.gated (s.xrec.map (·.xlen.toNat))
  | .xrecOff => s.gated (s.xrec.map (·.xoff))
  | .macP => s.gated (some s.macP.toNat)
  | .macKv => s.gated (some s.macKv.toNat)
  | .macKey => s.gated (s.macKey.map (·.toNat))
  | .macOff => s.gated s.macOff
  | .macDlen => s.gated s.macDlen

/-- One act of the host (R205). PKT has the addresses of LEN_W bits, and a value must fit the port it is driven on (R24,
R50, log 3). A byte below LEN may not change while the block is busy: outside the contract, refused (R58, U6). Asserting
`rst` puts the block into the reset state from any state (R190). A read of ⊥ is refused (R43). -/
def hostTurn (a : HostAct) (s : State) : Result :=
  match a with
  | .writePkt addr b =>
    if ¬ addr < 2 ^ s.cfg.lenW then .fault .noSuchAddress
    else if s.busy = true ∧ addr < s.len then .refused .bufferChanged
    else .next (s.hostWrite addr b)
  | .setLen n => if n ≤ s.cfg.lenMax then .next { s with lenI := n } else .refused .portWidth
  | .setStart b => .next { s with start := b }
  | .setRst b => .next (if b then { s.resetBlock with rst := true } else { s with rst := false })
  | .setXidx i => if i < 2 ^ s.cfg.xcntW then .next { s with xidx := i } else .refused .portWidth
  | .read p => if (s.port p).isSome then .next s else .refused .undefinedRead

end Sys2Proof.Machine
end

