-- ==== Sys2Proof/Machine/Assembler.lean ====
section
/-! DEFINITION. Sequencing and the final check: START, C.OK, C.TRAIL (45_assembler.md). -/

namespace Sys2Proof.Machine

/-- START (R150): in IDLE or DONE, on `start`. -/
def execStart (s : State) : Result :=
  whenEnabled (s.rst = false ∧ (s.st = .idle ∨ s.st = .done) ∧ s.start = true) (.next s.startRun)

/-- C.OK (R151): everything consumed. -/
def execCOk (s : State) : Result :=
  whenEnabled (s.At .chk ∧ s.pos = s.len) (.next s.accept)

/-- C.TRAIL (R152): bytes left over. -/
def execCTrail (s : State) : Result :=
  whenEnabled (s.At .chk ∧ s.pos ≠ s.len) (.next (s.raise .trailingData))

end Sys2Proof.Machine
end

