-- ==== Sys2Proof/Machine/ExtensionFsm.lean ====
section
/-! DEFINITION. The extension field decoder: X.STOP, X.FALL, X.TAKE (43_extension_fsm.md). -/

namespace Sys2Proof.Machine

/-- X.STOP (R132): fewer than four bytes remain; no byte is read. -/
def execXStop (s : State) : Result :=
  whenEnabled (s.At .ext ∧ s.rem < 4) (.next (s.goto .mac))

/-- X.FALL (R133), L mod 4 = 1. -/
def execXFallMod1 (l : BitVec 16) (s : State) : Result := fallOn l (l.toNat % 4 = 1) s

/-- X.FALL (R133), L mod 4 = 2. -/
def execXFallMod2 (l : BitVec 16) (s : State) : Result := fallOn l (l.toNat % 4 = 2) s

/-- X.FALL (R133), L mod 4 = 3. -/
def execXFallMod3 (l : BitVec 16) (s : State) : Result := fallOn l (l.toNat % 4 = 3) s

/-- X.FALL (R133), L = 0. -/
def execXFallZero (s : State) : Result := fallOn 0 True s

/-- X.FALL (R133), L a non-zero multiple of 4 with L > REM. -/
def execXFallOver (l : BitVec 16) (s : State) : Result :=
  fallOn l (l.toNat % 4 = 0 ∧ l.toNat ≠ 0 ∧ s.rem < (l.toNat : Int)) s

/-- X.TAKE (R134): the operands are T = RdU16(POS) and L = RdU16(POS + 2); the payload is located, not read. -/
def execXTake (t l : BitVec 16) (s : State) : Result :=
  whenEnabled (s.At .ext ∧ 4 ≤ s.rem)
    (withRead (rdU16 s s.pos) fun ty =>
      withRead (rdU16 s (s.pos + 2)) fun len =>
        whenEnabled (ty = t ∧ len = l ∧ xValid len s.rem) (.next (s.takeField ty len)))

end Sys2Proof.Machine
end

