-- ==== Sys2Proof/Machine/HeaderParser.lean ====
section
/-! DEFINITION. The header parser: H.TRUNC, H.LOAD (41_header_parser.md). -/

namespace Sys2Proof.Machine

/-- H.TRUNC (R110): fewer than 48 bytes; no byte is read. -/
def execHTrunc (s : State) : Result :=
  whenEnabled (s.At .hdr ∧ s.len < 48) (.next (s.raise .truncated))

/-- H.LOAD (R111). -/
def execHLoad (s : State) : Result :=
  whenEnabled (s.At .hdr ∧ 48 ≤ s.len)
    (withRead (readHeader s) fun h => .next (s.loadHeader h))

end Sys2Proof.Machine
end

