-- ==== Sys2Proof/Machine/MacValidator.lean ====
section
/-! DEFINITION. The MAC frame validator: M.NONE, M.SHORT, M.KEY, M.FULL (44_mac_validator.md). -/

namespace Sys2Proof.Machine

/-- M.NONE (R140): nothing remains. -/
def execMNone (s : State) : Result :=
  whenEnabled (s.At .mac ∧ s.rem = 0) (.next s.noMac)

/-- M.SHORT (R141): one to three bytes remain; no byte is read. -/
def execMShort (s : State) : Result :=
  whenEnabled (s.At .mac ∧ 0 < s.rem ∧ s.rem < 4)
    (match s.cfg.shortMac with
     | .acceptNoKey =>
       .next (s.takeMac false 0 s.pos (s.len - s.pos))
     | .truncated => .next (s.raise .truncated))

/-- M.KEY (R142): exactly four bytes remain; MAC_OFF = LEN and MAC_DLEN = 0. -/
def execMKey (s : State) : Result := keyedMac (s.rem = 4) s

/-- M.FULL (R143): more than four bytes remain. -/
def execMFull (s : State) : Result := keyedMac (4 < s.rem) s

end Sys2Proof.Machine
end

