-- ==== Sys2Proof/Machine/VersionDispatch.lean ====
section
/-! DEFINITION. The version dispatch: D.V4, D.LEGACY, D.HIGH (42_version_dispatch.md). -/

namespace Sys2Proof.Machine

/-- Where D.HIGH goes, by VOTHER_POLICY (R122). -/
def State.highTarget (s : State) : Fsm :=
  match s.cfg.vother with
  | .macOnly => .mac
  | .trailingData => .chk

/-- D.V4 (R120). -/
def execDV4 (s : State) : Result := dispatchTo 4 .ext s

/-- D.LEGACY (R121), VN = 0. -/
def execDLegacy0 (s : State) : Result := dispatchTo 0 .mac s

/-- D.LEGACY (R121), VN = 1. -/
def execDLegacy1 (s : State) : Result := dispatchTo 1 .mac s

/-- D.LEGACY (R121), VN = 2. -/
def execDLegacy2 (s : State) : Result := dispatchTo 2 .mac s

/-- D.LEGACY (R121), VN = 3. -/
def execDLegacy3 (s : State) : Result := dispatchTo 3 .mac s

/-- D.HIGH (R122), VN = 5. -/
def execDHigh5 (s : State) : Result := dispatchTo 5 s.highTarget s

/-- D.HIGH (R122), VN = 6. -/
def execDHigh6 (s : State) : Result := dispatchTo 6 s.highTarget s

/-- D.HIGH (R122), VN = 7. -/
def execDHigh7 (s : State) : Result := dispatchTo 7 s.highTarget s

end Sys2Proof.Machine
end

