-- ==== Sys2Proof/Machine/Dispatch.lean ====
section
/-! DEFINITION. One arm for each constructor of Instr. -/

namespace Sys2Proof.Machine

def exec (i : Instr) (s : State) : Host.Outcome State Fault Refusal :=
  match i with
  | .start => Sys2Proof.Machine.execStart s
  | .hTrunc => Sys2Proof.Machine.execHTrunc s
  | .hLoad => Sys2Proof.Machine.execHLoad s
  | .dV4 => Sys2Proof.Machine.execDV4 s
  | .dLegacy0 => Sys2Proof.Machine.execDLegacy0 s
  | .dLegacy1 => Sys2Proof.Machine.execDLegacy1 s
  | .dLegacy2 => Sys2Proof.Machine.execDLegacy2 s
  | .dLegacy3 => Sys2Proof.Machine.execDLegacy3 s
  | .dHigh5 => Sys2Proof.Machine.execDHigh5 s
  | .dHigh6 => Sys2Proof.Machine.execDHigh6 s
  | .dHigh7 => Sys2Proof.Machine.execDHigh7 s
  | .xStop => Sys2Proof.Machine.execXStop s
  | .xFallMod1 l => Sys2Proof.Machine.execXFallMod1 l s
  | .xFallMod2 l => Sys2Proof.Machine.execXFallMod2 l s
  | .xFallMod3 l => Sys2Proof.Machine.execXFallMod3 l s
  | .xFallZero => Sys2Proof.Machine.execXFallZero s
  | .xFallOver l => Sys2Proof.Machine.execXFallOver l s
  | .xTake t l => Sys2Proof.Machine.execXTake t l s
  | .mNone => Sys2Proof.Machine.execMNone s
  | .mShort => Sys2Proof.Machine.execMShort s
  | .mKey => Sys2Proof.Machine.execMKey s
  | .mFull => Sys2Proof.Machine.execMFull s
  | .cOk => Sys2Proof.Machine.execCOk s
  | .cTrail => Sys2Proof.Machine.execCTrail s

end Sys2Proof.Machine
end

