-- ==== Sys2Proof/Machine/Fetch.lean ====
section
/-! DEFINITION. Where the block gets the packet bits that steer it, and one turn of the block. -/

namespace Sys2Proof.Machine

/-- The unit of packet bits that takes part in selection (30_encoding.md R84, R85): the version bits in ST = DISP, read
from VN (42_version_dispatch.md R120), the four bytes at POS in ST = EXT when REM ≥ 4 (20_memory.md R59), else none. -/
def fetch (s : State) : Except Fault (List Byte) :=
  match s.st with
  | .disp =>
    match s.vn with
    | some v => .ok [versionByte v]
    | none => .ok []
  | .ext => if 4 ≤ s.rem then memRead s s.pos 4 else .ok []
  | .idle | .hdr | .mac | .chk | .done => .ok []

/-- What a block turn does when no operation is selected: wait in IDLE or DONE for `start` (30_encoding.md R86,
60_exceptions.md R186; log 7), refuse in a state no run reaches (log 10). -/
def noSelection (e : DecodeError) (s : State) : Result :=
  match e with
  | .waiting => .next s
  | .noVersion | .noWord | .remNegative => .refused .noOperation

/-- One turn of the block: the reset state while `rst` is asserted (70_reset_and_hazards.md R190), else the operation
that is selected. -/
def blockTurn (s : State) : Result :=
  if s.rst = true then .next s.resetBlock
  else
    withRead (fetch s) fun u =>
      match decode s.sel u with
      | .ok i => exec i s
      | .error e => noSelection e s

/-- `s` with a table word stored where the next block turn finds its unit (log 14): no bits, `start` raised in IDLE; up
to 8 bits, byte 0 in LI, VN and MODE with ST = DISP; more, the word at POS = 48 with LEN = 65535, ST = EXT. -/
def placeWord (s : State) (nbits w : Nat) : State :=
  if nbits = 0 then { s with turns := [], rst := false, st := .idle, start := true }
  else if nbits ≤ 8 then
    { s with
      turns := [], rst := false, st := .disp,
      li := some (byte0Li (BitVec.ofNat 8 w)), vn := some (byte0Vn (BitVec.ofNat 8 w)),
      mode := some (byte0Mode (BitVec.ofNat 8 w)) }
  else
    { s with
      turns := [], rst := false, st := .ext, pos := 48, len := Config.ntpp10.lenMax,
      pkt := Memory.writeAll s.pkt 48 (beBytes 4 w) }

end Sys2Proof.Machine
end

