-- ==== Sys2Proof/Machine/Step.lean ====
section
/-! DEFINITION. One step of the machine: the agent whose turn it is moves once. -/

namespace Sys2Proof.Machine

/-- The head of `turns` says which agent moves (00_scope.md R7, log 4); with no turn listed the block moves. -/
def step (s : State) : Host.Outcome State Fault Refusal :=
  match s.turns with
  | [] => blockTurn s
  | .block :: rest => blockTurn { s with turns := rest }
  | .host a :: rest => hostTurn a { s with turns := rest }

/-- `s` such that the very next step runs the operation a table word stands for (log 14, 15). -/
def State.withFetchWord (s : State) (nbits w : Nat) : State := placeWord s nbits w

end Sys2Proof.Machine
end

