-- ==== Sys2Proof/Machine/Names.lean ====
section
/-! DEFINITION. The names the host gives to raw field values (30_encoding.md R76, R77, R79). The block stores the raw
bits and acts on none of them. -/

namespace Sys2Proof.Machine

/-- The names of LI (R76). -/
inductive LeapName where
  | noWarning | insertSecond | deleteSecond | unsynchronized
  deriving DecidableEq, Repr

/-- LI values 0 to 3 (R76). -/
def leapName (v : BitVec 2) : LeapName :=
  if v = 0 then .noWarning
  else if v = 1 then .insertSecond
  else if v = 2 then .deleteSecond
  else .unsynchronized

/-- The names of MODE (R77). -/
inductive ModeName where
  | reserved | symmetricActive | symmetricPassive | client | server | broadcast | control | privateMode
  deriving DecidableEq, Repr

/-- MODE values 0 to 7 (R77). -/
def modeName (v : BitVec 3) : ModeName :=
  if v = 0 then .reserved
  else if v = 1 then .symmetricActive
  else if v = 2 then .symmetricPassive
  else if v = 3 then .client
  else if v = 4 then .server
  else if v = 5 then .broadcast
  else if v = 6 then .control
  else .privateMode

/-- The classes of STRATUM (R79). -/
inductive StratumClass where
  | unspecified | primary | secondary | reserved
  deriving DecidableEq, Repr

/-- STRATUM 0, 1, 2 to 15, 16 and more (R79). -/
def stratumClass (v : BitVec 8) : StratumClass :=
  if v.toNat = 0 then .unspecified
  else if v.toNat = 1 then .primary
  else if v.toNat ≤ 15 then .secondary
  else .reserved

end Sys2Proof.Machine
end

