-- ==== Sys2Proof/Machine/Reference.lean ====
section
/-! DEFINITION. What the result registers stand for (10_state.md R35, R37, R40), the reference decoder (45_assembler.md
R157), the closed form of the extension loop (43_extension_fsm.md R135), and the reference encoder, which is no
hardware (45_assembler.md R158). -/

namespace Sys2Proof.Machine

/-- D0's `ExtensionField` (R35). -/
structure ExtensionField where
  fieldType : BitVec 16
  length    : BitVec 16
  payload   : List Byte
  deriving DecidableEq, Repr

/-- D0's `Mac` (R37); the key identifier is absent in the short case. -/
structure Mac where
  keyId  : Option (BitVec 32)
  digest : List Byte
  deriving DecidableEq, Repr

/-- D0's `NtpPacket` (R40); `poll` and `precision` as signed numbers. -/
structure NtpPacket where
  leapIndicator  : BitVec 2
  version        : BitVec 3
  mode           : BitVec 3
  stratum        : BitVec 8
  poll           : Int
  precision      : Int
  rootDelay      : BitVec 32
  rootDispersion : BitVec 32
  referenceId    : BitVec 32
  reference      : Timestamp
  origin         : Timestamp
  receive        : Timestamp
  transmit       : Timestamp
  extensions     : List ExtensionField
  mac            : Option Mac
  deriving DecidableEq, Repr

/-! ### The result as one value -/

/-- The n bytes of the packet at `a` that a pointer of the result names, read when asked for (R35, R37). Once the host has
changed a byte of the packet they are unspecified and have no value (20_memory.md R58, U6, log 18). -/
def State.packetBytes (s : State) (a n : Nat) : Option (List Byte) :=
  if s.intact = true ∨ n = 0 then (memRead s a n).toOption else none

/-- The field record r stands for (R35). -/
def State.fieldOf (s : State) (r : XRec) : Option ExtensionField :=
  (s.packetBytes (r.xoff + 4) (r.xlen.toNat - 4)).map fun p =>
    { fieldType := r.xtype, length := r.xlen, payload := p }

/-- The fields of all records, in order. -/
def State.fieldsOf (s : State) : List XRec → Option (List ExtensionField)
  | [] => some []
  | r :: rs => do
    let f ← s.fieldOf r
    let fs ← s.fieldsOf rs
    return f :: fs

/-- The MAC value the MAC registers stand for (R37): `none` where a register or a byte it needs has no value. -/
def State.macValue (s : State) : Option (Option Mac) :=
  if s.macP then do
    let off ← s.macOff
    let dlen ← s.macDlen
    let digest ← s.packetBytes off dlen
    if s.macKv then do
      let key ← s.macKey
      return some { keyId := some key, digest := digest }
    else return some { keyId := none, digest := digest }
  else some none

/-- RES (R40): defined when `done = 1` and OK = 1 and, where it has payload or digest bytes, the packet is as it was
(R58). -/
def State.result (s : State) : Option NtpPacket :=
  if s.resultValid then do
    let li ← s.li
    let vn ← s.vn
    let mode ← s.mode
    let stratum ← s.stratum
    let poll ← s.poll
    let prec ← s.prec
    let rdelay ← s.rdelay
    let rdisp ← s.rdisp
    let refid ← s.refid
    let refts ← s.refts
    let orgts ← s.orgts
    let rects ← s.rects
    let xmtts ← s.xmtts
    let exts ← s.fieldsOf s.xtab
    let mac ← s.macValue
    return { leapIndicator := li, version := vn, mode := mode, stratum := stratum,
             poll := sext8 poll, precision := sext8 prec, rootDelay := rdelay,
             rootDispersion := rdisp, referenceId := refid, reference := refts, origin := orgts,
             receive := rects, transmit := xmtts, extensions := exts, mac := mac }
  else none

/-! ### The reference decoder -/

/-- The n bytes of a byte sequence from index a on, big-endian, as a w-bit value. -/
def fieldAt (w : Nat) (bs : List Byte) (a n : Nat) : BitVec w := BitVec.ofNat w (be ((bs.drop a).take n))

/-- The extension loop of R157 on the bytes that remain: the fields, what is left, and whether an invalid length ended
the loop. `fuel` bounds the passes; as many as there are bytes is always enough (R131). -/
def decodeFields : Nat → List Byte → List ExtensionField × List Byte × Bool
  | 0, r => ([], r, false)
  | fuel + 1, r =>
    if r.length < 4 then ([], r, false)
    else
      let t := fieldAt 16 r 0 2
      let l := fieldAt 16 r 2 2
      if l.toNat < 4 ∨ l.toNat % 4 ≠ 0 ∨ r.length < l.toNat then ([], r, true)
      else
        let rest := decodeFields fuel (r.drop l.toNat)
        ({ fieldType := t, length := l, payload := (r.take l.toNat).drop 4 } :: rest.1, rest.2)

/-- The MAC of R157 on the bytes that remain. -/
def decodeMac (r : List Byte) : Option Mac :=
  if r.length = 0 then none
  else if r.length < 4 then some { keyId := none, digest := r }
  else some { keyId := some (fieldAt 32 r 0 4), digest := r.drop 4 }

/-- `Decode(B)` (R157), default parameters: the packet and the flag XLE, or the error. DESIGN CHOICE (log 21), safe: R157
defines it for |B| ≤ LEN_MAX, and this function, which has no LEN_W, answers by the same text for a byte sequence of any
length. -/
def decodePacket (bs : List Byte) : Except ErrCode (NtpPacket × Bool) :=
  if bs.length < 48 then .error .truncated
  else
    let b := fieldAt 8 bs 0 1
    let tail := bs.drop 48
    let loop := if byte0Vn b = 4 then decodeFields tail.length tail else ([], tail, false)
    .ok ({ leapIndicator := byte0Li b, version := byte0Vn b, mode := byte0Mode b,
           stratum := fieldAt 8 bs 1 1, poll := sext8 (fieldAt 8 bs 2 1),
           precision := sext8 (fieldAt 8 bs 3 1), rootDelay := fieldAt 32 bs 4 4,
           rootDispersion := fieldAt 32 bs 8 4, referenceId := fieldAt 32 bs 12 4,
           reference := { sec := fieldAt 32 bs 16 4, frac := fieldAt 32 bs 20 4 },
           origin := { sec := fieldAt 32 bs 24 4, frac := fieldAt 32 bs 28 4 },
           receive := { sec := fieldAt 32 bs 32 4, frac := fieldAt 32 bs 36 4 },
           transmit := { sec := fieldAt 32 bs 40 4, frac := fieldAt 32 bs 44 4 },
           extensions := loop.1, mac := decodeMac loop.2.1 }, loop.2.2)

/-! ### The closed form of the extension loop -/

/-- The cursors P_i of R135 from `p` on: the records they give, the cursor P_k where the loop ends, and whether
LEN − P_k ≥ 4 there. The bytes are those of the buffer `m`; `fuel` bounds the passes, and LEN is always enough
(R131). -/
def loopFrom (m : Memory) (len : Nat) : Nat → Nat → List XRec × Nat × Bool
  | 0, p => ([], p, false)
  | fuel + 1, p =>
    if len < p + 4 then ([], p, false)
    else
      let t := be [Memory.read m p, Memory.read m (p + 1)]
      let l := be [Memory.read m (p + 2), Memory.read m (p + 3)]
      if 4 ≤ l ∧ l % 4 = 0 ∧ l ≤ len - p then
        let rest := loopFrom m len fuel (p + l)
        ({ xtype := BitVec.ofNat _ t, xlen := BitVec.ofNat _ l, xoff := p } :: rest.1, rest.2)
      else ([], p, true)

/-! ### The reference encoder -/

/-- A timestamp's eight bytes. -/
def Timestamp.bytes (t : Timestamp) : List Byte := beBytes 4 t.sec.toNat ++ beBytes 4 t.frac.toNat

/-- The 48 bytes of a header: byte 0 is 64·LI + 8·VN + MODE (41_header_parser.md R112). -/
def Header.bytes (h : Header) : List Byte :=
  [BitVec.ofNat 8 (64 * h.li.toNat + 8 * h.vn.toNat + h.mode.toNat)] ++ [h.stratum, h.poll, h.prec]
  ++ beBytes 4 h.rdelay.toNat ++ beBytes 4 h.rdisp.toNat ++ beBytes 4 h.refid.toNat
  ++ h.refts.bytes ++ h.orgts.bytes ++ h.rects.bytes ++ h.xmtts.bytes

/-- `BE2(field_type) ++ BE2(length) ++ payload`. -/
def ExtensionField.bytes (e : ExtensionField) : List Byte :=
  beBytes 2 e.fieldType.toNat ++ beBytes 2 e.length.toNat ++ e.payload

/-- The bytes of an optional MAC. -/
def macBytes : Option Mac → List Byte
  | none => []
  | some m =>
    match m.keyId with
    | none => m.digest
    | some k => beBytes 4 k.toNat ++ m.digest

/-- `Enc(P)` (R158). POLL and PREC are written as `v mod 256` of the signed value. DESIGN CHOICE (log 20), safe: for a
packet value with a field whose |payload| ≠ length − 4, which R158 leaves undefined, this writes the stated length and the
payload as they are; no statement rests on it. -/
def encodePacket (p : NtpPacket) : List Byte :=
  [BitVec.ofNat 8 (64 * p.leapIndicator.toNat + 8 * p.version.toNat + p.mode.toNat)]
  ++ [p.stratum] ++ [BitVec.ofInt 8 p.poll] ++ [BitVec.ofInt 8 p.precision]
  ++ beBytes 4 p.rootDelay.toNat ++ beBytes 4 p.rootDispersion.toNat ++ beBytes 4 p.referenceId.toNat
  ++ p.reference.bytes ++ p.origin.bytes ++ p.receive.bytes ++ p.transmit.bytes
  ++ p.extensions.flatMap ExtensionField.bytes
  ++ macBytes p.mac

end Sys2Proof.Machine
end

