-- ==== Sys2Proof/Safety.lean ====
section
/-! DEFINITION. The terms claims are stated in: the invariant of every reachable state (10_state.md R39, R45, R47;
45_assembler.md R153, R156), the launch premises of a run (70_reset_and_hazards.md R203), and the trace of a run
(30_encoding.md R87). -/

namespace Sys2Proof.Machine

/-- PKT[a], as the model reads one byte. -/
def State.byte (s : State) (a : Nat) : Byte := Memory.read s.pkt a

/-! ### Parts of the invariant -/

/-- All thirteen header result registers hold a value. -/
abbrev State.headerLoaded (s : State) : Prop :=
  s.li.isSome ∧ s.vn.isSome ∧ s.mode.isSome ∧ s.stratum.isSome ∧ s.poll.isSome ∧ s.prec.isSome ∧
  s.rdelay.isSome ∧ s.rdisp.isSome ∧ s.refid.isSome ∧ s.refts.isSome ∧ s.orgts.isSome ∧
  s.rects.isSome ∧ s.xmtts.isSome

/-- The thirteen header result registers hold the values of `h`. -/
abbrev State.holdsHeader (s : State) (h : Header) : Prop :=
  s.li = some h.li ∧ s.vn = some h.vn ∧ s.mode = some h.mode ∧ s.stratum = some h.stratum ∧
  s.poll = some h.poll ∧ s.prec = some h.prec ∧ s.rdelay = some h.rdelay ∧ s.rdisp = some h.rdisp ∧
  s.refid = some h.refid ∧ s.refts = some h.refts ∧ s.orgts = some h.orgts ∧ s.rects = some h.rects ∧
  s.xmtts = some h.xmtts

/-- All thirteen header result registers hold ⊥. -/
abbrev State.headerAbsent (s : State) : Prop :=
  s.li = none ∧ s.vn = none ∧ s.mode = none ∧ s.stratum = none ∧ s.poll = none ∧ s.prec = none ∧
  s.rdelay = none ∧ s.rdisp = none ∧ s.refid = none ∧ s.refts = none ∧ s.orgts = none ∧
  s.rects = none ∧ s.xmtts = none

/-- No MAC: MAC_P = MAC_KV = 0 and the other MAC registers ⊥. -/
abbrev State.macAbsent (s : State) : Prop :=
  s.macP = false ∧ s.macKv = false ∧ s.macKey = none ∧ s.macOff = none ∧ s.macDlen = none

/-- OK, ERR and XLE clear. -/
abbrev State.flagsClear (s : State) : Prop := s.ok = false ∧ s.err = .none ∧ s.xle = false

/-- The records lie back to back from address `a` to address `b`, each a valid length (R156, 30_encoding.md R81). -/
def tiles : Nat → List XRec → Nat → Bool
  | a, [], b => a == b
  | a, r :: rs, b =>
    r.xoff == a && decide (4 ≤ r.xlen.toNat) && r.xlen.toNat % 4 == 0 && tiles (a + r.xlen.toNat) rs b

/-- E = 48 + Σ XLEN_i, where the MAC region begins (R156). -/
def State.macStart (s : State) : Nat := 48 + (s.xtab.map fun r => r.xlen.toNat).sum

/-- The MAC registers describe the region from `e` to LEN (R156). -/
abbrev State.macFrame (s : State) (e : Nat) : Prop :=
  (s.macAbsent ∧ e = s.len) ∨
  (s.macP = true ∧ s.macKv = true ∧ s.macKey.isSome ∧
    s.macOff = some (e + 4) ∧ s.macDlen = some (s.len - e - 4) ∧
    e + 4 ≤ s.len) ∨
  (s.macP = true ∧ s.macKv = false ∧ s.macKey = some 0 ∧
    s.macOff = some e ∧ s.macDlen = some (s.len - e) ∧
    e < s.len ∧ s.len < e + 4)

/-- Header, records and MAC region account for every byte, and POS = LEN (R144, R156). -/
abbrev State.accounted (s : State) : Prop :=
  tiles 48 s.xtab s.macStart = true ∧ s.macFrame s.macStart ∧ s.pos = s.len

/-- VN ∈ {5, 6, 7}. -/
abbrev State.versionHigh (s : State) : Prop := s.vn = some 5 ∨ s.vn = some 6 ∨ s.vn = some 7

/-- A packet of version 5 to 7 whose trailer nothing claims, under VOTHER_POLICY = TRAILING_DATA (R122). -/
abbrev State.trailerUnclaimed (s : State) : Prop :=
  s.cfg.vother = .trailingData ∧ s.versionHigh ∧ s.pos = 48 ∧ s.xtab = [] ∧ s.macAbsent ∧ s.xle = false

/-- The run ended with a hard failure (R39, R155, R174): no MAC, and the header and the records as the operation before
left them. -/
abbrev State.failed (s : State) : Prop :=
  s.ok = false ∧ s.xle = false ∧ s.macAbsent ∧
  ((s.err = .truncated ∧ s.len < 48 ∧ s.pos = 0 ∧ s.xtab = [] ∧ s.headerAbsent) ∨
   (s.err = .truncated ∧ s.headerLoaded ∧ s.cfg.shortMac = .truncated ∧ tiles 48 s.xtab s.pos = true ∧
     0 < s.rem ∧ s.rem < 4) ∨
   (s.err = .trailingData ∧ s.headerLoaded ∧ s.trailerUnclaimed ∧ 48 < s.len))

/-- What the host drives fits its port, and PKT has addresses of LEN_W bits (10_state.md R24, 20_memory.md R50). -/
abbrev State.inputsFit (s : State) : Prop :=
  s.lenI ≤ s.cfg.lenMax ∧ s.xidx < 2 ^ s.cfg.xcntW ∧ Memory.within s.cfg.lenW s.pkt

/-! ### The invariant -/

/-- What holds of every state the machine can reach, whatever the host does. -/
abbrev State.Inv (s : State) : Prop :=
  Memory.wf s.pkt ∧ s.inputsFit ∧ s.len ≤ s.cfg.lenMax ∧ s.pos ≤ s.len ∧ s.xcnt = s.xtab.length ∧
  ((s.xtab ≠ [] ∨ s.xle = true) → s.vn = some 4) ∧ (s.st ≠ .done → s.intact = true) ∧
  (s.st = .idle → s.pos = 0 ∧ s.len = 0 ∧ s.xtab = [] ∧ s.headerAbsent ∧ s.macAbsent ∧ s.flagsClear) ∧
  (s.st = .hdr → s.pos = 0 ∧ s.xtab = [] ∧ s.headerAbsent ∧ s.macAbsent ∧ s.flagsClear) ∧
  (s.st = .disp → s.pos = 48 ∧ s.xtab = [] ∧ s.headerLoaded ∧ s.macAbsent ∧ s.flagsClear) ∧
  (s.st = .ext → tiles 48 s.xtab s.pos = true ∧ s.vn = some 4 ∧ s.headerLoaded ∧ s.macAbsent ∧
    s.flagsClear) ∧
  (s.st = .mac → tiles 48 s.xtab s.pos = true ∧ s.headerLoaded ∧ s.macAbsent ∧ s.ok = false ∧
    s.err = .none ∧ (s.xle = true → 4 ≤ s.rem)) ∧
  (s.st = .chk → s.headerLoaded ∧ s.ok = false ∧ s.err = .none ∧ (s.accounted ∨ s.trailerUnclaimed)) ∧
  (s.st = .done → (s.ok = true ∧ s.err = .none ∧ s.headerLoaded ∧ s.accounted) ∨ s.failed)

/-- The result points at no byte of PKT: every payload is empty and there is no digest byte (R35, R37). -/
abbrev State.pointsAtNothing (s : State) : Prop :=
  (∀ r ∈ s.xtab, r.xlen.toNat = 4) ∧ (s.macP = true → s.macDlen = some 0)

/-! ### Turns and runs -/

/-- It is the block's turn: no turn is listed, or a block turn is next. -/
abbrev State.blockMoves (s : State) : Prop := s.turns.head? = none ∨ s.turns.head? = some .block

/-- The state as the block finds it on its turn. -/
def State.afterTurn (s : State) : State := { s with turns := s.turns.tail }

/-- What the table of R205 lets the host do in a state and within a run: every "may" row but the assertion of `rst`,
which abandons the run (R191). A read of a port that holds ⊥ is the table's "must not use" (R43); an address or a value
wider than its port is none of the table's acts (log 3). -/
def HostAct.allowed (s : State) : HostAct → Bool
  | .writePkt a _ => decide (a < 2 ^ s.cfg.lenW) && (!s.busy || decide (s.len ≤ a))
  | .setLen n => decide (n ≤ s.cfg.lenMax)
  | .setStart _ => true
  | .setRst b => !b
  | .setXidx i => decide (i < 2 ^ s.cfg.xcntW)
  | .read p => (s.port p).isSome

/-- The agent that moves keeps its duty: the block has none. -/
def Turn.allowed (s : State) : Turn → Bool
  | .block => true
  | .host a => a.allowed s

/-- Every turn of `ts`, taken from `s` on, keeps its duty until the run is over: after a step that leaves the block no
longer busy nothing is asked. -/
def dutiesThrough : List Turn → State → Bool
  | [], _ => true
  | a :: ts, s =>
    a.allowed s &&
      match step s with
      | .next t => !t.busy || dutiesThrough ts t
      | .fault _ | .refused _ => true

/-- P3 and P4 of R203: until the end of the run the host keeps its duties (R195, R197) and asserts no reset. Whatever else
R205 lets it do it may do: write at and above LEN, drive `len_i`, `start` and `xidx`, read the ports. -/
abbrev State.dutiesKept (s : State) : Prop := dutiesThrough s.turns s = true

/-- The launch premises of a run on the packet `bs` (R203): P1, with the START turn next; P2; P3 and P4. P5, the
parameters, are `s.cfg`, which a claim names. -/
abbrev State.launch (s : State) (bs : List Byte) : Prop :=
  s.rst = false ∧ (s.st = .idle ∨ s.st = .done) ∧ s.start = true ∧ s.blockMoves ∧
  s.lenI = bs.length ∧ bs.length ≤ s.cfg.lenMax ∧ (∀ i, i < bs.length → s.byte i = bs.getD i 0) ∧ s.dutiesKept

/-- The operation the block takes on its turn, if any. -/
def selected (s : State) : Option Instr :=
  if s.rst = true then none
  else
    match fetch s with
    | .ok u => (decode s.sel u).toOption
    | .error _ => none

/-- The operation of the next step, by its mnemonic: none on a turn of the host and on a turn the block waits. -/
def State.nextOperation (s : State) : List String :=
  match s.turns with
  | .host _ :: _ => []
  | [] | .block :: _ => ((selected s).map Instr.mnemonic).toList

/-- The mnemonics of the operations of the first k steps (R87). -/
def traceOf : Nat → State → List String
  | 0, _ => []
  | k + 1, s =>
    match step s with
    | .next t => s.nextOperation ++ traceOf k t
    | .fault _ | .refused _ => []

/-- How many of the first k steps are the host's. -/
def State.hostTurns (s : State) (k : Nat) : Nat :=
  (s.turns.take k).countP fun
    | .host _ => true
    | .block => false

end Sys2Proof.Machine
end

