-- ==== Sys2Proof/Certificates/Slice0/Obligations.lean ====
section
/-! DEFINITION. The statements about the block, one `def Obligations.<Name> : Prop` each. Premises are the "Enabled
when" of the rule, `rst` not asserted (70_reset_and_hazards.md R190), and, where a statement could fail only in states no
run reaches, the invariant `State.Inv`, itself stated to hold at reset and to be kept by every step. -/

open Sys2Proof Sys2Proof.Machine

/-! ### One operation: when it is enabled, everything it does, nothing else -/

/-- 45_assembler.md R150. In IDLE or DONE with `start` raised, START latches `len_i`, clears cursor, table, flags and MAC
bits, puts ⊥ in every result register and goes to HDR; it runs in no other state, whatever `start` is. `intact` is the
model's own field (log 18): the packet of the run is the buffer as it is now. -/
def Obligations.StartBeginsRun : Prop :=
  (∀ s : State, s.rst = false → (s.st = .idle ∨ s.st = .done) → s.start = true →
    exec .start s = .next
      { s with
        len := s.lenI, pos := 0, xtab := [], xcnt := 0, ok := false, err := .none, xle := false,
        macP := false, macKv := false, macKey := none, macOff := none, macDlen := none,
        li := none, vn := none, mode := none, stratum := none, poll := none, prec := none,
        rdelay := none, rdisp := none, refid := none, refts := none, orgts := none, rects := none,
        xmtts := none, intact := true, st := .hdr }) ∧
  (∀ s t : State, exec .start s = .next t →
    s.rst = false ∧ (s.st = .idle ∨ s.st = .done) ∧ s.start = true)

/-- 41_header_parser.md R110. H.TRUNC raises Truncated and changes nothing else; it reads no byte of PKT; in a run the
registers are then as START left them. -/
def Obligations.HeaderTooShortRaisesTruncated : Prop :=
  (∀ s : State, s.rst = false → s.st = .hdr → s.len < 48 →
    exec .hTrunc s = .next { s with err := .truncated, ok := false, st := .done }) ∧
  (∀ (s : State) (m : Memory), s.rst = false → s.st = .hdr → s.len < 48 →
    exec .hTrunc { s with pkt := m } =
      .next { s with pkt := m, err := .truncated, ok := false, st := .done }) ∧
  (∀ s t : State, exec .hTrunc s = .next t → s.rst = false ∧ s.st = .hdr ∧ s.len < 48) ∧
  (∀ s t : State, s.Inv → exec .hTrunc s = .next t →
    t.headerAbsent ∧ t.macAbsent ∧ t.xtab = [] ∧ t.xcnt = 0 ∧ t.pos = 0 ∧ t.xle = false ∧ t.result = none)

/-- 41_header_parser.md R111. H.LOAD writes each of the thirteen registers from its bytes, big-endian, POS and ST. -/
def Obligations.HeaderLoadWritesThirteenRegisters : Prop :=
  (∀ s : State, s.rst = false → s.st = .hdr → 48 ≤ s.len →
    exec .hLoad s = .next
      { s with
        li := some ((s.byte 0).extractLsb' 6 2), vn := some ((s.byte 0).extractLsb' 3 3),
        mode := some ((s.byte 0).extractLsb' 0 3),
        stratum := some (s.byte 1), poll := some (s.byte 2), prec := some (s.byte 3),
        rdelay := some (s.byte 4 ++ s.byte 5 ++ s.byte 6 ++ s.byte 7),
        rdisp := some (s.byte 8 ++ s.byte 9 ++ s.byte 10 ++ s.byte 11),
        refid := some (s.byte 12 ++ s.byte 13 ++ s.byte 14 ++ s.byte 15),
        refts := some { sec := s.byte 16 ++ s.byte 17 ++ s.byte 18 ++ s.byte 19,
                        frac := s.byte 20 ++ s.byte 21 ++ s.byte 22 ++ s.byte 23 },
        orgts := some { sec := s.byte 24 ++ s.byte 25 ++ s.byte 26 ++ s.byte 27,
                        frac := s.byte 28 ++ s.byte 29 ++ s.byte 30 ++ s.byte 31 },
        rects := some { sec := s.byte 32 ++ s.byte 33 ++ s.byte 34 ++ s.byte 35,
                        frac := s.byte 36 ++ s.byte 37 ++ s.byte 38 ++ s.byte 39 },
        xmtts := some { sec := s.byte 40 ++ s.byte 41 ++ s.byte 42 ++ s.byte 43,
                        frac := s.byte 44 ++ s.byte 45 ++ s.byte 46 ++ s.byte 47 },
        pos := 48, st := .disp }) ∧
  (∀ s t : State, exec .hLoad s = .next t → s.rst = false ∧ s.st = .hdr ∧ 48 ≤ s.len)

/-- 41_header_parser.md R112. What H.LOAD writes is a bijective image of PKT[0..47]: the registers give the 48 bytes back
(byte 0 as 64·LI + 8·VN + MODE, the rest big-endian), and the bytes of any header load as that header, so that MODE keeps
any 3-bit value. -/
def Obligations.HeaderRegistersGiveBytesBack : Prop :=
  (∀ s : State, s.rst = false → s.st = .hdr → 48 ≤ s.len →
    ∃ (t : State) (h : Header), exec .hLoad s = .next t ∧ t.holdsHeader h ∧
      (List.range 48).map s.byte = h.bytes) ∧
  (∀ (s : State) (h : Header), s.rst = false → s.st = .hdr → 48 ≤ s.len →
    (List.range 48).map s.byte = h.bytes →
    ∃ t : State, exec .hLoad s = .next t ∧ t.holdsHeader h)

/-- 42_version_dispatch.md R120. Version 4 goes to the extension loop, whatever LEN, MODE, LI and the rest are. -/
def Obligations.Version4SearchesExtensions : Prop :=
  (∀ s : State, s.rst = false → s.st = .disp → s.vn = some 4 →
    exec .dV4 s = .next { s with st := .ext }) ∧
  (∀ s t : State, exec .dV4 s = .next t → s.rst = false ∧ s.st = .disp ∧ s.vn = some 4)

/-- 42_version_dispatch.md R121. Versions 0 to 3 go to the MAC validator; in a run the table is then empty and all
LEN − 48 trailer bytes are the MAC region. -/
def Obligations.LegacyVersionsTakeTrailerAsMac : Prop :=
  (∀ p ∈ [(Instr.dLegacy0, (0 : BitVec 3)), (Instr.dLegacy1, 1), (Instr.dLegacy2, 2), (Instr.dLegacy3, 3)],
    (∀ s : State, s.rst = false → s.st = .disp → s.vn = some p.2 →
      exec p.1 s = .next { s with st := .mac }) ∧
    (∀ s t : State, exec p.1 s = .next t → s.rst = false ∧ s.st = .disp ∧ s.vn = some p.2)) ∧
  (∀ s : State, s.Inv → s.st = .disp → s.xtab = [] ∧ s.xcnt = 0 ∧ s.rem = (s.len : Int) - 48)

/-- 42_version_dispatch.md R122. Versions 5 to 7 go to the MAC validator under MAC_ONLY and to the final check under
TRAILING_DATA; with LEN = 48 either way ends in success with no extension and no MAC. -/
def Obligations.HighVersionsFollowPolicy : Prop :=
  (∀ p ∈ [(Instr.dHigh5, (5 : BitVec 3)), (Instr.dHigh6, 6), (Instr.dHigh7, 7)],
    (∀ s : State, s.rst = false → s.st = .disp → s.vn = some p.2 → s.cfg.vother = .macOnly →
      exec p.1 s = .next { s with st := .mac }) ∧
    (∀ s : State, s.rst = false → s.st = .disp → s.vn = some p.2 → s.cfg.vother = .trailingData →
      exec p.1 s = .next { s with st := .chk }) ∧
    (∀ s t : State, exec p.1 s = .next t → s.rst = false ∧ s.st = .disp ∧ s.vn = some p.2)) ∧
  (∀ s : State, s.Inv → s.rst = false → s.dutiesKept → s.st = .disp → s.versionHigh → s.len = 48 →
    ∃ k t, core.run k s = .next t ∧ t.st = .done ∧ (traceOf k s).length ≤ 3 ∧
      t.ok = true ∧ t.xtab = [] ∧ t.macP = false)

/-- 43_extension_fsm.md R132. Fewer than four bytes left: to the MAC validator, nothing else written, no byte read. -/
def Obligations.StubEndsExtensionLoop : Prop :=
  (∀ s : State, s.rst = false → s.st = .ext → s.rem < 4 →
    exec .xStop s = .next { s with st := .mac }) ∧
  (∀ (s : State) (m : Memory), s.rst = false → s.st = .ext → s.rem < 4 →
    exec .xStop { s with pkt := m } = .next { s with pkt := m, st := .mac }) ∧
  (∀ s t : State, exec .xStop s = .next t → s.rst = false ∧ s.st = .ext ∧ s.rem < 4)

/-- 43_extension_fsm.md R133. An invalid length L = PKT[POS+2..POS+3] sets XLE and goes to the MAC validator without
moving POS, on whichever of the five rows L falls; X.FALL runs on no valid length. -/
def Obligations.InvalidLengthFallsBackToMac : Prop :=
  (∀ (s : State) (l : BitVec 16), s.rst = false → s.st = .ext → 4 ≤ s.rem →
    l = s.byte (s.pos + 2) ++ s.byte (s.pos + 3) →
    (l.toNat % 4 = 1 → exec (.xFallMod1 l) s = .next { s with xle := true, st := .mac }) ∧
    (l.toNat % 4 = 2 → exec (.xFallMod2 l) s = .next { s with xle := true, st := .mac }) ∧
    (l.toNat % 4 = 3 → exec (.xFallMod3 l) s = .next { s with xle := true, st := .mac }) ∧
    (l = 0 → exec .xFallZero s = .next { s with xle := true, st := .mac }) ∧
    (l.toNat % 4 = 0 → l ≠ 0 → s.rem < (l.toNat : Int) →
      exec (.xFallOver l) s = .next { s with xle := true, st := .mac })) ∧
  (∀ (i : Instr) (s t : State), i.mnemonic = "X.FALL" → exec i s = .next t →
    s.rst = false ∧ s.st = .ext ∧ 4 ≤ s.rem ∧
    ∃ l : BitVec 16, l = s.byte (s.pos + 2) ++ s.byte (s.pos + 3) ∧
      (l.toNat < 4 ∨ l.toNat % 4 ≠ 0 ∨ s.rem < (l.toNat : Int)))

/-- 43_extension_fsm.md R134. A valid length: one record (T, L, POS) appended, XCNT one more, POS advanced by L to at most
LEN, the loop goes on; X.TAKE runs on no invalid length; the record stands for the field T, L with the L − 4 bytes
after its header as payload, under the premise of 20_memory.md R58 that the host has left the packet as it was. -/
def Obligations.ValidFieldIsTaken : Prop :=
  (∀ (s : State) (ty l : BitVec 16), s.rst = false → s.st = .ext →
    ty = s.byte s.pos ++ s.byte (s.pos + 1) →
    l = s.byte (s.pos + 2) ++ s.byte (s.pos + 3) →
    4 ≤ l.toNat → (l.toNat : Int) ≤ s.rem → l.toNat % 4 = 0 →
    exec (.xTake ty l) s = .next
      { s with
        xtab := s.xtab ++ [{ xtype := ty, xlen := l, xoff := s.pos }],
        xcnt := s.xcnt + 1, pos := s.pos + l.toNat, st := .ext } ∧
    s.pos + l.toNat ≤ s.len) ∧
  (∀ (s t : State) (ty l : BitVec 16), exec (.xTake ty l) s = .next t →
    s.rst = false ∧ s.st = .ext ∧ 4 ≤ s.rem ∧
    ty = s.byte s.pos ++ s.byte (s.pos + 1) ∧
    l = s.byte (s.pos + 2) ++ s.byte (s.pos + 3) ∧
    4 ≤ l.toNat ∧ l.toNat % 4 = 0 ∧ (l.toNat : Int) ≤ s.rem ∧
    (s.intact = true → t.fieldOf { xtype := ty, xlen := l, xoff := s.pos } =
      some { fieldType := ty, length := l,
             payload := (List.range (l.toNat - 4)).map fun i => s.byte (s.pos + 4 + i) }))

/-- 44_mac_validator.md R140. Nothing remains: no MAC, and in a run the other MAC registers are still ⊥. -/
def Obligations.EmptyRemainderIsNoMac : Prop :=
  (∀ s : State, s.rst = false → s.st = .mac → s.rem = 0 →
    exec .mNone s = .next { s with macP := false, macKv := false, st := .chk }) ∧
  (∀ s t : State, exec .mNone s = .next t → s.rst = false ∧ s.st = .mac ∧ s.rem = 0 ∧ t.macValue = some none) ∧
  (∀ s t : State, s.Inv → exec .mNone s = .next t → t.macAbsent)

/-- 44_mac_validator.md R141. One to three bytes remain: a MAC without key identifier under ACCEPT_NO_KEY, its digest all
that remains (the MAC value under the premise of 20_memory.md R58, the packet is as it was); the failure Truncated under
TRUNCATED; no byte is read. -/
def Obligations.ShortRemainderFollowsPolicy : Prop :=
  (∀ (s : State) (m : Memory), s.rst = false → s.st = .mac → 0 < s.rem → s.rem < 4 →
    s.cfg.shortMac = .acceptNoKey →
    exec .mShort { s with pkt := m } = .next
      { s with
        pkt := m, macP := true, macKv := false, macKey := some 0, macOff := some s.pos,
        macDlen := some (s.len - s.pos), pos := s.len, st := .chk } ∧
    ((s.len - s.pos : Nat) : Int) = s.rem) ∧
  (∀ (s : State) (m : Memory), s.rst = false → s.st = .mac → 0 < s.rem → s.rem < 4 →
    s.cfg.shortMac = .truncated →
    exec .mShort { s with pkt := m } =
      .next { s with pkt := m, err := .truncated, ok := false, st := .done }) ∧
  (∀ s t : State, exec .mShort s = .next t →
    s.rst = false ∧ s.st = .mac ∧ (s.rem = 1 ∨ s.rem = 2 ∨ s.rem = 3) ∧
    (s.intact = true → s.cfg.shortMac = .acceptNoKey →
      t.macValue = some (some
        { keyId := none,
          digest := (List.range (s.len - s.pos)).map fun i => s.byte (s.pos + i) })))

/-- 44_mac_validator.md R142. Exactly four bytes remain: a key identifier with an empty digest at LEN. -/
def Obligations.FourBytesAreKeyWithEmptyDigest : Prop :=
  (∀ s : State, s.rst = false → s.st = .mac → s.rem = 4 →
    exec .mKey s = .next
      { s with
        macP := true, macKv := true,
        macKey := some (s.byte s.pos ++ s.byte (s.pos + 1) ++ s.byte (s.pos + 2)
          ++ s.byte (s.pos + 3)),
        macOff := some s.len, macDlen := some 0, pos := s.len, st := .chk } ∧
    s.len = s.pos + 4) ∧
  (∀ s t : State, exec .mKey s = .next t → s.rst = false ∧ s.st = .mac ∧ s.rem = 4 ∧
    t.macValue = some (some
      { keyId := some (s.byte s.pos ++ s.byte (s.pos + 1) ++ s.byte (s.pos + 2)
          ++ s.byte (s.pos + 3)), digest := [] }))

/-- 44_mac_validator.md R143. More than four bytes remain: a key identifier and a digest of all the rest, any length (the
MAC value under the premise of 20_memory.md R58, the packet is as it was). -/
def Obligations.LongRemainderIsKeyAndDigest : Prop :=
  (∀ s : State, s.rst = false → s.st = .mac → 4 < s.rem →
    exec .mFull s = .next
      { s with
        macP := true, macKv := true,
        macKey := some (s.byte s.pos ++ s.byte (s.pos + 1) ++ s.byte (s.pos + 2)
          ++ s.byte (s.pos + 3)),
        macOff := some (s.pos + 4), macDlen := some (s.len - s.pos - 4), pos := s.len, st := .chk } ∧
    s.pos + 4 < s.len ∧ ((s.len - s.pos - 4 : Nat) : Int) = s.rem - 4) ∧
  (∀ s t : State, exec .mFull s = .next t → s.rst = false ∧ s.st = .mac ∧ 4 < s.rem ∧
    (s.intact = true → t.macValue = some (some
      { keyId := some (s.byte s.pos ++ s.byte (s.pos + 1) ++ s.byte (s.pos + 2)
          ++ s.byte (s.pos + 3)),
        digest := (List.range (s.len - s.pos - 4)).map fun i => s.byte (s.pos + 4 + i) })))

/-- 45_assembler.md R151. Everything consumed: OK, ERR and XLE kept; in a run ERR is then NONE and the result is
defined. -/
def Obligations.FullConsumptionSetsOk : Prop :=
  (∀ s : State, s.rst = false → s.st = .chk → s.pos = s.len →
    exec .cOk s = .next { s with ok := true, st := .done }) ∧
  (∀ s t : State, exec .cOk s = .next t → s.rst = false ∧ s.st = .chk ∧ s.pos = s.len) ∧
  (∀ s t : State, s.Inv → exec .cOk s = .next t → t.err = .none ∧ t.isDone = true ∧ ∃ p, t.result = some p)

/-- 45_assembler.md R152. Bytes left over: TrailingData; POS is then below LEN in every reachable state. -/
def Obligations.LeftoverBytesRaiseTrailingData : Prop :=
  (∀ s : State, s.rst = false → s.st = .chk → s.pos ≠ s.len →
    exec .cTrail s = .next { s with err := .trailingData, ok := false, st := .done }) ∧
  (∀ s t : State, exec .cTrail s = .next t →
    s.rst = false ∧ s.st = .chk ∧ s.pos ≠ s.len ∧ t.result = none) ∧
  (∀ s : State, s.Inv → s.st = .chk → s.pos ≠ s.len → s.pos < s.len)

/-! ### Turns of the block and of the host -/

/-- 00_scope.md R6, R7, 30_encoding.md R84, 70_reset_and_hazards.md R205: a step is a move of the agent whose turn it is. On
the block's turn, with `rst` not asserted, it is `exec` of the operation the decoder selects from the fetched unit; on the
host's turn it is that act of the host; either on the state with that turn taken off the list, and with nothing else
changed before it. That the agents move by a list of turns is the model's choice (log 4). -/
def Obligations.StepRunsSelectedOperation : Prop :=
  (∀ (s : State) (u : List Byte) (i : Instr), s.blockMoves → s.rst = false →
    fetch s.afterTurn = .ok u → decode s.afterTurn.sel u = .ok i → step s = exec i s.afterTurn) ∧
  (∀ (s : State) (a : HostAct), s.turns.head? = some (.host a) → step s = hostTurn a s.afterTurn) ∧
  (∀ s : State, s.afterTurn = { s with turns := s.turns.tail })

/-- 70_reset_and_hazards.md R196, 10_state.md R41: in IDLE and DONE without `start` the block waits and no register changes. -/
def Obligations.BlockWaitsWithoutStart : Prop :=
  ∀ s : State, s.blockMoves → s.rst = false → (s.st = .idle ∨ s.st = .done) → s.start = false →
    step s = .next s.afterTurn

/-- 70_reset_and_hazards.md R190, R191: asserting `rst`, and every turn of the block while it is asserted, puts the block
from any state into the reset state of 10_state.md R44; the buffer, the other pins and the parameters are not touched; no
operation is enabled. That the host's act itself resets, and not the next clock, is the model's choice (log 8); `intact` is
the model's own field (log 18). -/
def Obligations.ResetFromAnyState : Prop :=
  (∀ s : State, hostTurn (.setRst true) s = .next
    { st := .idle, pos := 0, len := 0, li := none, vn := none, mode := none, stratum := none,
      poll := none, prec := none, rdelay := none, rdisp := none, refid := none, refts := none,
      orgts := none, rects := none, xmtts := none, xtab := [], xcnt := 0, macP := false,
      macKv := false, macKey := none, macOff := none, macDlen := none, ok := false, err := .none,
      xle := false, rst := true, start := s.start, lenI := s.lenI, xidx := s.xidx, pkt := s.pkt,
      intact := true, cfg := s.cfg, turns := s.turns }) ∧
  (∀ s : State, s.blockMoves → s.rst = true → step s = .next
    { st := .idle, pos := 0, len := 0, li := none, vn := none, mode := none, stratum := none,
      poll := none, prec := none, rdelay := none, rdisp := none, refid := none, refts := none,
      orgts := none, rects := none, xmtts := none, xtab := [], xcnt := 0, macP := false,
      macKv := false, macKey := none, macOff := none, macDlen := none, ok := false, err := .none,
      xle := false, rst := true, start := s.start, lenI := s.lenI, xidx := s.xidx, pkt := s.pkt,
      intact := true, cfg := s.cfg, turns := s.turns.tail }) ∧
  (∀ (i : Instr) (s t : State), s.rst = true → exec i s ≠ .next t)

/-- 10_state.md R44: the registers of the block right after reset, and `busy = 0`, `done = 0`. -/
def Obligations.ResetRegisterValues : Prop :=
  State.reset.st = .idle ∧ State.reset.busy = false ∧ State.reset.isDone = false ∧
  State.reset.pos = 0 ∧ State.reset.len = 0 ∧ State.reset.ok = false ∧ State.reset.err = .none ∧
  State.reset.xle = false ∧ State.reset.xcnt = 0 ∧ State.reset.xtab = [] ∧
  State.reset.macP = false ∧ State.reset.macKv = false ∧ State.reset.macKey = none ∧
  State.reset.macOff = none ∧ State.reset.macDlen = none ∧ State.reset.headerAbsent

/-- 20_memory.md R58, 93 U6, 70_reset_and_hazards.md R205: a host write below LEN while busy is refused; every other host
write to an address PKT has changes that one byte and nothing else of the machine, and the model's field `intact` (log 18)
says from then on whether a byte below LEN has changed since START; the pins take the value driven; a read changes nothing
and is refused exactly where the port holds ⊥; an address or a value wider than the port stops by name (log 3). -/
def Obligations.HostActsHaveTheirOwnEffect : Prop :=
  (∀ (s : State) (a : Nat) (b : Byte), a < 2 ^ s.cfg.lenW → s.busy = true → a < s.len →
    hostTurn (.writePkt a b) s = .refused .bufferChanged) ∧
  (∀ (s : State) (a : Nat) (b : Byte), Memory.wf s.pkt → a < 2 ^ s.cfg.lenW → (s.busy = false ∨ s.len ≤ a) →
    ∃ t, hostTurn (.writePkt a b) s = .next t ∧ t = { s with pkt := t.pkt, intact := t.intact } ∧
      (t.intact = true ↔ s.intact = true ∧ (s.len ≤ a ∨ s.byte a = b)) ∧
      t.byte a = b ∧ ∀ k, k ≠ a → t.byte k = s.byte k) ∧
  (∀ (s : State) (a : Nat) (b : Byte), 2 ^ s.cfg.lenW ≤ a → hostTurn (.writePkt a b) s = .fault .noSuchAddress) ∧
  (∀ (s : State) (n : Nat),
    (n ≤ s.cfg.lenMax → hostTurn (.setLen n) s = .next { s with lenI := n }) ∧
    (s.cfg.lenMax < n → hostTurn (.setLen n) s = .refused .portWidth)) ∧
  (∀ (s : State) (b : Bool), hostTurn (.setStart b) s = .next { s with start := b }) ∧
  (∀ (s : State), hostTurn (.setRst false) s = .next { s with rst := false }) ∧
  (∀ (s : State) (i : Nat),
    (i < 2 ^ s.cfg.xcntW → hostTurn (.setXidx i) s = .next { s with xidx := i }) ∧
    (2 ^ s.cfg.xcntW ≤ i → hostTurn (.setXidx i) s = .refused .portWidth)) ∧
  (∀ (s : State) (p : OutPort), s.port p ≠ none → hostTurn (.read p) s = .next s) ∧
  (∀ (s : State) (p : OutPort), s.port p = none → hostTurn (.read p) s = .refused .undefinedRead)

/-- 10_state.md R21, R24, R41, R43: `busy` and `done` show the state at all times; the flags are valid exactly while
`done = 1`; no result port shows a value unless `done = 1` and OK = 1; where it is so, every result port shows its
register, a timestamp as SEC in bits 63:32 and FRAC in bits 31:0, the thirteen header ports holding a value, and the
record ports show XTAB[xidx] or, for xidx ≥ XCNT, ⊥. -/
def Obligations.PortsShowResultOnlyWhenValid : Prop :=
  (∀ s : State,
    s.port .busy = some (if s.st = .hdr ∨ s.st = .disp ∨ s.st = .ext ∨ s.st = .mac ∨ s.st = .chk then 1 else 0) ∧
    s.port .done = some (if s.st = .done then 1 else 0)) ∧
  (∀ s : State, s.st = .done →
    s.port .ok = some s.ok.toNat ∧ s.port .err = some s.err.code.toNat ∧ s.port .xle = some s.xle.toNat) ∧
  (∀ s : State, s.st ≠ .done → s.port .ok = none ∧ s.port .err = none ∧ s.port .xle = none) ∧
  (∀ (s : State) (p : OutPort), p ∉ [OutPort.busy, .done, .ok, .err, .xle] →
    s.st ≠ .done ∨ s.ok = false → s.port p = none) ∧
  (∀ s : State, s.st = .done → s.ok = true →
    s.port .li = s.li.map (·.toNat) ∧ s.port .vn = s.vn.map (·.toNat) ∧
    s.port .mode = s.mode.map (·.toNat) ∧ s.port .stratum = s.stratum.map (·.toNat) ∧
    s.port .poll = s.poll.map (·.toNat) ∧ s.port .prec = s.prec.map (·.toNat) ∧
    s.port .rdelay = s.rdelay.map (·.toNat) ∧ s.port .rdisp = s.rdisp.map (·.toNat) ∧
    s.port .refid = s.refid.map (·.toNat) ∧
    s.port .refts = s.refts.map (fun t => 2 ^ 32 * t.sec.toNat + t.frac.toNat) ∧
    s.port .orgts = s.orgts.map (fun t => 2 ^ 32 * t.sec.toNat + t.frac.toNat) ∧
    s.port .rects = s.rects.map (fun t => 2 ^ 32 * t.sec.toNat + t.frac.toNat) ∧
    s.port .xmtts = s.xmtts.map (fun t => 2 ^ 32 * t.sec.toNat + t.frac.toNat) ∧
    s.port .xcnt = some s.xcnt ∧ s.port .macP = some s.macP.toNat ∧ s.port .macKv = some s.macKv.toNat ∧
    s.port .macKey = s.macKey.map (·.toNat) ∧ s.port .macOff = s.macOff ∧ s.port .macDlen = s.macDlen) ∧
  (∀ s : State, s.Inv → s.st = .done → s.ok = true →
    ∀ p ∈ [OutPort.li, .vn, .mode, .stratum, .poll, .prec, .rdelay, .rdisp, .refid, .refts, .orgts, .rects, .xmtts],
      s.port p ≠ none) ∧
  (∀ s : State, s.xcnt ≤ s.xidx → s.port .xrecType = none ∧ s.port .xrecLen = none ∧ s.port .xrecOff = none) ∧
  (∀ s : State, s.Inv → s.st = .done → s.ok = true → s.xidx < s.xcnt →
    ∃ r, s.xtab[s.xidx]? = some r ∧
      s.port .xrecType = some r.xtype.toNat ∧ s.port .xrecLen = some r.xlen.toNat ∧
      s.port .xrecOff = some r.xoff)

/-! ### Selection and encoding -/

/-- 30_encoding.md R85, and the words written out in 95_test_vectors.md: byte 0x24 is a version-4 header byte, 0x1B
version 3, 0xFF version 7; `01 04 00 1C` with 28 bytes left is a field of type 0x0104; with 27 left it is rejected;
`00 00 00 01`, `00 02 00 06` and `00 00 00 00` are rejected. -/
def Obligations.WordsOfTheSpecDecode : Prop :=
  decode ⟨.disp, false, 48, 48⟩ [0x24] = .ok .dV4 ∧
  decode ⟨.disp, false, 48, 48⟩ [0x1B] = .ok .dLegacy3 ∧
  decode ⟨.disp, false, 48, 48⟩ [0xFF] = .ok .dHigh7 ∧
  decode ⟨.ext, false, 76, 48⟩ [0x01, 0x04, 0x00, 0x1C] = .ok (.xTake 0x0104 28) ∧
  decode ⟨.ext, false, 75, 48⟩ [0x01, 0x04, 0x00, 0x1C] = .ok (.xFallOver 28) ∧
  decode ⟨.ext, false, 68, 48⟩ [0x00, 0x00, 0x00, 0x01] = .ok (.xFallMod1 1) ∧
  decode ⟨.ext, false, 56, 48⟩ [0x00, 0x02, 0x00, 0x06] = .ok (.xFallMod2 6) ∧
  decode ⟨.ext, false, 52, 48⟩ [0x00, 0x00, 0x00, 0x00] = .ok .xFallZero

/-- Decode and encode agree: for every well-formed operation, every operand its row admits, and every state of the
selection inputs that admits the row, decoding the encoding gives the operation back. -/
def Obligations.DecodeInvertsEncode : Prop :=
  ∀ (c : Sel) (i : Instr), i.wellFormed = true → c.admits i = true → decode c (encode i) = .ok i

/-- 30_encoding.md R84, R85: whatever the selection inputs and the bytes, an operation the decoder selects is well-formed,
the inputs are its row's state and condition, and the unit has the row's match bits under its mask; X.TAKE keeps every
bit of the word. -/
def Obligations.SelectionFollowsTheTable : Prop :=
  (∀ (c : Sel) (u : List Byte) (i : Instr), decode c u = .ok i →
    i.wellFormed = true ∧ c.admits i = true ∧ (i.mask ≠ 0 → unitNat u &&& i.mask = i.pattern)) ∧
  (∀ (c : Sel) (u : List Byte) (t l : BitVec 16), decode c u = .ok (.xTake t l) → encode (.xTake t l) = u)

/-- 30_encoding.md R86: in each busy state exactly one operation is enabled; in IDLE and DONE none is until the host raises
`start`. -/
def Obligations.ExactlyOneOperationEnabled : Prop :=
  (∀ s : State, s.Inv → s.rst = false → s.busy = true →
    ∃ i, (∃ t, exec i s = .next t) ∧ ∀ j, (∃ t, exec j s = .next t) → j = i) ∧
  (∀ (i : Instr) (s t : State), s.st = .idle ∨ s.st = .done → s.start = false → exec i s ≠ .next t)

/-- The table word the host places is the operation the decoder reads from it, and the very next step runs that. -/
def Obligations.PlacedTableWordRuns : Prop :=
  ∀ (s : State) (nbits w : Nat), Memory.wf s.pkt → ∃ i, decodeTableWord nbits w = some i ∧
    step (s.withFetchWord nbits w) = exec i (s.withFetchWord nbits w) ∧
    ∃ t, step (s.withFetchWord nbits w) = .next t

/-! ### What every operation keeps -/

/-- Which operations write which register: LEN only START (10_state.md R23); POS only START, H.LOAD, X.TAKE, M.SHORT,
M.KEY, M.FULL (R22); the header registers only START and H.LOAD (R26); XTAB and XCNT only START and X.TAKE (R33, R34);
the MAC registers only START and the four M operations (R36); XLE only START and X.FALL; ERR and OK only START and the
operations that end a run (R38). `intact`, the model's own field (log 18), is written by START
alone among them. -/
def Obligations.OnlyListedOperationsWriteARegister : Prop :=
  ∀ (i : Instr) (s t : State), exec i s = .next t → i ≠ .start →
    t.len = s.len ∧ t.intact = s.intact ∧
    (i.mnemonic ∉ ["H.LOAD", "X.TAKE", "M.SHORT", "M.KEY", "M.FULL"] → t.pos = s.pos) ∧
    (i.mnemonic ≠ "H.LOAD" →
      t.li = s.li ∧ t.vn = s.vn ∧ t.mode = s.mode ∧ t.stratum = s.stratum ∧ t.poll = s.poll ∧
      t.prec = s.prec ∧ t.rdelay = s.rdelay ∧ t.rdisp = s.rdisp ∧ t.refid = s.refid ∧
      t.refts = s.refts ∧ t.orgts = s.orgts ∧ t.rects = s.rects ∧ t.xmtts = s.xmtts) ∧
    (i.mnemonic ≠ "X.TAKE" → t.xtab = s.xtab ∧ t.xcnt = s.xcnt) ∧
    (i.mnemonic ∉ ["M.NONE", "M.SHORT", "M.KEY", "M.FULL"] →
      t.macP = s.macP ∧ t.macKv = s.macKv ∧ t.macKey = s.macKey ∧ t.macOff = s.macOff ∧
      t.macDlen = s.macDlen) ∧
    (i.mnemonic ≠ "X.FALL" → t.xle = s.xle) ∧
    (i.mnemonic ∉ ["H.TRUNC", "M.SHORT", "C.OK", "C.TRAIL"] → t.ok = s.ok ∧ t.err = s.err)

/-- 20_memory.md R51: the block never writes PKT, byte for byte; nor do its operations change a pin, a parameter or the
turns. -/
def Obligations.OperationsLeaveBufferAndPins : Prop :=
  ∀ (i : Instr) (s t : State), exec i s = .next t →
    (∀ a, t.byte a = s.byte a) ∧ t.pkt = s.pkt ∧ t.rst = s.rst ∧ t.start = s.start ∧
    t.lenI = s.lenI ∧ t.xidx = s.xidx ∧ t.cfg = s.cfg ∧ t.turns = s.turns

/-- 60_exceptions.md R176, 70_reset_and_hazards.md R202: the only operations that end a run are C.OK, H.TRUNC, M.SHORT (under
TRUNCATED) and C.TRAIL, and a failure writes the code, OK and ST and nothing else. -/
def Obligations.RunEndsOnlyByCheckOrRaise : Prop :=
  (∀ (i : Instr) (s t : State), exec i s = .next t → t.st = .done →
    (i = .cOk ∧ t = { s with ok := true, st := .done }) ∨
    ((i = .hTrunc ∨ (i = .mShort ∧ s.cfg.shortMac = .truncated)) ∧
      t = { s with err := .truncated, ok := false, st := .done }) ∨
    (i = .cTrail ∧ t = { s with err := .trailingData, ok := false, st := .done })) ∧
  ErrCode.truncated.code = 1 ∧ ErrCode.trailingData.code = 2

/-- 10_state.md R38, R26: control depends on ST, POS, LEN, VN, `rst`, `start`, `len_i`, PKT and the parameters alone: OK,
ERR, XLE, the other header registers, XTAB, the MAC registers and the rest steer nothing. -/
def Obligations.OtherRegistersSteerNothing : Prop :=
  ∀ (i : Instr) (s s' t : State), s'.st = s.st → s'.pos = s.pos → s'.len = s.len → s'.vn = s.vn →
    s'.rst = s.rst → s'.start = s.start → s'.lenI = s.lenI → s'.pkt = s.pkt → s'.cfg = s.cfg →
    exec i s = .next t →
    ∃ t', exec i s' = .next t' ∧ t'.st = t.st ∧ t'.pos = t.pos ∧ t'.len = t.len ∧ t'.vn = t.vn

/-- 20_memory.md R52, R59: an operation's effect depends only on bytes below LEN, and among them only on PKT[0..47] in HDR
and on the four bytes at POS in EXT and MAC: never on an extension payload or a digest byte. -/
def Obligations.OnlySteeringBytesAreRead : Prop :=
  ∀ (i : Instr) (s t : State) (m : Memory),
    (∀ a, a < s.len →
      (s.st = .hdr ∧ a < 48) ∨
        ((s.st = .ext ∨ s.st = .mac) ∧ s.pos ≤ a ∧ a < s.pos + 4) →
      Memory.read m a = Memory.read s.pkt a) →
    exec i s = .next t → exec i { s with pkt := m } = .next { t with pkt := m }

/-- 45_assembler.md R150, 60_exceptions.md R178: nothing of the previous run, its error included, survives START. -/
def Obligations.NothingSurvivesStart : Prop :=
  ∀ s s' : State, s.rst = false → s'.rst = false → (s.st = .idle ∨ s.st = .done) →
    (s'.st = .idle ∨ s'.st = .done) → s.start = true → s'.start = true → s'.lenI = s.lenI →
    s'.xidx = s.xidx → s'.pkt = s.pkt → s'.cfg = s.cfg → s'.turns = s.turns →
    ∃ t, exec .start s = .next t ∧ exec .start s' = .next t

/-- 70_reset_and_hazards.md R198, R197: while the block is busy, `start`, `len_i` and `xidx` are not seen: a step with
other values on them does the same. -/
def Obligations.PinsNotSampledWhileBusy : Prop :=
  ∀ (s t : State) (b : Bool) (n x : Nat), s.busy = true → blockTurn s = .next t →
    s.rst = false →
    blockTurn { s with start := b, lenI := n, xidx := x } = .next { t with start := b, lenI := n, xidx := x }

/-- Host turns other than asserting `rst` leave every register of the block as it was (70_reset_and_hazards.md R205): only
the pins, the buffer and the model's field `intact` (log 18) may change. -/
def Obligations.HostTurnsLeaveTheBlock : Prop :=
  ∀ (a : HostAct) (s t : State), hostTurn a s = .next t → a ≠ .setRst true →
    t = { s with
      rst := t.rst, start := t.start, lenI := t.lenI, xidx := t.xidx, pkt := t.pkt, intact := t.intact }

/-! ### Invariants and safety -/

/-- The invariant holds at reset. -/
def Obligations.InvariantHoldsAtReset : Prop := State.reset.Inv

/-- Every step, of the block or of the host, keeps the invariant. -/
def Obligations.InvariantKeptByEveryStep : Prop :=
  ∀ s t : State, s.Inv → step s = .next t → t.Inv

/-- 20_memory.md R52, 60_exceptions.md R179: no step from any state reads outside 0..LEN−1; no operation and no turn of
the block faults at all. -/
def Obligations.NoReadOutOfBounds : Prop :=
  (∀ s : State, step s ≠ .fault .boundsViolation) ∧
  (∀ (s : State) (f : Fault), s.blockMoves → step s ≠ .fault f) ∧
  (∀ (i : Instr) (s : State) (f : Fault), exec i s ≠ .fault f)

/-- From a reachable state the block's turn always answers a next state. In a busy state that is 30_encoding.md R86 and
60_exceptions.md R177: one operation is enabled and the block is never stuck. In IDLE and DONE without `start` nothing is
enabled and the block waits (R86, 60_exceptions.md R186), and while `rst` is asserted nothing is enabled
(70_reset_and_hazards.md R190); that such a turn is a step, which answers a next state, is the model's choice (log 7,
log 8). -/
def Obligations.BlockTurnNeverStuck : Prop :=
  ∀ s : State, s.Inv → s.blockMoves → ∃ t, step s = .next t

/-- 10_state.md R45: POS ≤ LEN ≤ LEN_MAX always; POS ≥ 48 and a multiple of 4 in DISP, EXT and MAC; every extension
field at a multiple of 4; POS = LEN in CHK under the default parameter. In IDLE and HDR POS is 0 (R44, 45_assembler.md
R150). -/
def Obligations.CursorStaysInPacket : Prop :=
  ∀ s : State, s.Inv →
    s.pos ≤ s.len ∧ s.len ≤ s.cfg.lenMax ∧
    (s.st = .idle ∨ s.st = .hdr → s.pos = 0) ∧
    (s.st = .disp ∨ s.st = .ext ∨ s.st = .mac → 48 ≤ s.pos ∧ s.pos % 4 = 0) ∧
    (∀ r ∈ s.xtab, r.xoff % 4 = 0) ∧
    (s.st = .chk → s.cfg.vother = .macOnly → s.pos = s.len)

/-- 10_state.md R47: the table cannot overflow. -/
def Obligations.FieldCountIsBounded : Prop :=
  ∀ s : State, s.Inv → 48 ≤ s.len →
    s.xcnt = s.xtab.length ∧ s.xcnt ≤ (s.len - 48) / 4 ∧
    (s.len - 48) / 4 ≤ s.cfg.xmax

/-- 43_extension_fsm.md R131: each X.TAKE takes at least four bytes off a remainder that stays non-negative. -/
def Obligations.TakeShrinksRemainder : Prop :=
  ∀ (s t : State) (ty l : BitVec 16), exec (.xTake ty l) s = .next t →
    t.st = .ext ∧ t.rem = s.rem - (l.toNat : Int) ∧ t.rem ≤ s.rem - 4 ∧ 0 ≤ t.rem

/-- 10_state.md R39: when `done = 1`, either OK = 1 and ERR = 0, or OK = 0 and ERR is 1 or 2; XLE = 1 only with VN = 4 and
OK = 1. -/
def Obligations.DoneStatusIsConsistent : Prop :=
  ∀ s : State, s.Inv → s.st = .done →
    ((s.ok = true ∧ s.err = .none) ∨ (s.ok = false ∧ (s.err = .truncated ∨ s.err = .trailingData))) ∧
    (s.xle = true → s.vn = some 4 ∧ s.ok = true)

/-- 45_assembler.md R153: under VOTHER_POLICY = MAC_ONLY no reachable state lets C.TRAIL run. -/
def Obligations.TrailingDataUnreachableByDefault : Prop :=
  ∀ s : State, s.Inv → s.cfg.vother = .macOnly → ∀ t, exec .cTrail s ≠ .next t

/-- 45_assembler.md R156: at the end of a successful run header, records and MAC region tile [0, LEN): the records lie
back to back from 48 to E, and the MAC registers describe [E, LEN). -/
def Obligations.SuccessTilesThePacket : Prop :=
  ∀ s : State, s.Inv → s.st = .done → s.ok = true →
    (∀ h : 0 < s.xtab.length, (s.xtab[0]'h).xoff = 48) ∧
    (∀ (i : Nat) (h : i + 1 < s.xtab.length),
      (s.xtab[i + 1]'h).xoff =
        (s.xtab[i]'(by omega)).xoff + (s.xtab[i]'(by omega)).xlen.toNat) ∧
    s.macStart ≤ s.len ∧
    (s.macP = false → s.macStart = s.len) ∧
    (s.macP = true →
      (s.macKv = true ∧ (∃ a n, s.macOff = some a ∧ s.macDlen = some n ∧ a = s.macStart + 4 ∧
        a + n = s.len)) ∨
      (s.macKv = false ∧ (∃ a n, s.macOff = some a ∧ s.macDlen = some n ∧ a = s.macStart ∧
        a + n = s.len ∧ 1 ≤ n ∧ n ≤ 3)))

/-- 10_state.md R40 with R35 and R37: in DONE with OK = 1 the result is defined, and it is the values of the registers,
poll and precision read signed; its extensions are the records in order, each with its payload in PKT, and its MAC is
absent exactly when MAC_P = 0, with the key identifier exactly when MAC_KV = 1 and the digest in PKT. The premise is that
of 20_memory.md R58: no byte of the packet has changed since START, or the result points at no byte of it. Where the host
has changed one and the result points into the packet, R58 and U6 leave the value unspecified; that the model then has no
result at all is its choice (log 18). Without `done = 1` and OK = 1 there is none either. -/
def Obligations.SuccessfulResultIsDefined : Prop :=
  (∀ s : State, s.Inv → s.st = .done → s.ok = true → s.intact = true ∨ s.pointsAtNothing →
    ∃ p, s.result = some p ∧ some p.leapIndicator = s.li ∧ some p.version = s.vn ∧ some p.mode = s.mode ∧
      some p.stratum = s.stratum ∧ some p.poll = s.poll.map BitVec.toInt ∧
      some p.precision = s.prec.map BitVec.toInt ∧ some p.rootDelay = s.rdelay ∧
      some p.rootDispersion = s.rdisp ∧ some p.referenceId = s.refid ∧ some p.reference = s.refts ∧
      some p.origin = s.orgts ∧ some p.receive = s.rects ∧ some p.transmit = s.xmtts ∧
      p.extensions = s.xtab.map (fun r =>
        { fieldType := r.xtype, length := r.xlen,
          payload := (List.range (r.xlen.toNat - 4)).map fun i => s.byte (r.xoff + 4 + i) }) ∧
      (s.macP = false → p.mac = none) ∧
      (s.macP = true → ∃ off n, s.macOff = some off ∧ s.macDlen = some n ∧
        p.mac = some
          { keyId := if s.macKv then s.macKey else none,
            digest := (List.range n).map fun i => s.byte (off + i) } ∧
        (s.macKv = true → s.macKey.isSome))) ∧
  (∀ s : State, s.Inv → s.intact = false → ¬ s.pointsAtNothing → s.result = none) ∧
  (∀ s : State, s.st ≠ .done ∨ s.ok = false → s.result = none)

/-! ### Readers and the mixed-width rule -/

/-- 40_primitive_codecs.md R100 to R105: each reader is defined exactly where its bytes lie below LEN, and is then the
big-endian value of them; elsewhere it is the model's fault BoundsViolation. -/
def Obligations.ReadersAreBigEndianAndBounded : Prop :=
  (∀ (s : State) (a : Nat), a + 1 ≤ s.len →
    rdU8 s a = .ok (s.byte a) ∧ rdI8 s a = .ok ((s.byte a).toInt)) ∧
  (∀ (s : State) (a : Nat), a + 2 ≤ s.len → rdU16 s a = .ok (s.byte a ++ s.byte (a + 1))) ∧
  (∀ (s : State) (a : Nat), a + 4 ≤ s.len →
    rdU32 s a = .ok (s.byte a ++ s.byte (a + 1) ++ s.byte (a + 2) ++ s.byte (a + 3)) ∧
    rdFix32 s a = rdU32 s a) ∧
  (∀ (s : State) (a : Nat), a + 8 ≤ s.len →
    rdTs64 s a = .ok
      { sec := s.byte a ++ s.byte (a + 1) ++ s.byte (a + 2) ++ s.byte (a + 3),
        frac := s.byte (a + 4) ++ s.byte (a + 5) ++ s.byte (a + 6) ++ s.byte (a + 7) }) ∧
  (∀ (s : State) (a : Nat),
    (s.len < a + 1 → rdU8 s a = .error .boundsViolation) ∧
    (s.len < a + 2 → rdU16 s a = .error .boundsViolation) ∧
    (s.len < a + 4 → rdU32 s a = .error .boundsViolation) ∧
    (s.len < a + 8 → rdTs64 s a = .error .boundsViolation))

/-- 40_primitive_codecs.md R106: the big-endian writer is the inverse of BE, on all values of a width and on all byte
sequences of a length; so each reader's value, written, gives the bytes read. -/
def Obligations.WritersInvertReaders : Prop :=
  (∀ n v, v < 256 ^ n → be (beBytes n v) = v ∧ (beBytes n v).length = n) ∧
  (∀ bs : List Byte, beBytes bs.length (be bs) = bs ∧ be bs < 256 ^ bs.length) ∧
  (∀ (s : State) (a : Nat),
    (∀ v, rdU8 s a = .ok v → memRead s a 1 = .ok (beBytes 1 v.toNat)) ∧
    (∀ v, rdU16 s a = .ok v → memRead s a 2 = .ok (beBytes 2 v.toNat)) ∧
    (∀ v, rdU32 s a = .ok v → memRead s a 4 = .ok (beBytes 4 v.toNat)) ∧
    (∀ v, rdTs64 s a = .ok v → memRead s a 8 = .ok (beBytes 4 v.sec.toNat ++ beBytes 4 v.frac.toNat)))

/-- 20_memory.md R55: reads of different widths agree; where the header (T, L) at POS is not valid, X.FALL rejects it and
the M operation after it ends with MAC_KEY = 65536·T + L. -/
def Obligations.RejectedHeaderBecomesKey : Prop :=
  (∀ (s : State) (a : Nat), a + 4 ≤ s.len →
    ∃ w x y, rdU32 s a = .ok w ∧ rdU16 s a = .ok x ∧ rdU16 s (a + 2) = .ok y ∧
      w.toNat = 65536 * x.toNat + y.toNat) ∧
  (∀ (s : State) (a : Nat), a + 2 ≤ s.len →
    ∃ x p q, rdU16 s a = .ok x ∧ rdU8 s a = .ok p ∧ rdU8 s (a + 1) = .ok q ∧
      x.toNat = 256 * p.toNat + q.toNat) ∧
  (∀ (s : State) (ty l : BitVec 16), s.rst = false → s.st = .ext → 4 ≤ s.rem →
    rdU16 s s.pos = .ok ty → rdU16 s (s.pos + 2) = .ok l → ¬ xValid l s.rem →
    ∃ i j u t k, exec i s = .next u ∧ i.mnemonic = "X.FALL" ∧
      exec j u = .next t ∧ (j.mnemonic = "M.KEY" ∨ j.mnemonic = "M.FULL") ∧
      t.xle = true ∧ t.st = .chk ∧ t.macP = true ∧ t.macKv = true ∧
      t.macKey = some k ∧ k.toNat = 65536 * ty.toNat + l.toNat)

/-! ### Whole runs

Each holds for every run under the launch premises of 70_reset_and_hazards.md R203, whatever the host does within its
duties between the block's turns (R205): a step count is of the block's operations, the host's turns beside it. That a
breach of a duty stops the run by name instead is the model's choice (log 3, log 11, log 17). -/

/-- 43_extension_fsm.md R135: from the dispatch of a version-4 packet the loop reaches MAC with the records, the cursor and
XLE of the closed form. -/
def Obligations.LoopHasClosedForm : Prop :=
  ∀ s : State, s.Inv → s.rst = false → s.dutiesKept → s.st = .disp → s.vn = some 4 →
    ∃ k t, core.run k s = .next t ∧ t.st = .mac ∧ (traceOf k s).length ≤ 2 + (s.len - 48) / 4 ∧
      k = (traceOf k s).length + s.hostTurns k ∧
      (∀ j u, j < k → core.run j s = .next u → u.st = .disp ∨ u.st = .ext) ∧
      t.xtab = (loopFrom s.pkt s.len s.len 48).1 ∧ t.xcnt = t.xtab.length ∧
      t.pos = (loopFrom s.pkt s.len s.len 48).2.1 ∧
      t.xle = (loopFrom s.pkt s.len s.len 48).2.2

/-- 45_assembler.md R154, 60_exceptions.md R177, 70_reset_and_hazards.md R201: whatever the packet and the parameters, a run
ends in DONE after at most 6 + ⌊(LEN − 48) / 4⌋ operations, every other step being the host's, and is busy until then. -/
def Obligations.EveryRunEndsInBound : Prop :=
  ∀ (s : State) (bs : List Byte), s.launch bs →
    ∃ k t, core.run k s = .next t ∧ t.st = .done ∧
      2 ≤ (traceOf k s).length ∧ (traceOf k s).length ≤ 6 + (bs.length - 48) / 4 ∧
      k = (traceOf k s).length + s.hostTurns k ∧
      ∀ j u, 0 < j → j < k → core.run j s = .next u → u.busy = true

/-- 45_assembler.md R154: under the default parameters the trace of a run is a word of the rule's grammar. -/
def Obligations.RunTraceFollowsGrammar : Prop :=
  ∀ (s : State) (bs : List Byte), s.launch bs → s.cfg.defaultPolicies →
    ∃ k t, core.run k s = .next t ∧ t.st = .done ∧
      (∀ j u, 0 < j → j < k → core.run j s = .next u → u.busy = true) ∧
      ((bs.length < 48 ∧ traceOf k s = ["START", "H.TRUNC"]) ∨
       (48 ≤ bs.length ∧ ∃ m ∈ ["M.NONE", "M.SHORT", "M.KEY", "M.FULL"], ∃ d ∈ ["D.LEGACY", "D.HIGH"],
         traceOf k s = ["START", "H.LOAD", d, m, "C.OK"]) ∨
       (48 ≤ bs.length ∧ ∃ n, n ≤ (bs.length - 48) / 4 ∧
         ∃ e ∈ [["X.STOP", "M.NONE"], ["X.STOP", "M.SHORT"], ["X.FALL", "M.KEY"], ["X.FALL", "M.FULL"]],
         traceOf k s = ["START", "H.LOAD", "D.V4"] ++ List.replicate n "X.TAKE" ++ e ++ ["C.OK"]))

/-- 45_assembler.md R155: how a run ends, under the default parameters and under each of the other values. -/
def Obligations.RunOutcomeByLengthAndPolicy : Prop :=
  ∀ (s : State) (bs : List Byte), s.launch bs →
    ∃ k t, core.run k s = .next t ∧ t.st = .done ∧
      (∀ j u, 0 < j → j < k → core.run j s = .next u → u.busy = true) ∧
      (s.cfg.defaultPolicies → (t.ok = true ↔ 48 ≤ bs.length) ∧
        (t.err = .truncated ↔ bs.length < 48) ∧ t.err ≠ .trailingData) ∧
      (s.cfg.vother = .trailingData → (t.err = .trailingData ↔ t.versionHigh ∧ 48 < bs.length)) ∧
      (s.cfg.shortMac = .truncated →
        (t.err = .truncated ↔
          bs.length < 48 ∨ (¬ (s.cfg.vother = .trailingData ∧ t.versionHigh) ∧
            (bs.length - t.macStart = 1 ∨ bs.length - t.macStart = 2 ∨ bs.length - t.macStart = 3))))

/-- 45_assembler.md R157, 70_reset_and_hazards.md R203: under the default parameters a run on the packet B ends with what
`Decode(B)` gives, whatever the host does within its duties. -/
def Obligations.RunComputesReferenceDecoder : Prop :=
  ∀ (s : State) (bs : List Byte), s.launch bs → s.cfg.defaultPolicies →
    ∃ k t, core.run k s = .next t ∧ t.st = .done ∧
      (∀ j u, 0 < j → j < k → core.run j s = .next u → u.busy = true) ∧
      (∀ e, decodePacket bs = .error e → t.ok = false ∧ t.err = e ∧ t.result = none ∧ t.xle = false) ∧
      (∀ p x, decodePacket bs = .ok (p, x) → t.ok = true ∧ t.err = .none ∧ t.result = some p ∧ t.xle = x)

/-- 45_assembler.md R159: encoding a decoded packet gives the bytes back. R157 defines Decode for |B| ≤ LEN_MAX; LEN_W is a
parameter, so every B is within the LEN_MAX of some block. That `decodePacket` answers beside a fixed LEN_MAX as well is
the model's choice (log 21). -/
def Obligations.EncodeInvertsDecodePacket : Prop :=
  ∀ (bs : List Byte) (p : NtpPacket) (x : Bool), decodePacket bs = .ok (p, x) → encodePacket p = bs

/-! ### Widths -/

/-- 10_state.md R22, R23, R33, R34, R36, R46; 00_scope.md R5: in every reachable state, for every LEN_W, every register
that holds an address, a length or a count fits its width: LEN_W bits for POS, LEN, each XOFF, MAC_OFF and MAC_DLEN, XCNT_W
bits for XCNT. So the sums and differences of the operations, which are on integers here, never wrap in the registers. -/
def Obligations.RegistersFitTheirWidths : Prop :=
  (∀ s : State, s.Inv →
    s.pos < 2 ^ s.cfg.lenW ∧ s.len < 2 ^ s.cfg.lenW ∧ s.xcnt < 2 ^ s.cfg.xcntW ∧
    (∀ r ∈ s.xtab, r.xoff < 2 ^ s.cfg.lenW) ∧
    (∀ a, s.macOff = some a → a < 2 ^ s.cfg.lenW) ∧ (∀ n, s.macDlen = some n → n < 2 ^ s.cfg.lenW)) ∧
  (Config.ntpp10.lenMax = 65535 ∧ Config.ntpp10.xmax = 16371 ∧ Config.ntpp10.xcntW = 14)

/-! ### The result after the run -/

/-- 45_assembler.md R151, 10_state.md R41, 70_reset_and_hazards.md R195, R196: after a successful run, until the next START
or a reset, no step changes a register of the block, and the result stays as it was under the premise of 20_memory.md
R58: the host writes no other value to a byte below LEN. Where it does, the result stays or the model has none from then
on, never another one (log 18). -/
def Obligations.ResultFrozenUntilNextStart : Prop :=
  ∀ s t : State, s.Inv → s.st = .done → s.ok = true → step s = .next t → t.st = .done →
    t = { s with
      rst := t.rst, start := t.start, lenI := t.lenI, xidx := t.xidx, pkt := t.pkt, intact := t.intact,
      turns := t.turns } ∧
    ((∀ a b, s.turns.head? = some (.host (.writePkt a b)) → s.len ≤ a ∨ s.byte a = b) → t.result = s.result) ∧
    (t.result = s.result ∨ t.result = none)
end

