-- ==== Sys2Proof/Laws/State.lean ====
section
/-! SUPPORT. One lemma for each field of State and each named update of it: what the field holds after the update. -/

namespace Sys2Proof.Machine

variable (s : State)

/-! `State.goto` -/

@[simp] theorem State.goto_st (f : Fsm) : (s.goto f).st = f := rfl
@[simp] theorem State.goto_pos (f : Fsm) : (s.goto f).pos = s.pos := rfl
@[simp] theorem State.goto_len (f : Fsm) : (s.goto f).len = s.len := rfl
@[simp] theorem State.goto_li (f : Fsm) : (s.goto f).li = s.li := rfl
@[simp] theorem State.goto_vn (f : Fsm) : (s.goto f).vn = s.vn := rfl
@[simp] theorem State.goto_mode (f : Fsm) : (s.goto f).mode = s.mode := rfl
@[simp] theorem State.goto_stratum (f : Fsm) : (s.goto f).stratum = s.stratum := rfl
@[simp] theorem State.goto_poll (f : Fsm) : (s.goto f).poll = s.poll := rfl
@[simp] theorem State.goto_prec (f : Fsm) : (s.goto f).prec = s.prec := rfl
@[simp] theorem State.goto_rdelay (f : Fsm) : (s.goto f).rdelay = s.rdelay := rfl
@[simp] theorem State.goto_rdisp (f : Fsm) : (s.goto f).rdisp = s.rdisp := rfl
@[simp] theorem State.goto_refid (f : Fsm) : (s.goto f).refid = s.refid := rfl
@[simp] theorem State.goto_refts (f : Fsm) : (s.goto f).refts = s.refts := rfl
@[simp] theorem State.goto_orgts (f : Fsm) : (s.goto f).orgts = s.orgts := rfl
@[simp] theorem State.goto_rects (f : Fsm) : (s.goto f).rects = s.rects := rfl
@[simp] theorem State.goto_xmtts (f : Fsm) : (s.goto f).xmtts = s.xmtts := rfl
@[simp] theorem State.goto_xtab (f : Fsm) : (s.goto f).xtab = s.xtab := rfl
@[simp] theorem State.goto_xcnt (f : Fsm) : (s.goto f).xcnt = s.xcnt := rfl
@[simp] theorem State.goto_macP (f : Fsm) : (s.goto f).macP = s.macP := rfl
@[simp] theorem State.goto_macKv (f : Fsm) : (s.goto f).macKv = s.macKv := rfl
@[simp] theorem State.goto_macKey (f : Fsm) : (s.goto f).macKey = s.macKey := rfl
@[simp] theorem State.goto_macOff (f : Fsm) : (s.goto f).macOff = s.macOff := rfl
@[simp] theorem State.goto_macDlen (f : Fsm) : (s.goto f).macDlen = s.macDlen := rfl
@[simp] theorem State.goto_ok (f : Fsm) : (s.goto f).ok = s.ok := rfl
@[simp] theorem State.goto_err (f : Fsm) : (s.goto f).err = s.err := rfl
@[simp] theorem State.goto_xle (f : Fsm) : (s.goto f).xle = s.xle := rfl
@[simp] theorem State.goto_rst (f : Fsm) : (s.goto f).rst = s.rst := rfl
@[simp] theorem State.goto_start (f : Fsm) : (s.goto f).start = s.start := rfl
@[simp] theorem State.goto_lenI (f : Fsm) : (s.goto f).lenI = s.lenI := rfl
@[simp] theorem State.goto_xidx (f : Fsm) : (s.goto f).xidx = s.xidx := rfl
@[simp] theorem State.goto_pkt (f : Fsm) : (s.goto f).pkt = s.pkt := rfl
@[simp] theorem State.goto_intact (f : Fsm) : (s.goto f).intact = s.intact := rfl
@[simp] theorem State.goto_cfg (f : Fsm) : (s.goto f).cfg = s.cfg := rfl
@[simp] theorem State.goto_turns (f : Fsm) : (s.goto f).turns = s.turns := rfl

/-! `State.hostWrite` -/

@[simp] theorem State.hostWrite_st (a : Nat) (b : Byte) : (s.hostWrite a b).st = s.st := rfl
@[simp] theorem State.hostWrite_pos (a : Nat) (b : Byte) : (s.hostWrite a b).pos = s.pos := rfl
@[simp] theorem State.hostWrite_len (a : Nat) (b : Byte) : (s.hostWrite a b).len = s.len := rfl
@[simp] theorem State.hostWrite_li (a : Nat) (b : Byte) : (s.hostWrite a b).li = s.li := rfl
@[simp] theorem State.hostWrite_vn (a : Nat) (b : Byte) : (s.hostWrite a b).vn = s.vn := rfl
@[simp] theorem State.hostWrite_mode (a : Nat) (b : Byte) : (s.hostWrite a b).mode = s.mode := rfl
@[simp] theorem State.hostWrite_stratum (a : Nat) (b : Byte) : (s.hostWrite a b).stratum = s.stratum := rfl
@[simp] theorem State.hostWrite_poll (a : Nat) (b : Byte) : (s.hostWrite a b).poll = s.poll := rfl
@[simp] theorem State.hostWrite_prec (a : Nat) (b : Byte) : (s.hostWrite a b).prec = s.prec := rfl
@[simp] theorem State.hostWrite_rdelay (a : Nat) (b : Byte) : (s.hostWrite a b).rdelay = s.rdelay := rfl
@[simp] theorem State.hostWrite_rdisp (a : Nat) (b : Byte) : (s.hostWrite a b).rdisp = s.rdisp := rfl
@[simp] theorem State.hostWrite_refid (a : Nat) (b : Byte) : (s.hostWrite a b).refid = s.refid := rfl
@[simp] theorem State.hostWrite_refts (a : Nat) (b : Byte) : (s.hostWrite a b).refts = s.refts := rfl
@[simp] theorem State.hostWrite_orgts (a : Nat) (b : Byte) : (s.hostWrite a b).orgts = s.orgts := rfl
@[simp] theorem State.hostWrite_rects (a : Nat) (b : Byte) : (s.hostWrite a b).rects = s.rects := rfl
@[simp] theorem State.hostWrite_xmtts (a : Nat) (b : Byte) : (s.hostWrite a b).xmtts = s.xmtts := rfl
@[simp] theorem State.hostWrite_xtab (a : Nat) (b : Byte) : (s.hostWrite a b).xtab = s.xtab := rfl
@[simp] theorem State.hostWrite_xcnt (a : Nat) (b : Byte) : (s.hostWrite a b).xcnt = s.xcnt := rfl
@[simp] theorem State.hostWrite_macP (a : Nat) (b : Byte) : (s.hostWrite a b).macP = s.macP := rfl
@[simp] theorem State.hostWrite_macKv (a : Nat) (b : Byte) : (s.hostWrite a b).macKv = s.macKv := rfl
@[simp] theorem State.hostWrite_macKey (a : Nat) (b : Byte) : (s.hostWrite a b).macKey = s.macKey := rfl
@[simp] theorem State.hostWrite_macOff (a : Nat) (b : Byte) : (s.hostWrite a b).macOff = s.macOff := rfl
@[simp] theorem State.hostWrite_macDlen (a : Nat) (b : Byte) : (s.hostWrite a b).macDlen = s.macDlen := rfl
@[simp] theorem State.hostWrite_ok (a : Nat) (b : Byte) : (s.hostWrite a b).ok = s.ok := rfl
@[simp] theorem State.hostWrite_err (a : Nat) (b : Byte) : (s.hostWrite a b).err = s.err := rfl
@[simp] theorem State.hostWrite_xle (a : Nat) (b : Byte) : (s.hostWrite a b).xle = s.xle := rfl
@[simp] theorem State.hostWrite_rst (a : Nat) (b : Byte) : (s.hostWrite a b).rst = s.rst := rfl
@[simp] theorem State.hostWrite_start (a : Nat) (b : Byte) : (s.hostWrite a b).start = s.start := rfl
@[simp] theorem State.hostWrite_lenI (a : Nat) (b : Byte) : (s.hostWrite a b).lenI = s.lenI := rfl
@[simp] theorem State.hostWrite_xidx (a : Nat) (b : Byte) : (s.hostWrite a b).xidx = s.xidx := rfl
@[simp] theorem State.hostWrite_pkt (a : Nat) (b : Byte) : (s.hostWrite a b).pkt = Memory.write s.pkt a b := rfl
@[simp] theorem State.hostWrite_intact (a : Nat) (b : Byte) : (s.hostWrite a b).intact = (s.intact && (decide (s.len ≤ a) || Memory.read s.pkt a == b)) := rfl
@[simp] theorem State.hostWrite_cfg (a : Nat) (b : Byte) : (s.hostWrite a b).cfg = s.cfg := rfl
@[simp] theorem State.hostWrite_turns (a : Nat) (b : Byte) : (s.hostWrite a b).turns = s.turns := rfl

/-! `State.raise` -/

@[simp] theorem State.raise_st (k : ErrCode) : (s.raise k).st = .done := rfl
@[simp] theorem State.raise_pos (k : ErrCode) : (s.raise k).pos = s.pos := rfl
@[simp] theorem State.raise_len (k : ErrCode) : (s.raise k).len = s.len := rfl
@[simp] theorem State.raise_li (k : ErrCode) : (s.raise k).li = s.li := rfl
@[simp] theorem State.raise_vn (k : ErrCode) : (s.raise k).vn = s.vn := rfl
@[simp] theorem State.raise_mode (k : ErrCode) : (s.raise k).mode = s.mode := rfl
@[simp] theorem State.raise_stratum (k : ErrCode) : (s.raise k).stratum = s.stratum := rfl
@[simp] theorem State.raise_poll (k : ErrCode) : (s.raise k).poll = s.poll := rfl
@[simp] theorem State.raise_prec (k : ErrCode) : (s.raise k).prec = s.prec := rfl
@[simp] theorem State.raise_rdelay (k : ErrCode) : (s.raise k).rdelay = s.rdelay := rfl
@[simp] theorem State.raise_rdisp (k : ErrCode) : (s.raise k).rdisp = s.rdisp := rfl
@[simp] theorem State.raise_refid (k : ErrCode) : (s.raise k).refid = s.refid := rfl
@[simp] theorem State.raise_refts (k : ErrCode) : (s.raise k).refts = s.refts := rfl
@[simp] theorem State.raise_orgts (k : ErrCode) : (s.raise k).orgts = s.orgts := rfl
@[simp] theorem State.raise_rects (k : ErrCode) : (s.raise k).rects = s.rects := rfl
@[simp] theorem State.raise_xmtts (k : ErrCode) : (s.raise k).xmtts = s.xmtts := rfl
@[simp] theorem State.raise_xtab (k : ErrCode) : (s.raise k).xtab = s.xtab := rfl
@[simp] theorem State.raise_xcnt (k : ErrCode) : (s.raise k).xcnt = s.xcnt := rfl
@[simp] theorem State.raise_macP (k : ErrCode) : (s.raise k).macP = s.macP := rfl
@[simp] theorem State.raise_macKv (k : ErrCode) : (s.raise k).macKv = s.macKv := rfl
@[simp] theorem State.raise_macKey (k : ErrCode) : (s.raise k).macKey = s.macKey := rfl
@[simp] theorem State.raise_macOff (k : ErrCode) : (s.raise k).macOff = s.macOff := rfl
@[simp] theorem State.raise_macDlen (k : ErrCode) : (s.raise k).macDlen = s.macDlen := rfl
@[simp] theorem State.raise_ok (k : ErrCode) : (s.raise k).ok = false := rfl
@[simp] theorem State.raise_err (k : ErrCode) : (s.raise k).err = k := rfl
@[simp] theorem State.raise_xle (k : ErrCode) : (s.raise k).xle = s.xle := rfl
@[simp] theorem State.raise_rst (k : ErrCode) : (s.raise k).rst = s.rst := rfl
@[simp] theorem State.raise_start (k : ErrCode) : (s.raise k).start = s.start := rfl
@[simp] theorem State.raise_lenI (k : ErrCode) : (s.raise k).lenI = s.lenI := rfl
@[simp] theorem State.raise_xidx (k : ErrCode) : (s.raise k).xidx = s.xidx := rfl
@[simp] theorem State.raise_pkt (k : ErrCode) : (s.raise k).pkt = s.pkt := rfl
@[simp] theorem State.raise_intact (k : ErrCode) : (s.raise k).intact = s.intact := rfl
@[simp] theorem State.raise_cfg (k : ErrCode) : (s.raise k).cfg = s.cfg := rfl
@[simp] theorem State.raise_turns (k : ErrCode) : (s.raise k).turns = s.turns := rfl

/-! `State.startRun` -/

@[simp] theorem State.startRun_st : (s.startRun).st = .hdr := rfl
@[simp] theorem State.startRun_pos : (s.startRun).pos = 0 := rfl
@[simp] theorem State.startRun_len : (s.startRun).len = s.lenI := rfl
@[simp] theorem State.startRun_li : (s.startRun).li = none := rfl
@[simp] theorem State.startRun_vn : (s.startRun).vn = none := rfl
@[simp] theorem State.startRun_mode : (s.startRun).mode = none := rfl
@[simp] theorem State.startRun_stratum : (s.startRun).stratum = none := rfl
@[simp] theorem State.startRun_poll : (s.startRun).poll = none := rfl
@[simp] theorem State.startRun_prec : (s.startRun).prec = none := rfl
@[simp] theorem State.startRun_rdelay : (s.startRun).rdelay = none := rfl
@[simp] theorem State.startRun_rdisp : (s.startRun).rdisp = none := rfl
@[simp] theorem State.startRun_refid : (s.startRun).refid = none := rfl
@[simp] theorem State.startRun_refts : (s.startRun).refts = none := rfl
@[simp] theorem State.startRun_orgts : (s.startRun).orgts = none := rfl
@[simp] theorem State.startRun_rects : (s.startRun).rects = none := rfl
@[simp] theorem State.startRun_xmtts : (s.startRun).xmtts = none := rfl
@[simp] theorem State.startRun_xtab : (s.startRun).xtab = [] := rfl
@[simp] theorem State.startRun_xcnt : (s.startRun).xcnt = 0 := rfl
@[simp] theorem State.startRun_macP : (s.startRun).macP = false := rfl
@[simp] theorem State.startRun_macKv : (s.startRun).macKv = false := rfl
@[simp] theorem State.startRun_macKey : (s.startRun).macKey = none := rfl
@[simp] theorem State.startRun_macOff : (s.startRun).macOff = none := rfl
@[simp] theorem State.startRun_macDlen : (s.startRun).macDlen = none := rfl
@[simp] theorem State.startRun_ok : (s.startRun).ok = false := rfl
@[simp] theorem State.startRun_err : (s.startRun).err = .none := rfl
@[simp] theorem State.startRun_xle : (s.startRun).xle = false := rfl
@[simp] theorem State.startRun_rst : (s.startRun).rst = s.rst := rfl
@[simp] theorem State.startRun_start : (s.startRun).start = s.start := rfl
@[simp] theorem State.startRun_lenI : (s.startRun).lenI = s.lenI := rfl
@[simp] theorem State.startRun_xidx : (s.startRun).xidx = s.xidx := rfl
@[simp] theorem State.startRun_pkt : (s.startRun).pkt = s.pkt := rfl
@[simp] theorem State.startRun_intact : (s.startRun).intact = true := rfl
@[simp] theorem State.startRun_cfg : (s.startRun).cfg = s.cfg := rfl
@[simp] theorem State.startRun_turns : (s.startRun).turns = s.turns := rfl

/-! `State.resetBlock` -/

@[simp] theorem State.resetBlock_st : (s.resetBlock).st = .idle := rfl
@[simp] theorem State.resetBlock_pos : (s.resetBlock).pos = 0 := rfl
@[simp] theorem State.resetBlock_len : (s.resetBlock).len = 0 := rfl
@[simp] theorem State.resetBlock_li : (s.resetBlock).li = none := rfl
@[simp] theorem State.resetBlock_vn : (s.resetBlock).vn = none := rfl
@[simp] theorem State.resetBlock_mode : (s.resetBlock).mode = none := rfl
@[simp] theorem State.resetBlock_stratum : (s.resetBlock).stratum = none := rfl
@[simp] theorem State.resetBlock_poll : (s.resetBlock).poll = none := rfl
@[simp] theorem State.resetBlock_prec : (s.resetBlock).prec = none := rfl
@[simp] theorem State.resetBlock_rdelay : (s.resetBlock).rdelay = none := rfl
@[simp] theorem State.resetBlock_rdisp : (s.resetBlock).rdisp = none := rfl
@[simp] theorem State.resetBlock_refid : (s.resetBlock).refid = none := rfl
@[simp] theorem State.resetBlock_refts : (s.resetBlock).refts = none := rfl
@[simp] theorem State.resetBlock_orgts : (s.resetBlock).orgts = none := rfl
@[simp] theorem State.resetBlock_rects : (s.resetBlock).rects = none := rfl
@[simp] theorem State.resetBlock_xmtts : (s.resetBlock).xmtts = none := rfl
@[simp] theorem State.resetBlock_xtab : (s.resetBlock).xtab = [] := rfl
@[simp] theorem State.resetBlock_xcnt : (s.resetBlock).xcnt = 0 := rfl
@[simp] theorem State.resetBlock_macP : (s.resetBlock).macP = false := rfl
@[simp] theorem State.resetBlock_macKv : (s.resetBlock).macKv = false := rfl
@[simp] theorem State.resetBlock_macKey : (s.resetBlock).macKey = none := rfl
@[simp] theorem State.resetBlock_macOff : (s.resetBlock).macOff = none := rfl
@[simp] theorem State.resetBlock_macDlen : (s.resetBlock).macDlen = none := rfl
@[simp] theorem State.resetBlock_ok : (s.resetBlock).ok = false := rfl
@[simp] theorem State.resetBlock_err : (s.resetBlock).err = .none := rfl
@[simp] theorem State.resetBlock_xle : (s.resetBlock).xle = false := rfl
@[simp] theorem State.resetBlock_rst : (s.resetBlock).rst = s.rst := rfl
@[simp] theorem State.resetBlock_start : (s.resetBlock).start = s.start := rfl
@[simp] theorem State.resetBlock_lenI : (s.resetBlock).lenI = s.lenI := rfl
@[simp] theorem State.resetBlock_xidx : (s.resetBlock).xidx = s.xidx := rfl
@[simp] theorem State.resetBlock_pkt : (s.resetBlock).pkt = s.pkt := rfl
@[simp] theorem State.resetBlock_intact : (s.resetBlock).intact = true := rfl
@[simp] theorem State.resetBlock_cfg : (s.resetBlock).cfg = s.cfg := rfl
@[simp] theorem State.resetBlock_turns : (s.resetBlock).turns = s.turns := rfl

/-! `State.loadHeader` -/

@[simp] theorem State.loadHeader_st (h : Header) : (s.loadHeader h).st = .disp := rfl
@[simp] theorem State.loadHeader_pos (h : Header) : (s.loadHeader h).pos = 48 := rfl
@[simp] theorem State.loadHeader_len (h : Header) : (s.loadHeader h).len = s.len := rfl
@[simp] theorem State.loadHeader_li (h : Header) : (s.loadHeader h).li = some h.li := rfl
@[simp] theorem State.loadHeader_vn (h : Header) : (s.loadHeader h).vn = some h.vn := rfl
@[simp] theorem State.loadHeader_mode (h : Header) : (s.loadHeader h).mode = some h.mode := rfl
@[simp] theorem State.loadHeader_stratum (h : Header) : (s.loadHeader h).stratum = some h.stratum := rfl
@[simp] theorem State.loadHeader_poll (h : Header) : (s.loadHeader h).poll = some h.poll := rfl
@[simp] theorem State.loadHeader_prec (h : Header) : (s.loadHeader h).prec = some h.prec := rfl
@[simp] theorem State.loadHeader_rdelay (h : Header) : (s.loadHeader h).rdelay = some h.rdelay := rfl
@[simp] theorem State.loadHeader_rdisp (h : Header) : (s.loadHeader h).rdisp = some h.rdisp := rfl
@[simp] theorem State.loadHeader_refid (h : Header) : (s.loadHeader h).refid = some h.refid := rfl
@[simp] theorem State.loadHeader_refts (h : Header) : (s.loadHeader h).refts = some h.refts := rfl
@[simp] theorem State.loadHeader_orgts (h : Header) : (s.loadHeader h).orgts = some h.orgts := rfl
@[simp] theorem State.loadHeader_rects (h : Header) : (s.loadHeader h).rects = some h.rects := rfl
@[simp] theorem State.loadHeader_xmtts (h : Header) : (s.loadHeader h).xmtts = some h.xmtts := rfl
@[simp] theorem State.loadHeader_xtab (h : Header) : (s.loadHeader h).xtab = s.xtab := rfl
@[simp] theorem State.loadHeader_xcnt (h : Header) : (s.loadHeader h).xcnt = s.xcnt := rfl
@[simp] theorem State.loadHeader_macP (h : Header) : (s.loadHeader h).macP = s.macP := rfl
@[simp] theorem State.loadHeader_macKv (h : Header) : (s.loadHeader h).macKv = s.macKv := rfl
@[simp] theorem State.loadHeader_macKey (h : Header) : (s.loadHeader h).macKey = s.macKey := rfl
@[simp] theorem State.loadHeader_macOff (h : Header) : (s.loadHeader h).macOff = s.macOff := rfl
@[simp] theorem State.loadHeader_macDlen (h : Header) : (s.loadHeader h).macDlen = s.macDlen := rfl
@[simp] theorem State.loadHeader_ok (h : Header) : (s.loadHeader h).ok = s.ok := rfl
@[simp] theorem State.loadHeader_err (h : Header) : (s.loadHeader h).err = s.err := rfl
@[simp] theorem State.loadHeader_xle (h : Header) : (s.loadHeader h).xle = s.xle := rfl
@[simp] theorem State.loadHeader_rst (h : Header) : (s.loadHeader h).rst = s.rst := rfl
@[simp] theorem State.loadHeader_start (h : Header) : (s.loadHeader h).start = s.start := rfl
@[simp] theorem State.loadHeader_lenI (h : Header) : (s.loadHeader h).lenI = s.lenI := rfl
@[simp] theorem State.loadHeader_xidx (h : Header) : (s.loadHeader h).xidx = s.xidx := rfl
@[simp] theorem State.loadHeader_pkt (h : Header) : (s.loadHeader h).pkt = s.pkt := rfl
@[simp] theorem State.loadHeader_intact (h : Header) : (s.loadHeader h).intact = s.intact := rfl
@[simp] theorem State.loadHeader_cfg (h : Header) : (s.loadHeader h).cfg = s.cfg := rfl
@[simp] theorem State.loadHeader_turns (h : Header) : (s.loadHeader h).turns = s.turns := rfl

/-! `State.fallBack` -/

@[simp] theorem State.fallBack_st : (s.fallBack).st = .mac := rfl
@[simp] theorem State.fallBack_pos : (s.fallBack).pos = s.pos := rfl
@[simp] theorem State.fallBack_len : (s.fallBack).len = s.len := rfl
@[simp] theorem State.fallBack_li : (s.fallBack).li = s.li := rfl
@[simp] theorem State.fallBack_vn : (s.fallBack).vn = s.vn := rfl
@[simp] theorem State.fallBack_mode : (s.fallBack).mode = s.mode := rfl
@[simp] theorem State.fallBack_stratum : (s.fallBack).stratum = s.stratum := rfl
@[simp] theorem State.fallBack_poll : (s.fallBack).poll = s.poll := rfl
@[simp] theorem State.fallBack_prec : (s.fallBack).prec = s.prec := rfl
@[simp] theorem State.fallBack_rdelay : (s.fallBack).rdelay = s.rdelay := rfl
@[simp] theorem State.fallBack_rdisp : (s.fallBack).rdisp = s.rdisp := rfl
@[simp] theorem State.fallBack_refid : (s.fallBack).refid = s.refid := rfl
@[simp] theorem State.fallBack_refts : (s.fallBack).refts = s.refts := rfl
@[simp] theorem State.fallBack_orgts : (s.fallBack).orgts = s.orgts := rfl
@[simp] theorem State.fallBack_rects : (s.fallBack).rects = s.rects := rfl
@[simp] theorem State.fallBack_xmtts : (s.fallBack).xmtts = s.xmtts := rfl
@[simp] theorem State.fallBack_xtab : (s.fallBack).xtab = s.xtab := rfl
@[simp] theorem State.fallBack_xcnt : (s.fallBack).xcnt = s.xcnt := rfl
@[simp] theorem State.fallBack_macP : (s.fallBack).macP = s.macP := rfl
@[simp] theorem State.fallBack_macKv : (s.fallBack).macKv = s.macKv := rfl
@[simp] theorem State.fallBack_macKey : (s.fallBack).macKey = s.macKey := rfl
@[simp] theorem State.fallBack_macOff : (s.fallBack).macOff = s.macOff := rfl
@[simp] theorem State.fallBack_macDlen : (s.fallBack).macDlen = s.macDlen := rfl
@[simp] theorem State.fallBack_ok : (s.fallBack).ok = s.ok := rfl
@[simp] theorem State.fallBack_err : (s.fallBack).err = s.err := rfl
@[simp] theorem State.fallBack_xle : (s.fallBack).xle = true := rfl
@[simp] theorem State.fallBack_rst : (s.fallBack).rst = s.rst := rfl
@[simp] theorem State.fallBack_start : (s.fallBack).start = s.start := rfl
@[simp] theorem State.fallBack_lenI : (s.fallBack).lenI = s.lenI := rfl
@[simp] theorem State.fallBack_xidx : (s.fallBack).xidx = s.xidx := rfl
@[simp] theorem State.fallBack_pkt : (s.fallBack).pkt = s.pkt := rfl
@[simp] theorem State.fallBack_intact : (s.fallBack).intact = s.intact := rfl
@[simp] theorem State.fallBack_cfg : (s.fallBack).cfg = s.cfg := rfl
@[simp] theorem State.fallBack_turns : (s.fallBack).turns = s.turns := rfl

/-! `State.takeField` -/

@[simp] theorem State.takeField_st (t l : BitVec 16) : (s.takeField t l).st = .ext := rfl
@[simp] theorem State.takeField_pos (t l : BitVec 16) : (s.takeField t l).pos = s.pos + l.toNat := rfl
@[simp] theorem State.takeField_len (t l : BitVec 16) : (s.takeField t l).len = s.len := rfl
@[simp] theorem State.takeField_li (t l : BitVec 16) : (s.takeField t l).li = s.li := rfl
@[simp] theorem State.takeField_vn (t l : BitVec 16) : (s.takeField t l).vn = s.vn := rfl
@[simp] theorem State.takeField_mode (t l : BitVec 16) : (s.takeField t l).mode = s.mode := rfl
@[simp] theorem State.takeField_stratum (t l : BitVec 16) : (s.takeField t l).stratum = s.stratum := rfl
@[simp] theorem State.takeField_poll (t l : BitVec 16) : (s.takeField t l).poll = s.poll := rfl
@[simp] theorem State.takeField_prec (t l : BitVec 16) : (s.takeField t l).prec = s.prec := rfl
@[simp] theorem State.takeField_rdelay (t l : BitVec 16) : (s.takeField t l).rdelay = s.rdelay := rfl
@[simp] theorem State.takeField_rdisp (t l : BitVec 16) : (s.takeField t l).rdisp = s.rdisp := rfl
@[simp] theorem State.takeField_refid (t l : BitVec 16) : (s.takeField t l).refid = s.refid := rfl
@[simp] theorem State.takeField_refts (t l : BitVec 16) : (s.takeField t l).refts = s.refts := rfl
@[simp] theorem State.takeField_orgts (t l : BitVec 16) : (s.takeField t l).orgts = s.orgts := rfl
@[simp] theorem State.takeField_rects (t l : BitVec 16) : (s.takeField t l).rects = s.rects := rfl
@[simp] theorem State.takeField_xmtts (t l : BitVec 16) : (s.takeField t l).xmtts = s.xmtts := rfl
@[simp] theorem State.takeField_xtab (t l : BitVec 16) : (s.takeField t l).xtab = s.xtab ++ [{ xtype := t, xlen := l, xoff := s.pos }] := rfl
@[simp] theorem State.takeField_xcnt (t l : BitVec 16) : (s.takeField t l).xcnt = s.xcnt + 1 := rfl
@[simp] theorem State.takeField_macP (t l : BitVec 16) : (s.takeField t l).macP = s.macP := rfl
@[simp] theorem State.takeField_macKv (t l : BitVec 16) : (s.takeField t l).macKv = s.macKv := rfl
@[simp] theorem State.takeField_macKey (t l : BitVec 16) : (s.takeField t l).macKey = s.macKey := rfl
@[simp] theorem State.takeField_macOff (t l : BitVec 16) : (s.takeField t l).macOff = s.macOff := rfl
@[simp] theorem State.takeField_macDlen (t l : BitVec 16) : (s.takeField t l).macDlen = s.macDlen := rfl
@[simp] theorem State.takeField_ok (t l : BitVec 16) : (s.takeField t l).ok = s.ok := rfl
@[simp] theorem State.takeField_err (t l : BitVec 16) : (s.takeField t l).err = s.err := rfl
@[simp] theorem State.takeField_xle (t l : BitVec 16) : (s.takeField t l).xle = s.xle := rfl
@[simp] theorem State.takeField_rst (t l : BitVec 16) : (s.takeField t l).rst = s.rst := rfl
@[simp] theorem State.takeField_start (t l : BitVec 16) : (s.takeField t l).start = s.start := rfl
@[simp] theorem State.takeField_lenI (t l : BitVec 16) : (s.takeField t l).lenI = s.lenI := rfl
@[simp] theorem State.takeField_xidx (t l : BitVec 16) : (s.takeField t l).xidx = s.xidx := rfl
@[simp] theorem State.takeField_pkt (t l : BitVec 16) : (s.takeField t l).pkt = s.pkt := rfl
@[simp] theorem State.takeField_intact (t l : BitVec 16) : (s.takeField t l).intact = s.intact := rfl
@[simp] theorem State.takeField_cfg (t l : BitVec 16) : (s.takeField t l).cfg = s.cfg := rfl
@[simp] theorem State.takeField_turns (t l : BitVec 16) : (s.takeField t l).turns = s.turns := rfl

/-! `State.noMac` -/

@[simp] theorem State.noMac_st : (s.noMac).st = .chk := rfl
@[simp] theorem State.noMac_pos : (s.noMac).pos = s.pos := rfl
@[simp] theorem State.noMac_len : (s.noMac).len = s.len := rfl
@[simp] theorem State.noMac_li : (s.noMac).li = s.li := rfl
@[simp] theorem State.noMac_vn : (s.noMac).vn = s.vn := rfl
@[simp] theorem State.noMac_mode : (s.noMac).mode = s.mode := rfl
@[simp] theorem State.noMac_stratum : (s.noMac).stratum = s.stratum := rfl
@[simp] theorem State.noMac_poll : (s.noMac).poll = s.poll := rfl
@[simp] theorem State.noMac_prec : (s.noMac).prec = s.prec := rfl
@[simp] theorem State.noMac_rdelay : (s.noMac).rdelay = s.rdelay := rfl
@[simp] theorem State.noMac_rdisp : (s.noMac).rdisp = s.rdisp := rfl
@[simp] theorem State.noMac_refid : (s.noMac).refid = s.refid := rfl
@[simp] theorem State.noMac_refts : (s.noMac).refts = s.refts := rfl
@[simp] theorem State.noMac_orgts : (s.noMac).orgts = s.orgts := rfl
@[simp] theorem State.noMac_rects : (s.noMac).rects = s.rects := rfl
@[simp] theorem State.noMac_xmtts : (s.noMac).xmtts = s.xmtts := rfl
@[simp] theorem State.noMac_xtab : (s.noMac).xtab = s.xtab := rfl
@[simp] theorem State.noMac_xcnt : (s.noMac).xcnt = s.xcnt := rfl
@[simp] theorem State.noMac_macP : (s.noMac).macP = false := rfl
@[simp] theorem State.noMac_macKv : (s.noMac).macKv = false := rfl
@[simp] theorem State.noMac_macKey : (s.noMac).macKey = s.macKey := rfl
@[simp] theorem State.noMac_macOff : (s.noMac).macOff = s.macOff := rfl
@[simp] theorem State.noMac_macDlen : (s.noMac).macDlen = s.macDlen := rfl
@[simp] theorem State.noMac_ok : (s.noMac).ok = s.ok := rfl
@[simp] theorem State.noMac_err : (s.noMac).err = s.err := rfl
@[simp] theorem State.noMac_xle : (s.noMac).xle = s.xle := rfl
@[simp] theorem State.noMac_rst : (s.noMac).rst = s.rst := rfl
@[simp] theorem State.noMac_start : (s.noMac).start = s.start := rfl
@[simp] theorem State.noMac_lenI : (s.noMac).lenI = s.lenI := rfl
@[simp] theorem State.noMac_xidx : (s.noMac).xidx = s.xidx := rfl
@[simp] theorem State.noMac_pkt : (s.noMac).pkt = s.pkt := rfl
@[simp] theorem State.noMac_intact : (s.noMac).intact = s.intact := rfl
@[simp] theorem State.noMac_cfg : (s.noMac).cfg = s.cfg := rfl
@[simp] theorem State.noMac_turns : (s.noMac).turns = s.turns := rfl

/-! `State.takeMac` -/

@[simp] theorem State.takeMac_st (kv : Bool) (key : BitVec 32) (off dlen : Nat) : (s.takeMac kv key off dlen).st = .chk := rfl
@[simp] theorem State.takeMac_pos (kv : Bool) (key : BitVec 32) (off dlen : Nat) : (s.takeMac kv key off dlen).pos = s.len := rfl
@[simp] theorem State.takeMac_len (kv : Bool) (key : BitVec 32) (off dlen : Nat) : (s.takeMac kv key off dlen).len = s.len := rfl
@[simp] theorem State.takeMac_li (kv : Bool) (key : BitVec 32) (off dlen : Nat) : (s.takeMac kv key off dlen).li = s.li := rfl
@[simp] theorem State.takeMac_vn (kv : Bool) (key : BitVec 32) (off dlen : Nat) : (s.takeMac kv key off dlen).vn = s.vn := rfl
@[simp] theorem State.takeMac_mode (kv : Bool) (key : BitVec 32) (off dlen : Nat) : (s.takeMac kv key off dlen).mode = s.mode := rfl
@[simp] theorem State.takeMac_stratum (kv : Bool) (key : BitVec 32) (off dlen : Nat) : (s.takeMac kv key off dlen).stratum = s.stratum := rfl
@[simp] theorem State.takeMac_poll (kv : Bool) (key : BitVec 32) (off dlen : Nat) : (s.takeMac kv key off dlen).poll = s.poll := rfl
@[simp] theorem State.takeMac_prec (kv : Bool) (key : BitVec 32) (off dlen : Nat) : (s.takeMac kv key off dlen).prec = s.prec := rfl
@[simp] theorem State.takeMac_rdelay (kv : Bool) (key : BitVec 32) (off dlen : Nat) : (s.takeMac kv key off dlen).rdelay = s.rdelay := rfl
@[simp] theorem State.takeMac_rdisp (kv : Bool) (key : BitVec 32) (off dlen : Nat) : (s.takeMac kv key off dlen).rdisp = s.rdisp := rfl
@[simp] theorem State.takeMac_refid (kv : Bool) (key : BitVec 32) (off dlen : Nat) : (s.takeMac kv key off dlen).refid = s.refid := rfl
@[simp] theorem State.takeMac_refts (kv : Bool) (key : BitVec 32) (off dlen : Nat) : (s.takeMac kv key off dlen).refts = s.refts := rfl
@[simp] theorem State.takeMac_orgts (kv : Bool) (key : BitVec 32) (off dlen : Nat) : (s.takeMac kv key off dlen).orgts = s.orgts := rfl
@[simp] theorem State.takeMac_rects (kv : Bool) (key : BitVec 32) (off dlen : Nat) : (s.takeMac kv key off dlen).rects = s.rects := rfl
@[simp] theorem State.takeMac_xmtts (kv : Bool) (key : BitVec 32) (off dlen : Nat) : (s.takeMac kv key off dlen).xmtts = s.xmtts := rfl
@[simp] theorem State.takeMac_xtab (kv : Bool) (key : BitVec 32) (off dlen : Nat) : (s.takeMac kv key off dlen).xtab = s.xtab := rfl
@[simp] theorem State.takeMac_xcnt (kv : Bool) (key : BitVec 32) (off dlen : Nat) : (s.takeMac kv key off dlen).xcnt = s.xcnt := rfl
@[simp] theorem State.takeMac_macP (kv : Bool) (key : BitVec 32) (off dlen : Nat) : (s.takeMac kv key off dlen).macP = true := rfl
@[simp] theorem State.takeMac_macKv (kv : Bool) (key : BitVec 32) (off dlen : Nat) : (s.takeMac kv key off dlen).macKv = kv := rfl
@[simp] theorem State.takeMac_macKey (kv : Bool) (key : BitVec 32) (off dlen : Nat) : (s.takeMac kv key off dlen).macKey = some key := rfl
@[simp] theorem State.takeMac_macOff (kv : Bool) (key : BitVec 32) (off dlen : Nat) : (s.takeMac kv key off dlen).macOff = some off := rfl
@[simp] theorem State.takeMac_macDlen (kv : Bool) (key : BitVec 32) (off dlen : Nat) : (s.takeMac kv key off dlen).macDlen = some dlen := rfl
@[simp] theorem State.takeMac_ok (kv : Bool) (key : BitVec 32) (off dlen : Nat) : (s.takeMac kv key off dlen).ok = s.ok := rfl
@[simp] theorem State.takeMac_err (kv : Bool) (key : BitVec 32) (off dlen : Nat) : (s.takeMac kv key off dlen).err = s.err := rfl
@[simp] theorem State.takeMac_xle (kv : Bool) (key : BitVec 32) (off dlen : Nat) : (s.takeMac kv key off dlen).xle = s.xle := rfl
@[simp] theorem State.takeMac_rst (kv : Bool) (key : BitVec 32) (off dlen : Nat) : (s.takeMac kv key off dlen).rst = s.rst := rfl
@[simp] theorem State.takeMac_start (kv : Bool) (key : BitVec 32) (off dlen : Nat) : (s.takeMac kv key off dlen).start = s.start := rfl
@[simp] theorem State.takeMac_lenI (kv : Bool) (key : BitVec 32) (off dlen : Nat) : (s.takeMac kv key off dlen).lenI = s.lenI := rfl
@[simp] theorem State.takeMac_xidx (kv : Bool) (key : BitVec 32) (off dlen : Nat) : (s.takeMac kv key off dlen).xidx = s.xidx := rfl
@[simp] theorem State.takeMac_pkt (kv : Bool) (key : BitVec 32) (off dlen : Nat) : (s.takeMac kv key off dlen).pkt = s.pkt := rfl
@[simp] theorem State.takeMac_intact (kv : Bool) (key : BitVec 32) (off dlen : Nat) : (s.takeMac kv key off dlen).intact = s.intact := rfl
@[simp] theorem State.takeMac_cfg (kv : Bool) (key : BitVec 32) (off dlen : Nat) : (s.takeMac kv key off dlen).cfg = s.cfg := rfl
@[simp] theorem State.takeMac_turns (kv : Bool) (key : BitVec 32) (off dlen : Nat) : (s.takeMac kv key off dlen).turns = s.turns := rfl

/-! `State.accept` -/

@[simp] theorem State.accept_st : (s.accept).st = .done := rfl
@[simp] theorem State.accept_pos : (s.accept).pos = s.pos := rfl
@[simp] theorem State.accept_len : (s.accept).len = s.len := rfl
@[simp] theorem State.accept_li : (s.accept).li = s.li := rfl
@[simp] theorem State.accept_vn : (s.accept).vn = s.vn := rfl
@[simp] theorem State.accept_mode : (s.accept).mode = s.mode := rfl
@[simp] theorem State.accept_stratum : (s.accept).stratum = s.stratum := rfl
@[simp] theorem State.accept_poll : (s.accept).poll = s.poll := rfl
@[simp] theorem State.accept_prec : (s.accept).prec = s.prec := rfl
@[simp] theorem State.accept_rdelay : (s.accept).rdelay = s.rdelay := rfl
@[simp] theorem State.accept_rdisp : (s.accept).rdisp = s.rdisp := rfl
@[simp] theorem State.accept_refid : (s.accept).refid = s.refid := rfl
@[simp] theorem State.accept_refts : (s.accept).refts = s.refts := rfl
@[simp] theorem State.accept_orgts : (s.accept).orgts = s.orgts := rfl
@[simp] theorem State.accept_rects : (s.accept).rects = s.rects := rfl
@[simp] theorem State.accept_xmtts : (s.accept).xmtts = s.xmtts := rfl
@[simp] theorem State.accept_xtab : (s.accept).xtab = s.xtab := rfl
@[simp] theorem State.accept_xcnt : (s.accept).xcnt = s.xcnt := rfl
@[simp] theorem State.accept_macP : (s.accept).macP = s.macP := rfl
@[simp] theorem State.accept_macKv : (s.accept).macKv = s.macKv := rfl
@[simp] theorem State.accept_macKey : (s.accept).macKey = s.macKey := rfl
@[simp] theorem State.accept_macOff : (s.accept).macOff = s.macOff := rfl
@[simp] theorem State.accept_macDlen : (s.accept).macDlen = s.macDlen := rfl
@[simp] theorem State.accept_ok : (s.accept).ok = true := rfl
@[simp] theorem State.accept_err : (s.accept).err = s.err := rfl
@[simp] theorem State.accept_xle : (s.accept).xle = s.xle := rfl
@[simp] theorem State.accept_rst : (s.accept).rst = s.rst := rfl
@[simp] theorem State.accept_start : (s.accept).start = s.start := rfl
@[simp] theorem State.accept_lenI : (s.accept).lenI = s.lenI := rfl
@[simp] theorem State.accept_xidx : (s.accept).xidx = s.xidx := rfl
@[simp] theorem State.accept_pkt : (s.accept).pkt = s.pkt := rfl
@[simp] theorem State.accept_intact : (s.accept).intact = s.intact := rfl
@[simp] theorem State.accept_cfg : (s.accept).cfg = s.cfg := rfl
@[simp] theorem State.accept_turns : (s.accept).turns = s.turns := rfl

/-! `State.afterTurn` -/

@[simp] theorem State.afterTurn_st : (s.afterTurn).st = s.st := rfl
@[simp] theorem State.afterTurn_pos : (s.afterTurn).pos = s.pos := rfl
@[simp] theorem State.afterTurn_len : (s.afterTurn).len = s.len := rfl
@[simp] theorem State.afterTurn_li : (s.afterTurn).li = s.li := rfl
@[simp] theorem State.afterTurn_vn : (s.afterTurn).vn = s.vn := rfl
@[simp] theorem State.afterTurn_mode : (s.afterTurn).mode = s.mode := rfl
@[simp] theorem State.afterTurn_stratum : (s.afterTurn).stratum = s.stratum := rfl
@[simp] theorem State.afterTurn_poll : (s.afterTurn).poll = s.poll := rfl
@[simp] theorem State.afterTurn_prec : (s.afterTurn).prec = s.prec := rfl
@[simp] theorem State.afterTurn_rdelay : (s.afterTurn).rdelay = s.rdelay := rfl
@[simp] theorem State.afterTurn_rdisp : (s.afterTurn).rdisp = s.rdisp := rfl
@[simp] theorem State.afterTurn_refid : (s.afterTurn).refid = s.refid := rfl
@[simp] theorem State.afterTurn_refts : (s.afterTurn).refts = s.refts := rfl
@[simp] theorem State.afterTurn_orgts : (s.afterTurn).orgts = s.orgts := rfl
@[simp] theorem State.afterTurn_rects : (s.afterTurn).rects = s.rects := rfl
@[simp] theorem State.afterTurn_xmtts : (s.afterTurn).xmtts = s.xmtts := rfl
@[simp] theorem State.afterTurn_xtab : (s.afterTurn).xtab = s.xtab := rfl
@[simp] theorem State.afterTurn_xcnt : (s.afterTurn).xcnt = s.xcnt := rfl
@[simp] theorem State.afterTurn_macP : (s.afterTurn).macP = s.macP := rfl
@[simp] theorem State.afterTurn_macKv : (s.afterTurn).macKv = s.macKv := rfl
@[simp] theorem State.afterTurn_macKey : (s.afterTurn).macKey = s.macKey := rfl
@[simp] theorem State.afterTurn_macOff : (s.afterTurn).macOff = s.macOff := rfl
@[simp] theorem State.afterTurn_macDlen : (s.afterTurn).macDlen = s.macDlen := rfl
@[simp] theorem State.afterTurn_ok : (s.afterTurn).ok = s.ok := rfl
@[simp] theorem State.afterTurn_err : (s.afterTurn).err = s.err := rfl
@[simp] theorem State.afterTurn_xle : (s.afterTurn).xle = s.xle := rfl
@[simp] theorem State.afterTurn_rst : (s.afterTurn).rst = s.rst := rfl
@[simp] theorem State.afterTurn_start : (s.afterTurn).start = s.start := rfl
@[simp] theorem State.afterTurn_lenI : (s.afterTurn).lenI = s.lenI := rfl
@[simp] theorem State.afterTurn_xidx : (s.afterTurn).xidx = s.xidx := rfl
@[simp] theorem State.afterTurn_pkt : (s.afterTurn).pkt = s.pkt := rfl
@[simp] theorem State.afterTurn_intact : (s.afterTurn).intact = s.intact := rfl
@[simp] theorem State.afterTurn_cfg : (s.afterTurn).cfg = s.cfg := rfl
@[simp] theorem State.afterTurn_turns : (s.afterTurn).turns = s.turns.tail := rfl

end Sys2Proof.Machine
end

