-- ==== Sys2Proof/Laws/Memory.lean ====
section
/-! SUPPORT. The laws of the packet buffer: read after write, and the canonical form kept by every memory operation. -/

namespace Sys2Proof.Machine

@[simp] theorem Memory.read_nil (a : Nat) : Memory.read [] a = Memory.blank := rfl

@[simp] theorem Memory.read_cons (c : Host.Cell) (m : Memory) (a : Nat) :
    Memory.read (c :: m) a = if c.1 = a then c.2 else Memory.read m a := rfl

theorem Memory.wf_nil : Memory.wf [] := by simp [Memory.wf]

theorem Memory.wf_cons {c : Host.Cell} {m : Memory} :
    Memory.wf (c :: m) ↔
      (∀ d ∈ m, c.1 < d.1) ∧ c.2 ≠ Memory.blank ∧ Memory.wf m := by
  simp only [Memory.wf, List.pairwise_cons, List.forall_mem_cons]
  tauto

/-- An address below every listed one reads as blank. -/
theorem Memory.read_of_lt {m : Memory} {a : Nat} (h : ∀ d ∈ m, a < d.1) :
    Memory.read m a = Memory.blank := by
  induction m with
  | nil => rfl
  | cons c m ih =>
    have hc := h c (by simp)
    rw [Memory.read_cons, if_neg (by omega), ih fun d hd => h d (by simp [hd])]

/-- Reading back: the byte written at its own address, every other byte as before. -/
theorem Memory.read_write {m : Memory} (h : Memory.wf m) (a : Nat) (b : Byte) (k : Nat) :
    Memory.read (Memory.write m a b) k = if k = a then b else Memory.read m k := by
  induction m with
  | nil =>
    unfold Memory.write
    by_cases hk : k = a <;> by_cases hb : b = Memory.blank <;> simp_all [eq_comm]
  | cons c m ih =>
    obtain ⟨hlt, _, hm⟩ := Memory.wf_cons.mp h
    unfold Memory.write
    rcases Nat.lt_trichotomy a c.1 with h1 | h1 | h1
    · have hrest : Memory.read (c :: m) a = Memory.blank :=
        Memory.read_of_lt (by simpa [h1] using fun x y hd => h1.trans (hlt (x, y) hd))
      by_cases hk : k = a
      · subst hk
        by_cases hb : b = Memory.blank <;> simp_all
      · by_cases hb : b = Memory.blank <;> simp [h1, hk, hb, Ne.symm hk]
    · have hrest : Memory.read m a = Memory.blank := Memory.read_of_lt fun d hd => h1 ▸ hlt d hd
      by_cases hk : k = a
      · subst hk
        by_cases hb : b = Memory.blank <;> simp_all
      · have hck : c.1 ≠ k := by omega
        have hkc : k ≠ c.1 := by omega
        by_cases hb : b = Memory.blank <;> simp [h1, hb, hck, hkc]
    · rw [if_neg (by omega), if_neg (by omega), Memory.read_cons, Memory.read_cons, ih hm]
      by_cases hk : c.1 = k
      · rw [if_pos hk, if_pos hk, if_neg (by omega)]
      · rw [if_neg hk, if_neg hk]

/-- A write changes no other address, whatever the form of the memory. -/
theorem Memory.read_write_other (m : Memory) {a k : Nat} (h : k ≠ a) (b : Byte) :
    Memory.read (Memory.write m a b) k = Memory.read m k := by
  have h' : a ≠ k := Ne.symm h
  induction m with
  | nil => unfold Memory.write; split <;> simp [h']
  | cons c m ih =>
    unfold Memory.write
    split
    · split <;> simp [h']
    · split
      · subst a; split <;> simp [h']
      · simp [ih]

/-- The addresses a write can leave listed. -/
theorem Memory.mem_write {m : Memory} {a : Nat} {b : Byte} {c : Host.Cell} (h : c ∈ Memory.write m a b) :
    c ∈ m ∨ (c = (a, b) ∧ b ≠ Memory.blank) := by
  induction m with
  | nil =>
    unfold Memory.write at h
    split at h <;> simp_all
  | cons d m ih =>
    unfold Memory.write at h
    split at h
    · split at h
      · exact .inl h
      · rcases List.mem_cons.mp h with rfl | h
        · exact .inr ⟨rfl, ‹_›⟩
        · exact .inl h
    · split at h
      · split at h
        · exact .inl (List.mem_cons_of_mem _ h)
        · rcases List.mem_cons.mp h with rfl | h
          · exact .inr ⟨rfl, ‹_›⟩
          · exact .inl (List.mem_cons_of_mem _ h)
      · rcases List.mem_cons.mp h with rfl | h
        · exact .inl List.mem_cons_self
        · exact (ih h).imp_left (List.mem_cons_of_mem _)

/-- The host's write keeps the canonical form. -/
theorem Memory.write_wf {m : Memory} (h : Memory.wf m) (a : Nat) (b : Byte) :
    Memory.wf (Memory.write m a b) := by
  induction m with
  | nil =>
    unfold Memory.write
    split
    · exact Memory.wf_nil
    · exact Memory.wf_cons.mpr ⟨by simp, ‹_›, Memory.wf_nil⟩
  | cons c m ih =>
    obtain ⟨hlt, hc, hm⟩ := Memory.wf_cons.mp h
    unfold Memory.write
    split
    · split
      · exact h
      · refine Memory.wf_cons.mpr ⟨fun d hd => ?_, ‹_›, h⟩
        rcases List.mem_cons.mp hd with rfl | hd
        · assumption
        · exact Nat.lt_trans ‹_› (hlt d hd)
    · split
      · split
        · exact hm
        · exact Memory.wf_cons.mpr ⟨fun d hd => by subst a; exact hlt d hd, ‹_›, hm⟩
      · refine Memory.wf_cons.mpr ⟨fun d hd => ?_, hc, ih hm⟩
        rcases Memory.mem_write hd with hd | ⟨rfl, _⟩
        · exact hlt d hd
        · show c.1 < a
          omega

/-- A write inside the address space stays inside it. -/
theorem Memory.write_within {w : Nat} {m : Memory} (h : Memory.within w m) {a : Nat} (ha : a < 2 ^ w) (b : Byte) :
    Memory.within w (Memory.write m a b) := fun c hc => by
  rcases Memory.mem_write hc with hc | ⟨rfl, _⟩
  · exact h c hc
  · exact ha

/-- Writing consecutive bytes keeps the canonical form. -/
theorem Memory.writeAll_wf {m : Memory} (h : Memory.wf m) (a : Nat) (bs : List Byte) :
    Memory.wf (Memory.writeAll m a bs) := by
  induction bs generalizing m a with
  | nil => exact h
  | cons b bs ih => exact ih (Memory.write_wf h a b) (a + 1)

/-- Reading back consecutive bytes. -/
theorem Memory.read_writeAll {m : Memory} (h : Memory.wf m) (a : Nat) (bs : List Byte) (k : Nat) :
    Memory.read (Memory.writeAll m a bs) k =
      if a ≤ k ∧ k < a + bs.length then bs.getD (k - a) 0 else Memory.read m k := by
  induction bs generalizing m a with
  | nil => simp [Memory.writeAll]
  | cons b bs ih =>
    rw [Memory.writeAll, ih (Memory.write_wf h a b) (a + 1), Memory.read_write h, List.length_cons]
    rcases Nat.lt_trichotomy k a with h1 | h1 | h1
    · rw [if_neg (by omega), if_neg (by omega), if_neg (by omega)]
    · subst h1
      simp
    · by_cases h2 : k < a + 1 + bs.length
      · obtain ⟨j, rfl⟩ : ∃ j, k = a + 1 + j := ⟨k - (a + 1), by omega⟩
        rw [if_pos (by omega), if_pos (by omega),
          show a + 1 + j - a = j + 1 by omega, show a + 1 + j - (a + 1) = j by omega]
        rfl
      · rw [if_neg (by omega), if_neg (by omega), if_neg (by omega)]

/-- Reset memory lists nothing. -/
theorem State.reset_pkt_wf : Memory.wf State.reset.pkt := Memory.wf_nil

end Sys2Proof.Machine
end

