-- ==== Sys2Proof/Laws/Ops.lean ====
section
/-! SUPPORT. One lemma for each shared operation that says everything it can answer; proofs cite these and do not unfold
the operation again. -/

namespace Sys2Proof.Machine

/-! ### Shapes of a meaning -/

theorem whenEnabled_next {c : Prop} [Decidable c] {k : Result} {t : State} :
    whenEnabled c k = .next t ↔ c ∧ k = .next t := by
  unfold whenEnabled
  split <;> simp_all

theorem whenEnabled_update {c : Prop} [Decidable c] {u t : State} :
    whenEnabled c (.next u) = .next t ↔ c ∧ u = t := by
  rw [whenEnabled_next]
  simp

theorem whenEnabled_fault {c : Prop} [Decidable c] {k : Result} {f : Fault} :
    whenEnabled c k = .fault f ↔ c ∧ k = .fault f := by
  unfold whenEnabled
  split <;> simp_all

@[simp] theorem whenEnabled_pos {c : Prop} [Decidable c] {k : Result} (h : c) : whenEnabled c k = k :=
  if_pos h

@[simp] theorem withRead_ok {α : Type} (v : α) (k : α → Result) : withRead (.ok v) k = k v := rfl

@[simp] theorem withRead_error {α : Type} (f : Fault) (k : α → Result) :
    withRead (.error f) k = .fault f := rfl

theorem withRead_next {α : Type} {r : Except Fault α} {k : α → Result} {t : State} :
    withRead r k = .next t ↔ ∃ v, r = .ok v ∧ k v = .next t := by
  cases r <;> simp

theorem withRead_fault {α : Type} {r : Except Fault α} {k : α → Result} {f : Fault} :
    withRead r k = .fault f ↔ r = .error f ∨ ∃ v, r = .ok v ∧ k v = .fault f := by
  cases r <;> simp

theorem dispatchTo_next {v : BitVec 3} {f : Fsm} {s t : State} :
    dispatchTo v f s = .next t ↔ (s.At .disp ∧ s.vn = some v) ∧ s.goto f = t := by
  simp [dispatchTo, whenEnabled_next]

/-! ### REM and MemRead -/

@[simp] theorem State.sel_rem (s : State) : s.sel.rem = s.rem := rfl

theorem memRead_eq (s : State) (a n : Nat) :
    memRead s a n =
      if a + n ≤ s.len then .ok ((List.range n).map fun i => s.byte (a + i))
      else .error .boundsViolation := rfl

theorem memRead_ok {s : State} {a n : Nat} (h : a + n ≤ s.len) :
    memRead s a n = .ok ((List.range n).map fun i => s.byte (a + i)) := if_pos h

/-- The bytes a pointer of the result names, when the packet is as it was or there are none. -/
theorem State.packetBytes_ok {s : State} {a n : Nat} (hi : s.intact = true ∨ n = 0) (h : a + n ≤ s.len) :
    s.packetBytes a n = some ((List.range n).map fun i => s.byte (a + i)) := by
  rw [State.packetBytes, if_pos hi, memRead_ok h]
  rfl

/-- Once the packet has changed, a pointer names no bytes. -/
theorem State.packetBytes_changed {s : State} {a n : Nat} (hi : s.intact = false) (h : n ≠ 0) :
    s.packetBytes a n = none := if_neg (by simp [hi, h])

/-- Where REM ≥ n the n bytes at POS lie in the packet. -/
theorem State.pos_add_le {s : State} {n : Nat} (h : (n : Int) ≤ s.rem) :
    s.pos + n ≤ s.len := by
  unfold State.rem at h
  omega

/-! ### Big-endian values -/

theorem be_append (bs cs : List Byte) : be (bs ++ cs) = be bs * 256 ^ cs.length + be cs := by
  have key : ∀ (ds : List Byte) (n : Nat),
      ds.foldl (fun n b => 256 * n + b.toNat) n = n * 256 ^ ds.length + be ds := by
    intro ds
    induction ds with
    | nil => simp [be]
    | cons d ds ih =>
      intro n
      rw [be, List.foldl_cons, List.foldl_cons, ih, ih (256 * 0 + d.toNat), List.length_cons,
        Nat.pow_succ]
      ring
  rw [be, List.foldl_append, key cs]
  rfl

theorem toNat_append_byte {n : Nat} (x : BitVec n) (b : Byte) : (x ++ b).toNat = 256 * x.toNat + b.toNat := by
  rw [BitVec.toNat_append, ← Nat.shiftLeft_add_eq_or_of_lt b.isLt, Nat.shiftLeft_eq]
  omega

theorem be_one (a : Byte) : BitVec.ofNat 8 (be [a]) = a := by simp [be]

theorem be_two (a b : Byte) : BitVec.ofNat 16 (be [a, b]) = a ++ b := by
  have ha := a.isLt
  have hb := b.isLt
  apply BitVec.eq_of_toNat_eq
  rw [toNat_append_byte, BitVec.toNat_ofNat]
  simp only [be, List.foldl]
  omega

theorem be_four (a b c d : Byte) : BitVec.ofNat 32 (be [a, b, c, d]) = a ++ b ++ c ++ d := by
  have ha := a.isLt
  have hb := b.isLt
  have hc := c.isLt
  have hd := d.isLt
  apply BitVec.eq_of_toNat_eq
  rw [toNat_append_byte, toNat_append_byte, toNat_append_byte, BitVec.toNat_ofNat]
  simp only [be, List.foldl]
  omega

/-! ### The field readers -/

theorem rdU8_eq (s : State) (a : Nat) :
    rdU8 s a = if a + 1 ≤ s.len then .ok (s.byte a) else .error .boundsViolation := by
  rw [rdU8, memRead_eq]
  split
  · exact congrArg Except.ok (be_one _)
  · rfl

theorem rdU16_eq (s : State) (a : Nat) :
    rdU16 s a =
      if a + 2 ≤ s.len then .ok (s.byte a ++ s.byte (a + 1)) else .error .boundsViolation := by
  rw [rdU16, memRead_eq]
  split
  · exact congrArg Except.ok (be_two _ _)
  · rfl

theorem rdU32_eq (s : State) (a : Nat) :
    rdU32 s a =
      if a + 4 ≤ s.len then
        .ok (s.byte a ++ s.byte (a + 1) ++ s.byte (a + 2) ++ s.byte (a + 3))
      else .error .boundsViolation := by
  rw [rdU32, memRead_eq]
  split
  · exact congrArg Except.ok (be_four _ _ _ _)
  · rfl

/-- The timestamp whose eight bytes begin at `a`. -/
def State.tsAt (s : State) (a : Nat) : Timestamp :=
  { sec := s.byte a ++ s.byte (a + 1) ++ s.byte (a + 2) ++ s.byte (a + 3),
    frac := s.byte (a + 4) ++ s.byte (a + 5) ++ s.byte (a + 6) ++ s.byte (a + 7) }

theorem rdTs64_ok {s : State} {a : Nat} (h : a + 8 ≤ s.len) : rdTs64 s a = .ok (s.tsAt a) := by
  rw [rdTs64, rdU32_eq, rdU32_eq, if_pos (by omega), if_pos (by omega)]
  rfl

/-- The header of a packet of at least 48 bytes. -/
def State.headerBytes (s : State) : Header :=
  { li := byte0Li (s.byte 0), vn := byte0Vn (s.byte 0), mode := byte0Mode (s.byte 0),
    stratum := s.byte 1, poll := s.byte 2, prec := s.byte 3,
    rdelay := s.byte 4 ++ s.byte 5 ++ s.byte 6 ++ s.byte 7,
    rdisp := s.byte 8 ++ s.byte 9 ++ s.byte 10 ++ s.byte 11,
    refid := s.byte 12 ++ s.byte 13 ++ s.byte 14 ++ s.byte 15,
    refts := s.tsAt 16, orgts := s.tsAt 24, rects := s.tsAt 32, xmtts := s.tsAt 40 }

/-- With 48 bytes in the packet every reader of H.LOAD is defined. -/
theorem readHeader_ok {s : State} (h : 48 ≤ s.len) : readHeader s = .ok s.headerBytes := by
  simp only [readHeader, rdFix32, rdU8_eq, rdU32_eq, rdTs64_ok (s := s) (show 16 + 8 ≤ _ by omega),
    rdTs64_ok (s := s) (show 24 + 8 ≤ _ by omega), rdTs64_ok (s := s) (show 32 + 8 ≤ _ by omega),
    rdTs64_ok (s := s) (show 40 + 8 ≤ _ by omega)]
  rw [if_pos (by omega), if_pos (by omega), if_pos (by omega), if_pos (by omega), if_pos (by omega),
    if_pos (by omega), if_pos (by omega)]
  rfl

/-! ### X.FALL, M.KEY, M.FULL -/

/-- Everything X.FALL can do on one row. -/
theorem fallOn_next {l : BitVec 16} {c : Prop} [Decidable c] {s t : State} :
    fallOn l c s = .next t ↔
      (s.At .ext ∧ 4 ≤ s.rem) ∧
        (s.byte (s.pos + 2) ++ s.byte (s.pos + 3) = l ∧ c) ∧ s.fallBack = t := by
  rw [fallOn, whenEnabled_next]
  refine and_congr_right fun h => ?_
  have hp := State.pos_add_le (n := 4) h.2
  rw [rdU16_eq, if_pos (by omega), withRead_ok, whenEnabled_next]
  simp

/-- Everything M.KEY and M.FULL can do, where `c` leaves at least four bytes. -/
theorem keyedMac_next {c : Prop} [Decidable c] {s t : State} (hc : c → 4 ≤ s.rem) :
    keyedMac c s = .next t ↔
      (s.At .mac ∧ c) ∧
        s.takeMac true
          (s.byte s.pos ++ s.byte (s.pos + 1) ++ s.byte (s.pos + 2)
            ++ s.byte (s.pos + 3))
          (s.pos + 4) (s.len - s.pos - 4) = t := by
  rw [keyedMac, whenEnabled_next]
  refine and_congr_right fun h => ?_
  have hp := State.pos_add_le (n := 4) (hc h.2)
  rw [rdU32_eq, if_pos (by omega), withRead_ok]
  simp

/-! ### Fetch and the turn of the block -/

theorem fetch_ext {s : State} (h : s.st = .ext) (hr : 4 ≤ s.rem) :
    fetch s = .ok [s.byte s.pos, s.byte (s.pos + 1), s.byte (s.pos + 2),
      s.byte (s.pos + 3)] := by
  simp only [fetch, h, if_pos hr]
  rw [memRead_ok (State.pos_add_le (n := 4) hr)]
  rfl

theorem fetch_disp {s : State} {v : BitVec 3} (h : s.st = .disp) (hv : s.vn = some v) :
    fetch s = .ok [versionByte v] := by
  simp [fetch, h, hv]

/-- The fetch is defined in every state. -/
theorem fetch_ok (s : State) : ∃ u, fetch s = .ok u := by
  cases h : s.st
  case ext =>
    by_cases hr : 4 ≤ s.rem
    · exact ⟨_, fetch_ext h hr⟩
    · exact ⟨[], by simp [fetch, h, hr]⟩
  case disp => cases hv : s.vn <;> simp [fetch, h, hv]
  all_goals exact ⟨[], by simp [fetch, h]⟩

/-- Everything a turn of the block can do when it answers a next state. -/
theorem blockTurn_next {s t : State} (h : blockTurn s = .next t) :
    (s.rst = true ∧ t = s.resetBlock) ∨
    (s.rst = false ∧ ∃ u i, fetch s = .ok u ∧ decode s.sel u = .ok i ∧ exec i s = .next t) ∨
    (s.rst = false ∧ ∃ u, fetch s = .ok u ∧ decode s.sel u = .error .waiting ∧ t = s) := by
  unfold blockTurn at h
  split at h
  · left
    exact ⟨‹_›, by simpa using h.symm⟩
  · have hr : s.rst = false := by simpa using ‹¬ s.rst = true›
    obtain ⟨u, hu, h⟩ := withRead_next.mp h
    right
    split at h
    · exact .inl ⟨hr, u, _, hu, ‹_›, h⟩
    · rename_i e he
      cases e with
      | waiting => exact .inr ⟨hr, u, hu, he, by simpa [noSelection] using h.symm⟩
      | noVersion => simp [noSelection] at h
      | noWord => simp [noSelection] at h
      | remNegative => simp [noSelection] at h

/-- On the block's turn a step is `blockTurn`, the turn taken off the list. -/
theorem step_block {s : State} (h : s.blockMoves) : step s = blockTurn s.afterTurn := by
  obtain h | h := h
  · have ht : s.turns = [] := by simpa using h
    have hs : s.afterTurn = s := by
      cases s
      simp_all [State.afterTurn]
    rw [hs]
    simp [step, ht]
  · obtain ⟨rest, ht⟩ : ∃ rest, s.turns = .block :: rest := by
      cases hs : s.turns with
      | nil => simp [hs] at h
      | cons a r => exact ⟨r, by simp_all⟩
    simp [step, ht, State.afterTurn]

/-- Which agent moved, when a step answers a next state. -/
theorem step_next {s t : State} (h : step s = .next t) :
    (s.blockMoves ∧ blockTurn s.afterTurn = .next t) ∨
    (∃ a, s.turns.head? = some (.host a) ∧ hostTurn a s.afterTurn = .next t) := by
  cases hs : s.turns with
  | nil =>
    have hb : s.blockMoves := .inl (by simp [hs])
    exact .inl ⟨hb, by rw [← step_block hb]; exact h⟩
  | cons a r =>
    cases a with
    | block =>
      have hb : s.blockMoves := .inr (by simp [hs])
      exact .inl ⟨hb, by rw [← step_block hb]; exact h⟩
    | host a =>
      refine .inr ⟨a, by simp, ?_⟩
      simpa [step, hs, State.afterTurn] using h

/-- Everything a turn of the host can do when it answers a next state. -/
theorem hostTurn_next {a : HostAct} {s t : State} (h : hostTurn a s = .next t) :
    (∃ k b, a = .writePkt k b ∧ k < 2 ^ s.cfg.lenW ∧ (s.busy = true → s.len ≤ k) ∧
      t = s.hostWrite k b) ∨
    (∃ n, a = .setLen n ∧ n ≤ s.cfg.lenMax ∧ t = { s with lenI := n }) ∨
    (∃ b, a = .setStart b ∧ t = { s with start := b }) ∨
    (a = .setRst true ∧ t = { s.resetBlock with rst := true }) ∨
    (a = .setRst false ∧ t = { s with rst := false }) ∨
    (∃ i, a = .setXidx i ∧ i < 2 ^ s.cfg.xcntW ∧ t = { s with xidx := i }) ∨
    (∃ p, a = .read p ∧ (s.port p).isSome ∧ t = s) := by
  cases a with
  | writePkt k b =>
    simp only [hostTurn] at h
    split at h
    · simp at h
    · split at h
      · simp at h
      · rename_i hk hn
        exact .inl ⟨k, b, rfl, by omega, fun hb => Nat.not_lt.mp fun hl => hn ⟨hb, hl⟩, by simpa using h.symm⟩
  | setLen n =>
    simp only [hostTurn] at h
    split at h <;> simp_all
  | setStart b => simp_all [hostTurn]
  | setRst b => cases b <;> simp_all [hostTurn]
  | setXidx i =>
    simp only [hostTurn] at h
    split at h <;> simp_all
  | read p =>
    simp only [hostTurn] at h
    split at h <;> simp_all

end Sys2Proof.Machine
end

