-- ==== Sys2Proof/Laws/Encoding.lean ====
section
/-! SUPPORT. Small facts about the units of packet bits and their encodings. -/

namespace Sys2Proof

open Sys2Proof.Machine

theorem toNat_extractLow (l : BitVec 16) : (l.extractLsb' 0 8).toNat = l.toNat % 256 := by
  simp [BitVec.extractLsb'_toNat]

theorem toNat_extractHigh (l : BitVec 16) : (l.extractLsb' 8 8).toNat = l.toNat / 256 := by
  have := l.isLt
  rw [BitVec.extractLsb'_toNat, Nat.shiftRight_eq_div_pow]
  omega

/-- An extension header as a number: 65536·T + L. -/
theorem unitNat_extHeaderBytes (t l : BitVec 16) :
    unitNat (extHeaderBytes t l) = 65536 * t.toNat + l.toNat := by
  simp only [unitNat, extHeaderBytes, List.foldl_cons, List.foldl_nil, toNat_extractLow,
    toNat_extractHigh]
  omega

theorem and_three (n : Nat) : n &&& 3 = n % 4 := Nat.and_two_pow_sub_one_eq_mod n 2

theorem and_low16 (n : Nat) : n &&& 0xFFFF = n % 65536 := Nat.and_two_pow_sub_one_eq_mod n 16

theorem toNat_unitWord (a b c d : Byte) :
    (unitWord a b c d).toNat = 256 * (256 * (256 * a.toNat + b.toNat) + c.toNat) + d.toNat := by
  rw [unitWord, toNat_append_byte, toNat_append_byte, toNat_append_byte]

theorem toNat_wordLen (w : BitVec 32) : (wordLen w).toNat = w.toNat % 65536 := by
  simp [wordLen, BitVec.extractLsb'_toNat]

theorem toNat_wordType (w : BitVec 32) : (wordType w).toNat = w.toNat / 65536 := by
  have := w.isLt
  rw [wordType, BitVec.extractLsb'_toNat, Nat.shiftRight_eq_div_pow]
  omega

/-- The word of an extension header holds its type and its length. -/
theorem wordLen_unitWord (a b c d : Byte) : wordLen (unitWord a b c d) = c ++ d := by
  have := c.isLt
  have := d.isLt
  apply BitVec.eq_of_toNat_eq
  rw [toNat_wordLen, toNat_unitWord, toNat_append_byte]
  omega

theorem wordType_unitWord (a b c d : Byte) : wordType (unitWord a b c d) = a ++ b := by
  have := a.isLt
  have := b.isLt
  have := c.isLt
  have := d.isLt
  apply BitVec.eq_of_toNat_eq
  rw [toNat_wordType, toNat_unitWord, toNat_append_byte]
  omega

/-- The tests of `decodeWord` on the low bits, as tests of L. -/
theorem word_and_three (w n : BitVec 32) (hn : n.toNat < 4) :
    w &&& 0x00000003 = n ↔ (wordLen w).toNat % 4 = n.toNat := by
  rw [← BitVec.toNat_inj, BitVec.toNat_and, toNat_wordLen,
    show (0x00000003 : BitVec 32).toNat = 3 from rfl, and_three]
  omega

theorem word_and_low16 (w : BitVec 32) : w &&& 0x0000FFFF = 0 ↔ wordLen w = 0 := by
  rw [← BitVec.toNat_inj, ← BitVec.toNat_inj, BitVec.toNat_and, toNat_wordLen,
    show (0x0000FFFF : BitVec 32).toNat = 0xFFFF from rfl, and_low16]
  rfl

/-- The row a word selects, as tests of its length (30_encoding.md R85). -/
theorem decodeWord_eq (rem : Int) (w : BitVec 32) :
    decodeWord rem w =
      if (wordLen w).toNat % 4 = 1 then .xFallMod1 (wordLen w)
      else if (wordLen w).toNat % 4 = 2 then .xFallMod2 (wordLen w)
      else if (wordLen w).toNat % 4 = 3 then .xFallMod3 (wordLen w)
      else if wordLen w = 0 then .xFallZero
      else if rem < ((wordLen w).toNat : Int) then .xFallOver (wordLen w)
      else .xTake (wordType w) (wordLen w) := by
  rw [decodeWord]
  refine if_congr (word_and_three w 1 (by decide)) rfl (if_congr (word_and_three w 2 (by decide)) rfl
    (if_congr (word_and_three w 3 (by decide)) rfl (if_congr (word_and_low16 w) rfl rfl)))

/-- An extension header as a word. -/
theorem unitWord_extHeader (t l : BitVec 16) :
    unitWord (t.extractLsb' 8 8) (t.extractLsb' 0 8) (l.extractLsb' 8 8) (l.extractLsb' 0 8) = t ++ l := by
  have := t.isLt
  have := l.isLt
  apply BitVec.eq_of_toNat_eq
  rw [toNat_unitWord, toNat_extractHigh, toNat_extractHigh, toNat_extractLow, toNat_extractLow,
    BitVec.toNat_append, ← Nat.shiftLeft_add_eq_or_of_lt l.isLt, Nat.shiftLeft_eq]
  omega

/-- Four bytes are the extension header of the two 16-bit values they hold. -/
theorem extHeaderBytes_append (a b c d : Byte) : extHeaderBytes (a ++ b) (c ++ d) = [a, b, c, d] := by
  have high : ∀ x y : Byte, (x ++ y : BitVec 16).extractLsb' 8 8 = x := fun x y => by
    have := y.isLt
    apply BitVec.eq_of_toNat_eq
    rw [toNat_extractHigh, toNat_append_byte]
    omega
  have low : ∀ x y : Byte, (x ++ y : BitVec 16).extractLsb' 0 8 = y := fun x y => by
    have := y.isLt
    apply BitVec.eq_of_toNat_eq
    rw [toNat_extractLow, toNat_append_byte]
    omega
  rw [extHeaderBytes, high, low, high, low]

end Sys2Proof
end

