-- ==== Sys2Proof/Laws/Exec.lean ====
section
/-! SUPPORT. What an operation can do, once for all: `exec i s` answers `t` exactly when `Takes i s t`. Proofs about every
operation take `Takes` apart and never unfold a meaning. -/

namespace Sys2Proof.Machine

/-- T = the 16-bit value at POS. -/
def State.typeAtPos (s : State) : BitVec 16 := s.byte s.pos ++ s.byte (s.pos + 1)

/-- L = the 16-bit value at POS + 2. -/
def State.lenAtPos (s : State) : BitVec 16 := s.byte (s.pos + 2) ++ s.byte (s.pos + 3)

/-- The 32-bit value at POS. -/
def State.keyAtPos (s : State) : BitVec 32 :=
  s.byte s.pos ++ s.byte (s.pos + 1) ++ s.byte (s.pos + 2) ++ s.byte (s.pos + 3)

/-- The step relation of the operations: enabling condition and effect. -/
inductive Takes : Instr → State → State → Prop
  | start {s : State} (hr : s.rst = false) (hs : s.st = .idle ∨ s.st = .done) (hp : s.start = true) :
      Takes .start s s.startRun
  | hTrunc {s : State} (h : s.At .hdr) (hl : s.len < 48) : Takes .hTrunc s (s.raise .truncated)
  | hLoad {s : State} (h : s.At .hdr) (hl : 48 ≤ s.len) :
      Takes .hLoad s (s.loadHeader s.headerBytes)
  | dV4 {s : State} (h : s.At .disp) (hv : s.vn = some 4) : Takes .dV4 s (s.goto .ext)
  | dLegacy0 {s : State} (h : s.At .disp) (hv : s.vn = some 0) : Takes .dLegacy0 s (s.goto .mac)
  | dLegacy1 {s : State} (h : s.At .disp) (hv : s.vn = some 1) : Takes .dLegacy1 s (s.goto .mac)
  | dLegacy2 {s : State} (h : s.At .disp) (hv : s.vn = some 2) : Takes .dLegacy2 s (s.goto .mac)
  | dLegacy3 {s : State} (h : s.At .disp) (hv : s.vn = some 3) : Takes .dLegacy3 s (s.goto .mac)
  | dHigh5 {s : State} (h : s.At .disp) (hv : s.vn = some 5) : Takes .dHigh5 s (s.goto s.highTarget)
  | dHigh6 {s : State} (h : s.At .disp) (hv : s.vn = some 6) : Takes .dHigh6 s (s.goto s.highTarget)
  | dHigh7 {s : State} (h : s.At .disp) (hv : s.vn = some 7) : Takes .dHigh7 s (s.goto s.highTarget)
  | xStop {s : State} (h : s.At .ext) (hr : s.rem < 4) : Takes .xStop s (s.goto .mac)
  | xFallMod1 {s : State} (h : s.At .ext) (hr : 4 ≤ s.rem) (hl : s.lenAtPos.toNat % 4 = 1) :
      Takes (.xFallMod1 s.lenAtPos) s s.fallBack
  | xFallMod2 {s : State} (h : s.At .ext) (hr : 4 ≤ s.rem) (hl : s.lenAtPos.toNat % 4 = 2) :
      Takes (.xFallMod2 s.lenAtPos) s s.fallBack
  | xFallMod3 {s : State} (h : s.At .ext) (hr : 4 ≤ s.rem) (hl : s.lenAtPos.toNat % 4 = 3) :
      Takes (.xFallMod3 s.lenAtPos) s s.fallBack
  | xFallZero {s : State} (h : s.At .ext) (hr : 4 ≤ s.rem) (hl : s.lenAtPos = 0) :
      Takes .xFallZero s s.fallBack
  | xFallOver {s : State} (h : s.At .ext) (hr : 4 ≤ s.rem) (hl : s.lenAtPos.toNat % 4 = 0)
      (hz : s.lenAtPos.toNat ≠ 0) (ho : s.rem < (s.lenAtPos.toNat : Int)) :
      Takes (.xFallOver s.lenAtPos) s s.fallBack
  | xTake {s : State} (h : s.At .ext) (hv : xValid s.lenAtPos s.rem) :
      Takes (.xTake s.typeAtPos s.lenAtPos) s (s.takeField s.typeAtPos s.lenAtPos)
  | mNone {s : State} (h : s.At .mac) (hr : s.rem = 0) : Takes .mNone s s.noMac
  | mShort {s : State} (h : s.At .mac) (h0 : 0 < s.rem) (hr : s.rem < 4)
      (hc : s.cfg.shortMac = .acceptNoKey) :
      Takes .mShort s (s.takeMac false 0 s.pos (s.len - s.pos))
  | mShortFails {s : State} (h : s.At .mac) (h0 : 0 < s.rem) (hr : s.rem < 4)
      (hc : s.cfg.shortMac = .truncated) : Takes .mShort s (s.raise .truncated)
  | mKey {s : State} (h : s.At .mac) (hr : s.rem = 4) :
      Takes .mKey s
        (s.takeMac true s.keyAtPos (s.pos + 4) (s.len - s.pos - 4))
  | mFull {s : State} (h : s.At .mac) (hr : 4 < s.rem) :
      Takes .mFull s
        (s.takeMac true s.keyAtPos (s.pos + 4) (s.len - s.pos - 4))
  | cOk {s : State} (h : s.At .chk) (hp : s.pos = s.len) : Takes .cOk s s.accept
  | cTrail {s : State} (h : s.At .chk) (hp : s.pos ≠ s.len) : Takes .cTrail s (s.raise .trailingData)

/-- Everything X.TAKE can do. -/
theorem execXTake_next {ty l : BitVec 16} {s t : State} :
    execXTake ty l s = .next t ↔
      s.At .ext ∧ xValid s.lenAtPos s.rem ∧ s.typeAtPos = ty ∧ s.lenAtPos = l ∧
        s.takeField s.typeAtPos s.lenAtPos = t := by
  rw [execXTake, whenEnabled_next]
  constructor
  · rintro ⟨⟨h, hr⟩, hk⟩
    have hp := State.pos_add_le (n := 4) hr
    rw [rdU16_eq, if_pos (by omega), withRead_ok, rdU16_eq, if_pos (by omega), withRead_ok,
      whenEnabled_next] at hk
    obtain ⟨⟨h1, h2, h3⟩, h4⟩ := hk
    exact ⟨h, h3, h1, h2, by cases h4; rfl⟩
  · rintro ⟨h, hv, h1, h2, h4⟩
    have hr : 4 ≤ s.rem := by omega
    have hp := State.pos_add_le (n := 4) hr
    refine ⟨⟨h, hr⟩, ?_⟩
    rw [rdU16_eq, if_pos (by omega), withRead_ok, rdU16_eq, if_pos (by omega), withRead_ok,
      whenEnabled_next]
    exact ⟨⟨h1, h2, hv⟩, congrArg _ h4⟩

theorem Takes.of_exec {i : Instr} {s t : State} (h : exec i s = .next t) : Takes i s t := by
  cases i with
  | start => obtain ⟨⟨h1, h2, h3⟩, rfl⟩ := whenEnabled_update.mp h; exact .start h1 h2 h3
  | hTrunc => obtain ⟨⟨h1, h2⟩, rfl⟩ := whenEnabled_update.mp h; exact .hTrunc h1 h2
  | hLoad =>
    obtain ⟨⟨h1, h2⟩, h3⟩ := whenEnabled_next.mp h
    rw [readHeader_ok h2] at h3
    obtain rfl := by simpa using h3
    exact .hLoad h1 h2
  | dV4 => obtain ⟨⟨h1, h2⟩, rfl⟩ := dispatchTo_next.mp h; exact .dV4 h1 h2
  | dLegacy0 => obtain ⟨⟨h1, h2⟩, rfl⟩ := dispatchTo_next.mp h; exact .dLegacy0 h1 h2
  | dLegacy1 => obtain ⟨⟨h1, h2⟩, rfl⟩ := dispatchTo_next.mp h; exact .dLegacy1 h1 h2
  | dLegacy2 => obtain ⟨⟨h1, h2⟩, rfl⟩ := dispatchTo_next.mp h; exact .dLegacy2 h1 h2
  | dLegacy3 => obtain ⟨⟨h1, h2⟩, rfl⟩ := dispatchTo_next.mp h; exact .dLegacy3 h1 h2
  | dHigh5 => obtain ⟨⟨h1, h2⟩, rfl⟩ := dispatchTo_next.mp h; exact .dHigh5 h1 h2
  | dHigh6 => obtain ⟨⟨h1, h2⟩, rfl⟩ := dispatchTo_next.mp h; exact .dHigh6 h1 h2
  | dHigh7 => obtain ⟨⟨h1, h2⟩, rfl⟩ := dispatchTo_next.mp h; exact .dHigh7 h1 h2
  | xStop => obtain ⟨⟨h1, h2⟩, rfl⟩ := whenEnabled_update.mp h; exact .xStop h1 h2
  | xFallMod1 l => obtain ⟨⟨h1, h2⟩, ⟨rfl, h3⟩, rfl⟩ := fallOn_next.mp h; exact .xFallMod1 h1 h2 h3
  | xFallMod2 l => obtain ⟨⟨h1, h2⟩, ⟨rfl, h3⟩, rfl⟩ := fallOn_next.mp h; exact .xFallMod2 h1 h2 h3
  | xFallMod3 l => obtain ⟨⟨h1, h2⟩, ⟨rfl, h3⟩, rfl⟩ := fallOn_next.mp h; exact .xFallMod3 h1 h2 h3
  | xFallZero => obtain ⟨⟨h1, h2⟩, ⟨h3, -⟩, rfl⟩ := fallOn_next.mp h; exact .xFallZero h1 h2 h3
  | xFallOver l =>
    obtain ⟨⟨h1, h2⟩, ⟨rfl, h3, h4, h5⟩, rfl⟩ := fallOn_next.mp h
    exact .xFallOver h1 h2 h3 h4 h5
  | xTake ty l => obtain ⟨h1, h2, rfl, rfl, rfl⟩ := execXTake_next.mp h; exact .xTake h1 h2
  | mNone => obtain ⟨⟨h1, h2⟩, rfl⟩ := whenEnabled_update.mp h; exact .mNone h1 h2
  | mShort =>
    obtain ⟨⟨h1, h2, h3⟩, h4⟩ := whenEnabled_next.mp h
    cases hc : s.cfg.shortMac with
    | acceptNoKey => rw [hc] at h4; cases h4; exact .mShort h1 h2 h3 hc
    | truncated => rw [hc] at h4; cases h4; exact .mShortFails h1 h2 h3 hc
  | mKey => obtain ⟨⟨h1, h2⟩, rfl⟩ := (keyedMac_next (by omega)).mp h; exact .mKey h1 h2
  | mFull => obtain ⟨⟨h1, h2⟩, rfl⟩ := (keyedMac_next (by omega)).mp h; exact .mFull h1 h2
  | cOk => obtain ⟨⟨h1, h2⟩, rfl⟩ := whenEnabled_update.mp h; exact .cOk h1 h2
  | cTrail => obtain ⟨⟨h1, h2⟩, rfl⟩ := whenEnabled_update.mp h; exact .cTrail h1 h2

theorem Takes.exec_eq {i : Instr} {s t : State} (h : Takes i s t) : exec i s = .next t := by
  cases h with
  | start h1 h2 h3 => exact whenEnabled_pos ⟨h1, h2, h3⟩
  | hTrunc h1 h2 => exact whenEnabled_pos ⟨h1, h2⟩
  | hLoad h1 h2 => exact whenEnabled_next.mpr ⟨⟨h1, h2⟩, by rw [readHeader_ok h2, withRead_ok]⟩
  | dV4 h1 h2 => exact dispatchTo_next.mpr ⟨⟨h1, h2⟩, rfl⟩
  | dLegacy0 h1 h2 => exact dispatchTo_next.mpr ⟨⟨h1, h2⟩, rfl⟩
  | dLegacy1 h1 h2 => exact dispatchTo_next.mpr ⟨⟨h1, h2⟩, rfl⟩
  | dLegacy2 h1 h2 => exact dispatchTo_next.mpr ⟨⟨h1, h2⟩, rfl⟩
  | dLegacy3 h1 h2 => exact dispatchTo_next.mpr ⟨⟨h1, h2⟩, rfl⟩
  | dHigh5 h1 h2 => exact dispatchTo_next.mpr ⟨⟨h1, h2⟩, rfl⟩
  | dHigh6 h1 h2 => exact dispatchTo_next.mpr ⟨⟨h1, h2⟩, rfl⟩
  | dHigh7 h1 h2 => exact dispatchTo_next.mpr ⟨⟨h1, h2⟩, rfl⟩
  | xStop h1 h2 => exact whenEnabled_pos ⟨h1, h2⟩
  | xFallMod1 h1 h2 h3 => exact fallOn_next.mpr ⟨⟨h1, h2⟩, ⟨rfl, h3⟩, rfl⟩
  | xFallMod2 h1 h2 h3 => exact fallOn_next.mpr ⟨⟨h1, h2⟩, ⟨rfl, h3⟩, rfl⟩
  | xFallMod3 h1 h2 h3 => exact fallOn_next.mpr ⟨⟨h1, h2⟩, ⟨rfl, h3⟩, rfl⟩
  | xFallZero h1 h2 h3 => exact fallOn_next.mpr ⟨⟨h1, h2⟩, ⟨h3, trivial⟩, rfl⟩
  | xFallOver h1 h2 h3 h4 h5 => exact fallOn_next.mpr ⟨⟨h1, h2⟩, ⟨rfl, h3, h4, h5⟩, rfl⟩
  | xTake h1 h2 => exact execXTake_next.mpr ⟨h1, h2, rfl, rfl, rfl⟩
  | mNone h1 h2 => exact whenEnabled_pos ⟨h1, h2⟩
  | mShort h1 h2 h3 hc => exact whenEnabled_next.mpr ⟨⟨h1, h2, h3⟩, by simp [hc]⟩
  | mShortFails h1 h2 h3 hc => exact whenEnabled_next.mpr ⟨⟨h1, h2, h3⟩, by simp [hc]⟩
  | mKey h1 h2 => exact (keyedMac_next (by omega)).mpr ⟨⟨h1, h2⟩, rfl⟩
  | mFull h1 h2 => exact (keyedMac_next (by omega)).mpr ⟨⟨h1, h2⟩, rfl⟩
  | cOk h1 h2 => exact whenEnabled_pos ⟨h1, h2⟩
  | cTrail h1 h2 => exact whenEnabled_pos ⟨h1, h2⟩

/-- `exec` answers a next state exactly where the step relation says. -/
theorem exec_next {i : Instr} {s t : State} : exec i s = .next t ↔ Takes i s t :=
  ⟨Takes.of_exec, Takes.exec_eq⟩

end Sys2Proof.Machine
end

