-- ==== Sys2Proof/Laws/PerInstr.lean ====
section
/-! SUPPORT. Statements for all instructions, made per instruction. -/

namespace Sys2Proof.Laws.TableRow

/-- The encoding of a well-formed operation has its row's `match` bits under its row's `mask` (30_encoding.md R85). -/
def Statement (i : Instr) : Prop := i.wellFormed = true → unitNat (encode i) &&& i.mask = i.pattern

theorem start : Statement .start := fun _ => rfl
theorem hTrunc : Statement .hTrunc := fun _ => rfl
theorem hLoad : Statement .hLoad := fun _ => rfl
theorem dV4 : Statement .dV4 := fun _ => rfl
theorem dLegacy0 : Statement .dLegacy0 := fun _ => rfl
theorem dLegacy1 : Statement .dLegacy1 := fun _ => rfl
theorem dLegacy2 : Statement .dLegacy2 := fun _ => rfl
theorem dLegacy3 : Statement .dLegacy3 := fun _ => rfl
theorem dHigh5 : Statement .dHigh5 := fun _ => rfl
theorem dHigh6 : Statement .dHigh6 := fun _ => rfl
theorem dHigh7 : Statement .dHigh7 := fun _ => rfl
theorem xStop : Statement .xStop := fun _ => rfl

/-- The low two bits of an extension header are L mod 4. -/
theorem low_bits (t l : BitVec 16) : unitNat (extHeaderBytes t l) &&& 3 = l.toNat % 4 := by
  rw [unitNat_extHeaderBytes, and_three]
  omega

theorem xFallMod1 (l : BitVec 16) : Statement (.xFallMod1 l) := fun h =>
  (low_bits 0 l).trans (by simpa [Instr.wellFormed, Instr.pattern] using h)

theorem xFallMod2 (l : BitVec 16) : Statement (.xFallMod2 l) := fun h =>
  (low_bits 0 l).trans (by simpa [Instr.wellFormed, Instr.pattern] using h)

theorem xFallMod3 (l : BitVec 16) : Statement (.xFallMod3 l) := fun h =>
  (low_bits 0 l).trans (by simpa [Instr.wellFormed, Instr.pattern] using h)

theorem xFallZero : Statement .xFallZero := fun _ => rfl

theorem xFallOver (l : BitVec 16) : Statement (.xFallOver l) := fun h =>
  (low_bits 0 l).trans (by simp [Instr.wellFormed] at h; exact h.1)

theorem xTake (t l : BitVec 16) : Statement (.xTake t l) := fun h =>
  (low_bits t l).trans (by simp [Instr.wellFormed] at h; exact h.1)

theorem mNone : Statement .mNone := fun _ => rfl
theorem mShort : Statement .mShort := fun _ => rfl
theorem mKey : Statement .mKey := fun _ => rfl
theorem mFull : Statement .mFull := fun _ => rfl
theorem cOk : Statement .cOk := fun _ => rfl
theorem cTrail : Statement .cTrail := fun _ => rfl

end Sys2Proof.Laws.TableRow
end

