-- ==== Sys2Proof/Laws/Selection.lean ====
section
/-! SUPPORT. What the step relation says, the decoder selects: where `Takes i s t`, the fetched unit decodes to `i` and the
turn of the block answers `t`. -/

namespace Sys2Proof.Machine

/-- No operation is taken while `rst` is asserted. -/
theorem Takes.rst_eq {i : Instr} {s t : State} (h : Takes i s t) : s.rst = false := by
  cases h with
  | start h => exact h
  | hTrunc h | hLoad h | dV4 h | dLegacy0 h | dLegacy1 h | dLegacy2 h | dLegacy3 h | dHigh5 h | dHigh6 h | dHigh7 h
  | xStop h | xFallMod1 h | xFallMod2 h | xFallMod3 h | xFallZero h | xFallOver h | xTake h | mNone h | mShort h
  | mShortFails h | mKey h | mFull h | cOk h | cTrail h => exact h.1

/-- The row the version bits select. -/
theorem decodeByte0_versionByte (v : BitVec 3) :
    decodeByte0 (versionByte v) =
      if v = 0 then .dLegacy0 else if v = 1 then .dLegacy1 else if v = 2 then .dLegacy2
      else if v = 3 then .dLegacy3 else if v = 4 then .dV4 else if v = 5 then .dHigh5
      else if v = 6 then .dHigh6 else .dHigh7 := by
  revert v
  decide

theorem decode_disp {s : State} {v : BitVec 3} (h : s.st = .disp) :
    decode s.sel [versionByte v] = .ok (decodeByte0 (versionByte v)) := by
  simp [decode, State.sel, h]

/-- The row the word at POS selects, as tests of its length. -/
theorem decode_ext {s : State} (h : s.st = .ext) (hr : 4 ≤ s.rem) :
    decode s.sel [s.byte s.pos, s.byte (s.pos + 1), s.byte (s.pos + 2), s.byte (s.pos + 3)] =
      .ok (if s.lenAtPos.toNat % 4 = 1 then .xFallMod1 s.lenAtPos
        else if s.lenAtPos.toNat % 4 = 2 then .xFallMod2 s.lenAtPos
        else if s.lenAtPos.toNat % 4 = 3 then .xFallMod3 s.lenAtPos
        else if s.lenAtPos = 0 then .xFallZero
        else if s.rem < (s.lenAtPos.toNat : Int) then .xFallOver s.lenAtPos
        else .xTake s.typeAtPos s.lenAtPos) := by
  have hs : s.sel.st = .ext := h
  have hr : ¬ s.sel.rem < 4 := by rw [State.sel_rem]; omega
  simp only [decode, hs, if_neg hr]
  rw [decodeWord_eq, wordLen_unitWord, wordType_unitWord]
  rfl

/-- Where no packet bit takes part, no byte is fetched. -/
theorem fetch_nil {s : State} (h : s.st ≠ .disp) (hx : s.st = .ext → s.rem < 4) : fetch s = .ok [] := by
  cases hs : s.st with
  | disp => exact absurd hs h
  | ext =>
    have := hx hs
    simp only [fetch, hs, if_neg (show ¬ 4 ≤ s.rem by omega)]
  | idle | hdr | mac | chk | done => simp only [fetch, hs]

/-- Every operation the step relation allows is the one the decoder selects. -/
theorem Takes.selects {i : Instr} {s t : State} (h : Takes i s t) :
    ∃ u, fetch s = .ok u ∧ decode s.sel u = .ok i := by
  have disp : ∀ v, s.st = .disp → s.vn = some v → decodeByte0 (versionByte v) = i →
      ∃ u, fetch s = .ok u ∧ decode s.sel u = .ok i :=
    fun v h1 h2 h3 => ⟨_, fetch_disp h1 h2, h3 ▸ decode_disp h1⟩
  have nil : s.st ≠ .disp → (s.st = .ext → s.rem < 4) → decode s.sel [] = .ok i →
      ∃ u, fetch s = .ok u ∧ decode s.sel u = .ok i := fun h1 h2 h3 => ⟨_, fetch_nil h1 h2, h3⟩
  have hst : s.sel.st = s.st := rfl
  have hr := State.sel_rem s
  cases h with
  | start _ h2 h3 =>
    have h3 : s.sel.start = true := h3
    refine nil (by rcases h2 with h2 | h2 <;> simp [h2]) (by rcases h2 with h2 | h2 <;> simp [h2]) ?_
    rcases h2 with h2 | h2 <;> simp [decode, hst, h2, h3]
  | hTrunc h1 h2 =>
    have h2 : s.sel.len < 48 := h2
    exact nil (by simp [h1.2]) (by simp [h1.2]) (by simp only [decode, hst, h1.2, if_pos h2])
  | hLoad h1 h2 =>
    have h2 : ¬ s.sel.len < 48 := Nat.not_lt.mpr h2
    exact nil (by simp [h1.2]) (by simp [h1.2]) (by simp only [decode, hst, h1.2, if_neg h2])
  | dV4 h1 h2 | dLegacy0 h1 h2 | dLegacy1 h1 h2 | dLegacy2 h1 h2 | dLegacy3 h1 h2 | dHigh5 h1 h2 | dHigh6 h1 h2
  | dHigh7 h1 h2 => exact disp _ h1.2 h2 (by rw [decodeByte0_versionByte]; rfl)
  | xStop h1 h2 => exact nil (by simp [h1.2]) (fun _ => h2) (by simp [decode, hst, h1.2, h2])
  | xFallMod1 h1 h2 h3 => exact ⟨_, fetch_ext h1.2 h2, (decode_ext h1.2 h2).trans (by rw [if_pos h3])⟩
  | xFallMod2 h1 h2 h3 =>
    exact ⟨_, fetch_ext h1.2 h2, (decode_ext h1.2 h2).trans (by rw [if_neg (by omega), if_pos h3])⟩
  | xFallMod3 h1 h2 h3 =>
    exact ⟨_, fetch_ext h1.2 h2,
      (decode_ext h1.2 h2).trans (by rw [if_neg (by omega), if_neg (by omega), if_pos h3])⟩
  | xFallZero h1 h2 h3 => exact ⟨_, fetch_ext h1.2 h2, (decode_ext h1.2 h2).trans (by simp [h3])⟩
  | xFallOver h1 h2 h3 h4 h5 =>
    have h0 : s.lenAtPos ≠ 0 := fun e => h4 (by simp [e])
    exact ⟨_, fetch_ext h1.2 h2, (decode_ext h1.2 h2).trans (by
      rw [if_neg (by omega), if_neg (by omega), if_neg (by omega), if_neg h0, if_pos h5])⟩
  | xTake h1 hv =>
    obtain ⟨h2, h3, h4⟩ := hv
    have h0 : s.lenAtPos ≠ 0 := fun e => by simp [e] at h2
    have h5 : 4 ≤ s.rem := by omega
    exact ⟨_, fetch_ext h1.2 h5, (decode_ext h1.2 h5).trans (by
      rw [if_neg (by omega), if_neg (by omega), if_neg (by omega), if_neg h0, if_neg (by omega)])⟩
  | mNone h1 h2 => exact nil (by simp [h1.2]) (by simp [h1.2]) (by simp [decode, hst, h1.2, h2])
  | mShort h1 h2 h3 | mShortFails h1 h2 h3 =>
    refine nil (by simp [h1.2]) (by simp [h1.2]) ?_
    simp only [decode, hst, h1.2, hr]
    rw [if_neg (by omega), if_neg (by omega), if_pos h3]
  | mKey h1 h2 => exact nil (by simp [h1.2]) (by simp [h1.2]) (by simp [decode, hst, h1.2, h2])
  | mFull h1 h2 =>
    refine nil (by simp [h1.2]) (by simp [h1.2]) ?_
    simp only [decode, hst, h1.2, hr]
    rw [if_neg (by omega), if_neg (by omega), if_neg (by omega), if_neg (by omega)]
  | cOk h1 h2 =>
    have h2 : s.sel.pos = s.sel.len := h2
    exact nil (by simp [h1.2]) (by simp [h1.2]) (by simp only [decode, hst, h1.2, if_pos h2])
  | cTrail h1 h2 =>
    have h2 : ¬ s.sel.pos = s.sel.len := h2
    exact nil (by simp [h1.2]) (by simp [h1.2]) (by simp only [decode, hst, h1.2, if_neg h2])

/-- The turn of the block takes it. -/
theorem Takes.blockTurn_eq {i : Instr} {s t : State} (h : Takes i s t) : blockTurn s = .next t := by
  obtain ⟨u, hu, hd⟩ := h.selects
  rw [blockTurn, if_neg (by simp [h.rst_eq]), hu, withRead_ok, hd]
  exact exec_next.mpr h

/-- And so does a step, when the block moves. -/
theorem Takes.step_eq {i : Instr} {s t : State} (h : Takes i s t) (ht : s.turns = []) : step s = .next t := by
  simp only [step, ht]
  exact h.blockTurn_eq

end Sys2Proof.Machine
end

