-- ==== Sys2Proof/Laws/Tiles.lean ====
section
/-! SUPPORT. Small facts about records that lie back to back. -/

namespace Sys2Proof.Machine

/-- One more record at the end. -/
theorem tiles_append {a b : Nat} {rs : List XRec} {r : XRec} (h : tiles a rs b = true) (hx : r.xoff = b)
    (h4 : 4 ≤ r.xlen.toNat) (hm : r.xlen.toNat % 4 = 0) : tiles a (rs ++ [r]) (b + r.xlen.toNat) = true := by
  induction rs generalizing a with
  | nil =>
    simp only [tiles, beq_iff_eq] at h
    simp [tiles, h, hx, h4, hm]
  | cons c cs ih =>
    simp only [tiles, Bool.and_eq_true, List.cons_append] at h ⊢
    exact ⟨h.1, ih h.2⟩

/-- Where the records end. -/
theorem tiles_end {a b : Nat} {rs : List XRec} (h : tiles a rs b = true) :
    b = a + (rs.map fun r => r.xlen.toNat).sum := by
  induction rs generalizing a with
  | nil =>
    simp only [tiles, beq_iff_eq] at h
    simp [h]
  | cons c cs ih =>
    simp only [tiles, Bool.and_eq_true] at h
    rw [ih h.2, List.map_cons, List.sum_cons, Nat.add_assoc]

/-- Each record takes at least four bytes, and a multiple of four. -/
theorem tiles_length {a b : Nat} {rs : List XRec} (h : tiles a rs b = true) :
    a + 4 * rs.length ≤ b ∧ b % 4 = a % 4 := by
  induction rs generalizing a with
  | nil =>
    simp only [tiles, beq_iff_eq] at h
    simp [h]
  | cons c cs ih =>
    simp only [tiles, Bool.and_eq_true, decide_eq_true_eq, beq_iff_eq] at h
    have := ih h.2
    rw [List.length_cons]
    omega

/-- The MAC region begins where the records end. -/
theorem State.macStart_of_tiles {s : State} {b : Nat} (h : tiles 48 s.xtab b = true) : s.macStart = b :=
  (tiles_end h).symm

/-- The MAC region lies inside the packet. -/
theorem State.macFrame_le {s : State} {e : Nat} (h : s.macFrame e) : e ≤ s.len := by
  rcases h with h | h | h
  · exact h.2.le
  · omega
  · omega

end Sys2Proof.Machine
end

