-- ==== Sys2Proof/Laws/Turns.lean ====
section
/-! SUPPORT. What the turns of the two agents do to a run: every step takes one turn off the list, a host within its
duties is never refused and leaves the block and the packet alone, and its duties pass from state to state. -/

namespace Sys2Proof.Machine

/-- No operation touches the list of turns. -/
theorem Takes.turns_eq {i : Instr} {s t : State} (h : Takes i s t) : t.turns = s.turns := by
  cases h <;> rfl

/-- Every step takes its turn off the list. -/
theorem step_turns {s t : State} (h : step s = .next t) : t.turns = s.turns.tail := by
  obtain ⟨-, h⟩ | ⟨a, -, h⟩ := step_next h
  · obtain ⟨-, rfl⟩ | ⟨-, u, i, -, -, he⟩ | ⟨-, u, -, -, rfl⟩ := blockTurn_next h
    · rfl
    · exact (exec_next.mp he).turns_eq
    · rfl
  · obtain ⟨k, b, -, -, -, rfl⟩ | ⟨n, -, -, rfl⟩ | ⟨b, -, rfl⟩ | ⟨-, rfl⟩ | ⟨-, rfl⟩ | ⟨i, -, -, rfl⟩ | ⟨p, -, -, rfl⟩ :=
      hostTurn_next h <;> rfl

/-- On the block's turn a step takes what the step relation allows. -/
theorem Takes.step_of_block {i : Instr} {s t : State} (h : Takes i s.afterTurn t) (hb : s.blockMoves) :
    step s = .next t := (step_block hb).trans h.blockTurn_eq

/-- What the step relation allows is the operation of the turn. -/
theorem Takes.selected_eq {i : Instr} {s t : State} (h : Takes i s t) : selected s = some i := by
  obtain ⟨u, hu, hd⟩ := h.selects
  simp [selected, h.rst_eq, hu, hd, Except.toOption]

/-- On the host's turn a step is `hostTurn`. -/
theorem step_host {s : State} {a : HostAct} (h : s.turns.head? = some (.host a)) :
    step s = hostTurn a s.afterTurn := by
  obtain ⟨rest, ht⟩ : ∃ rest, s.turns = .host a :: rest := by
    cases hs : s.turns with
    | nil => simp [hs] at h
    | cons b r => exact ⟨r, by simp_all⟩
  simp [step, ht, State.afterTurn]

/-- A host act within the duties is answered by a next state; the block's registers, the bytes of the packet while the
block is busy, and `rst` when it is released stay as they were. -/
theorem hostTurn_of_allowed {a : HostAct} {s : State} (h : a.allowed s = true) :
    ∃ t, hostTurn a s = .next t ∧
      t = { s with rst := t.rst, start := t.start, lenI := t.lenI, xidx := t.xidx, pkt := t.pkt, intact := t.intact } ∧
      (s.rst = false → t.rst = false) ∧ (s.busy = true → t.intact = s.intact ∧ ∀ k, k < s.len → t.byte k = s.byte k) := by
  cases a with
  | writePkt k b =>
    simp only [HostAct.allowed, Bool.and_eq_true, Bool.or_eq_true, decide_eq_true_eq] at h
    obtain ⟨hk, hb⟩ := h
    refine ⟨s.hostWrite k b, ?_, rfl, id, fun hbusy => ?_⟩
    · rw [hostTurn, if_neg (by simpa using hk), if_neg]
      rintro ⟨h1, h2⟩
      rcases hb with hb | hb
      · simp [h1] at hb
      · omega
    · have : s.len ≤ k := by simpa [hbusy] using hb
      exact ⟨by simp [this], fun j hj => Memory.read_write_other _ (by omega) b⟩
  | setLen n => exact ⟨{ s with lenI := n }, if_pos (by simpa [HostAct.allowed] using h), rfl, id, fun _ => ⟨rfl, fun _ _ => rfl⟩⟩
  | setStart b => exact ⟨{ s with start := b }, rfl, rfl, id, fun _ => ⟨rfl, fun _ _ => rfl⟩⟩
  | setRst b =>
    obtain rfl : b = false := by simpa [HostAct.allowed] using h
    exact ⟨{ s with rst := false }, rfl, rfl, fun _ => rfl, fun _ => ⟨rfl, fun _ _ => rfl⟩⟩
  | setXidx i => exact ⟨{ s with xidx := i }, if_pos (by simpa [HostAct.allowed] using h), rfl, id, fun _ => ⟨rfl, fun _ _ => rfl⟩⟩
  | read p => exact ⟨s, if_pos h, rfl, id, fun _ => ⟨rfl, fun _ _ => rfl⟩⟩

/-- Whether an act keeps its duty does not depend on the list of turns. -/
@[simp] theorem HostAct.allowed_afterTurn (a : HostAct) (s : State) : a.allowed s.afterTurn = a.allowed s := by
  cases a with
  | read p => cases p <;> rfl
  | writePkt k b | setLen n | setStart b | setRst b | setXidx i => rfl

/-- The turn at hand keeps its duty. -/
theorem State.dutiesKept_head {s : State} (h : s.dutiesKept) {a : HostAct} (ht : s.turns.head? = some (.host a)) :
    a.allowed s = true := by
  unfold State.dutiesKept at h
  cases hs : s.turns with
  | nil => simp [hs] at ht
  | cons b r =>
    obtain rfl : b = .host a := by simpa [hs] using ht
    rw [hs, dutiesThrough, Bool.and_eq_true] at h
    exact h.1

/-- And, while the block is busy, so does every later one. -/
theorem State.dutiesKept_step {s t : State} (h : s.dutiesKept) (hs : step s = .next t) (hb : t.busy = true) :
    t.dutiesKept := by
  unfold State.dutiesKept at h ⊢
  rw [step_turns hs]
  cases ht : s.turns with
  | nil => rfl
  | cons a r =>
    rw [ht, dutiesThrough, hs, Bool.and_eq_true] at h
    simpa [hb] using h.2

/-- With no turn listed there is no duty to break. -/
theorem State.dutiesKept_of_nil {s : State} (h : s.turns = []) : s.dutiesKept := by
  simp [State.dutiesKept, h, dutiesThrough]

end Sys2Proof.Machine
end

