-- ==== Sys2Proof/Tests/Slice0.lean ====
section
/-! SUPPORT. The model's own tests. Expected values are from 95_test_vectors.md (vector named in the comment) or written
out by hand from 30_encoding.md; the second half shows, for each statement with premises, a state that meets them. -/

namespace Sys2Proof.Tests

open Sys2Proof Sys2Proof.Machine

/-! ### Helpers -/

def nextOf : Machine.Result → Option State
  | .next t => some t
  | .fault _ => none
  | .refused _ => none

theorem next_of_isSome {r : Machine.Result} (h : (nextOf r).isSome = true) : ∃ t, r = .next t := by
  cases r with
  | next t => exact ⟨t, rfl⟩
  | fault f => cases h
  | refused q => cases h

/-- The reason a turn stops, if it does. -/
def stopOf : Machine.Result → Option Fault × Option Refusal
  | .next _ => (none, none)
  | .fault f => (some f, none)
  | .refused q => (none, some q)

/-- Bytes laid into an empty buffer from address `a` on. -/
def bytesAt (a : Nat) (bs : List Byte) : Memory := Memory.writeAll [] a bs

/-- A state of the block: ST, POS, LEN and the buffer, the rest as after reset. -/
def inState (f : Fsm) (p n : Nat) (m : Memory) : State :=
  { State.reset with st := f, pos := p, len := n, pkt := m }

/-- All thirteen header registers loaded, VN = v, the others 0. -/
def withHeader (v : BitVec 3) (s : State) : State :=
  { s with
    li := some 0, vn := some v, mode := some 0, stratum := some 0, poll := some 0, prec := some 0,
    rdelay := some 0, rdisp := some 0, refid := some 0,
    refts := some ⟨0, 0⟩, orgts := some ⟨0, 0⟩, rects := some ⟨0, 0⟩, xmtts := some ⟨0, 0⟩ }

def cfgTrail : Config := { Config.ntpp10 with vother := .trailingData }

def cfgShort : Config := { Config.ntpp10 with shortMac := .truncated }

/-- A block with addresses of 6 bits: LEN_MAX = 63, XMAX = 3. -/
def cfgNarrow : Config := { Config.ntpp10 with lenW := 6 }

/-- A run about to begin on the packet `bs`. -/
def launchOf (c : Config) (bs : List Byte) : State :=
  { State.reset with start := true, lenI := bs.length, pkt := bytesAt 0 bs, cfg := c }

/-- The MAC registers, written as 95_test_vectors.md writes them: `none` is its "-". -/
def macRegs (t : State) : List (Option Nat) :=
  [some t.macP.toNat, some t.macKv.toNat, t.macKey.map (·.toNat), t.macOff, t.macDlen]

def zeros (n : Nat) : List Byte := List.replicate n 0

/-! ### WellFormed refuses -/

theorem test_wf_fallMod1 : Instr.wellFormed (.xFallMod1 6) = false ∧ Instr.wellFormed (.xFallMod1 5) = true := by decide
theorem test_wf_fallMod2 : Instr.wellFormed (.xFallMod2 7) = false ∧ Instr.wellFormed (.xFallMod2 6) = true := by decide
theorem test_wf_fallMod3 : Instr.wellFormed (.xFallMod3 5) = false ∧ Instr.wellFormed (.xFallMod3 7) = true := by decide
theorem test_wf_fallOver_low : Instr.wellFormed (.xFallOver 6) = false ∧ Instr.wellFormed (.xFallOver 12) = true := by
  decide
theorem test_wf_fallOver_zero : Instr.wellFormed (.xFallOver 0) = false := by decide
theorem test_wf_take_low : Instr.wellFormed (.xTake 2 9) = false ∧ Instr.wellFormed (.xTake 2 8) = true := by decide
theorem test_wf_take_zero : Instr.wellFormed (.xTake 2 0) = false := by decide

/-! ### Decoding, one row of the table each -/

theorem test_decode_start :
    decode ⟨.idle, true, 0, 0⟩ [] = .ok .start ∧ decode ⟨.done, true, 48, 48⟩ [] = .ok .start := by decide
theorem test_decode_hTrunc : decode ⟨.hdr, false, 47, 0⟩ [] = .ok .hTrunc := by decide
theorem test_decode_hLoad : decode ⟨.hdr, false, 48, 0⟩ [] = .ok .hLoad := by decide
/-- The byte-0 table of 95_test_vectors.md 2.2: LI and MODE take no part. -/
theorem test_decode_dV4 : ∀ b ∈ [(0x20 : Byte), 0x23, 0x24, 0x26, 0xE4],
    decode ⟨.disp, false, 48, 48⟩ [b] = .ok .dV4 := by decide
theorem test_decode_dLegacy0 : ∀ b ∈ [(0x00 : Byte), 0x47, 0x80, 0xC7],
    decode ⟨.disp, false, 48, 48⟩ [b] = .ok .dLegacy0 := by decide
theorem test_decode_dLegacy1 : decode ⟨.disp, false, 48, 48⟩ [0x08] = .ok .dLegacy1 := by decide
theorem test_decode_dLegacy2 : decode ⟨.disp, false, 48, 48⟩ [0x10] = .ok .dLegacy2 := by decide
theorem test_decode_dLegacy3 : ∀ b ∈ [(0x18 : Byte), 0x1B, 0x1C, 0x1E, 0xDC],
    decode ⟨.disp, false, 48, 48⟩ [b] = .ok .dLegacy3 := by decide
theorem test_decode_dHigh5 : decode ⟨.disp, false, 48, 48⟩ [0x28] = .ok .dHigh5 := by decide
theorem test_decode_dHigh6 : decode ⟨.disp, false, 48, 48⟩ [0x30] = .ok .dHigh6 := by decide
theorem test_decode_dHigh7 : ∀ b ∈ [(0x38 : Byte), 0xFF],
    decode ⟨.disp, false, 48, 48⟩ [b] = .ok .dHigh7 := by decide
theorem test_decode_xStop : decode ⟨.ext, false, 51, 48⟩ [] = .ok .xStop := by decide
/-- X5, X9. -/
theorem test_decode_xFallMod1 :
    decode ⟨.ext, false, 56, 48⟩ [0x00, 0x02, 0x00, 0x01] = .ok (.xFallMod1 1) ∧
    decode ⟨.ext, false, 56, 48⟩ [0x00, 0x02, 0x00, 0x05] = .ok (.xFallMod1 5) := by decide
/-- X6, X8. -/
theorem test_decode_xFallMod2 :
    decode ⟨.ext, false, 56, 48⟩ [0x00, 0x02, 0x00, 0x02] = .ok (.xFallMod2 2) ∧
    decode ⟨.ext, false, 56, 48⟩ [0x00, 0x02, 0x00, 0x06] = .ok (.xFallMod2 6) := by decide
/-- S6, S10: L = 65535. -/
theorem test_decode_xFallMod3 :
    decode ⟨.ext, false, 56, 48⟩ [0x00, 0x00, 0x00, 0x03] = .ok (.xFallMod3 3) ∧
    decode ⟨.ext, false, 68, 48⟩ [0xFF, 0xFF, 0xFF, 0xFF] = .ok (.xFallMod3 65535) := by decide
/-- X4; a type does not matter. -/
theorem test_decode_xFallZero :
    decode ⟨.ext, false, 52, 48⟩ [0x00, 0x00, 0x00, 0x00] = .ok .xFallZero ∧
    decode ⟨.ext, false, 52, 48⟩ [0xAB, 0xCD, 0x00, 0x00] = .ok .xFallZero := by decide
/-- X11, X12. -/
theorem test_decode_xFallOver :
    decode ⟨.ext, false, 56, 48⟩ [0x00, 0x02, 0x00, 0x0C] = .ok (.xFallOver 12) ∧
    decode ⟨.ext, false, 56, 48⟩ [0x00, 0x01, 0xFF, 0xFC] = .ok (.xFallOver 65532) := by decide
/-- X3 (L = 4 = REM), X10 (L = REM). -/
theorem test_decode_xTake :
    decode ⟨.ext, false, 52, 48⟩ [0xAB, 0xCD, 0x00, 0x04] = .ok (.xTake 0xABCD 4) ∧
    decode ⟨.ext, false, 56, 48⟩ [0x00, 0x02, 0x00, 0x08] = .ok (.xTake 2 8) := by decide
theorem test_decode_mNone : decode ⟨.mac, false, 48, 48⟩ [] = .ok .mNone := by decide
theorem test_decode_mShort :
    decode ⟨.mac, false, 49, 48⟩ [] = .ok .mShort ∧ decode ⟨.mac, false, 51, 48⟩ [] = .ok .mShort := by decide
theorem test_decode_mKey : decode ⟨.mac, false, 52, 48⟩ [] = .ok .mKey := by decide
theorem test_decode_mFull :
    decode ⟨.mac, false, 53, 48⟩ [] = .ok .mFull ∧ decode ⟨.mac, false, 65535, 48⟩ [] = .ok .mFull := by decide
theorem test_decode_cOk : decode ⟨.chk, false, 48, 48⟩ [] = .ok .cOk := by decide
theorem test_decode_cTrail : decode ⟨.chk, false, 49, 48⟩ [] = .ok .cTrail := by decide

/-- The decoder's refusals, by name. -/
theorem test_decode_refusals :
    decode ⟨.idle, false, 0, 0⟩ [] = .error .waiting ∧ decode ⟨.done, false, 48, 48⟩ [] = .error .waiting ∧
    decode ⟨.disp, false, 48, 48⟩ [] = .error .noVersion ∧ decode ⟨.ext, false, 52, 48⟩ [0] = .error .noWord ∧
    decode ⟨.mac, false, 47, 48⟩ [] = .error .remNegative := by decide

/-! ### One step each -/

/-- Q1. -/
theorem test_start : (nextOf (exec .start { State.reset with start := true, lenI := 48 })).map
    (fun t => (t.st, t.len, t.pos, t.busy, t.isDone)) = some (.hdr, 48, 0, true, false) := by decide
/-- Q3: nothing of the run before is visible. -/
theorem test_start_clears : (nextOf (exec .start
    { withHeader 4 (inState .done 76 76 []) with
      ok := true, xle := true, xcnt := 1, xtab := [⟨2, 8, 48⟩], macP := true, start := true, lenI := 10 })).map
    (fun t => (t.len, t.xtab, t.xle, t.macP, t.vn)) = some (10, [], false, false, none) := by decide
/-- H1, S3. -/
theorem test_hTrunc : (nextOf (exec .hTrunc (inState .hdr 0 47 []))).map
    (fun t => (t.st, t.ok, t.err, t.pos)) = some (.done, false, .truncated, 0) := by decide
/-- H2. -/
def h2 : List Byte :=
  [0x24, 0x02, 0x06, 0xE9, 0x00, 0x00, 0x0A, 0x3D, 0x00, 0x00, 0x12, 0x34, 0xC0, 0xA8, 0x01, 0x01] ++
  [0xE8, 0xA1, 0xB0, 0x00, 0x00, 0x00, 0x00, 0x00, 0xE8, 0xA1, 0xB2, 0xC3, 0x40, 0x00, 0x00, 0x00] ++
  [0xE8, 0xA1, 0xB2, 0xC3, 0x80, 0x00, 0x00, 0x00, 0xE8, 0xA1, 0xB2, 0xC3, 0x80, 0x01, 0x00, 0x00]
theorem test_hLoad_words : (nextOf (exec .hLoad (inState .hdr 0 48 (bytesAt 0 h2)))).map
    (fun t => [t.li.map (·.toNat), t.vn.map (·.toNat), t.mode.map (·.toNat), t.stratum.map (·.toNat),
      t.poll.map (·.toNat), t.prec.map (·.toNat), t.rdelay.map (·.toNat), t.rdisp.map (·.toNat),
      t.refid.map (·.toNat), some t.pos]) =
    some [some 0, some 4, some 4, some 2, some 6, some 0xE9, some 0x00000A3D, some 0x00001234,
      some 0xC0A80101, some 48] := by decide
theorem test_hLoad_times : (nextOf (exec .hLoad (inState .hdr 0 48 (bytesAt 0 h2)))).map
    (fun t => (t.refts.map (·.value), t.orgts.map (·.value), t.rects.map (·.value), t.xmtts.map (·.value))) =
    some (some 0xE8A1B00000000000, some 0xE8A1B2C340000000, some 0xE8A1B2C380000000,
      some 0xE8A1B2C380010000) := by decide
theorem test_dV4 : (nextOf (exec .dV4 (withHeader 4 (inState .disp 48 56 [])))).map (·.st) = some .ext := by decide
theorem test_dLegacy : ∀ p ∈ [(Instr.dLegacy0, (0 : BitVec 3)), (.dLegacy1, 1), (.dLegacy2, 2), (.dLegacy3, 3)],
    (nextOf (exec p.1 (withHeader p.2 (inState .disp 48 56 [])))).map (·.st) = some .mac := by decide
/-- 2.3: both values of VOTHER_POLICY. -/
theorem test_dHigh : ∀ p ∈ [(Instr.dHigh5, (5 : BitVec 3)), (.dHigh6, 6), (.dHigh7, 7)],
    (nextOf (exec p.1 (withHeader p.2 (inState .disp 48 56 [])))).map (·.st) = some .mac ∧
    (nextOf (exec p.1 { withHeader p.2 (inState .disp 48 56 []) with cfg := cfgTrail })).map (·.st) =
      some .chk := by decide
/-- X2. -/
theorem test_xStop : (nextOf (exec .xStop (inState .ext 48 49 []))).map (fun t => (t.st, t.pos, t.xle)) =
    some (.mac, 48, false) := by decide
/-- X9, X8, S6, X4: POS does not move. -/
theorem test_xFall_rows : ∀ p ∈ [(Instr.xFallMod1 5, [(0x00 : Byte), 0x02, 0x00, 0x05]),
      (.xFallMod2 6, [0x00, 0x02, 0x00, 0x06]), (.xFallMod3 3, [0x00, 0x00, 0x00, 0x03]),
      (.xFallZero, [0x00, 0x00, 0x00, 0x00])],
    (nextOf (exec p.1 (inState .ext 48 56 (bytesAt 48 p.2)))).map (fun t => (t.st, t.pos, t.xle, t.xtab)) =
      some (.mac, 48, true, []) := by decide
/-- X19: one byte short. -/
theorem test_xFallOver : (nextOf (exec (.xFallOver 28)
    (inState .ext 48 75 (bytesAt 48 [0x01, 0x04, 0x00, 0x1C])))).map (fun t => (t.st, t.pos, t.xle)) =
    some (.mac, 48, true) := by decide
/-- S2. -/
theorem test_xTake : (nextOf (exec (.xTake 0x0104 28) (inState .ext 48 76 (bytesAt 48 [0x01, 0x04, 0x00, 0x1C])))).map
    (fun t => (t.st, t.pos, t.xtab, t.xcnt, t.xle)) = some (.ext, 76, [⟨0x0104, 28, 48⟩], 1, false) := by decide
/-- X17: the second field, appended. -/
theorem test_xTake_second : (nextOf (exec (.xTake 0x8001 12)
    { inState .ext 56 70 (bytesAt 56 [0x80, 0x01, 0x00, 0x0C]) with xtab := [⟨2, 8, 48⟩], xcnt := 1 })).map
    (fun t => (t.pos, t.xtab, t.xcnt)) = some (68, [⟨2, 8, 48⟩, ⟨0x8001, 12, 56⟩], 2) := by decide
/-- T0. -/
theorem test_mNone : (nextOf (exec .mNone (inState .mac 48 48 []))).map
    (fun t => (macRegs t, t.st)) = some ([some 0, some 0, none, none, none], .chk) := by decide
/-- T3. -/
theorem test_mShort : (nextOf (exec .mShort (inState .mac 48 51 []))).map
    (fun t => (macRegs t, t.pos, t.st)) =
    some ([some 1, some 0, some 0, some 48, some 3], 51, .chk) := by decide
/-- T3 under SHORT_MAC_POLICY = TRUNCATED. -/
theorem test_mShort_truncated : (nextOf (exec .mShort { inState .mac 48 51 [] with cfg := cfgShort })).map
    (fun t => (t.st, t.ok, t.err, t.macP, t.pos)) = some (.done, false, .truncated, false, 48) := by decide
/-- T4. -/
theorem test_mKey : (nextOf (exec .mKey (inState .mac 48 52 (bytesAt 48 [0xA1, 0xA2, 0xA3, 0xA4])))).map
    (fun t => (macRegs t, t.pos)) =
    some ([some 1, some 1, some 0xA1A2A3A4, some 52, some 0], 52) := by decide
/-- T5. -/
theorem test_mFull : (nextOf (exec .mFull (inState .mac 48 53 (bytesAt 48 [0xA1, 0xA2, 0xA3, 0xA4, 0xA5])))).map
    (fun t => (macRegs t, t.pos)) =
    some ([some 1, some 1, some 0xA1A2A3A4, some 52, some 1], 53) := by decide
/-- The largest: n = 65535, MAC_DLEN = 65483. -/
theorem test_mFull_largest : (nextOf (exec .mFull (inState .mac 48 65535 []))).map
    (fun t => (t.macOff, t.macDlen, t.pos)) = some (some 52, some 65483, 65535) := by decide
/-- X4: XLE is kept. -/
theorem test_cOk : (nextOf (exec .cOk { inState .chk 52 52 [] with xle := true })).map
    (fun t => (t.st, t.ok, t.err, t.xle)) = some (.done, true, .none, true) := by decide
/-- Q5. -/
theorem test_cTrail : (nextOf (exec .cTrail (inState .chk 48 49 []))).map (fun t => (t.st, t.ok, t.err, t.pos)) =
    some (.done, false, .trailingData, 48) := by decide

/-- Q2: `start` while ST = EXT does not restart. -/
theorem test_start_ignored_while_busy :
    (nextOf (step { inState .ext 48 49 [] with start := true, lenI := 7 })).map (fun t => (t.st, t.len)) =
    some (.mac, 49) := by decide
/-- Q6: reset in the middle of a run. -/
theorem test_reset_midrun :
    (nextOf (step { withHeader 4 (inState .ext 56 70 []) with
      xtab := [⟨2, 8, 48⟩], xcnt := 1, turns := [.host (.setRst true)] })).map
      (fun t => (t.st, t.isDone, t.xcnt, t.vn)) = some (.idle, false, 0, none) := by decide
/-- 00_scope.md R5: what follows from LEN_W = 16, and by the same formulas from LEN_W = 6 (XMAX = (63 − 48) / 4). -/
theorem test_parameters :
    (Config.ntpp10.lenMax, Config.ntpp10.xmax, Config.ntpp10.xcntW) = (65535, 16371, 14) ∧
    (cfgNarrow.lenMax, cfgNarrow.xmax, cfgNarrow.xcntW) = (63, 3, 2) := by decide
/-- 20_memory.md R50, 10_state.md R24: the last address and the first that is none; the largest length and one more. -/
theorem test_port_widths :
    stopOf (hostTurn (.writePkt 63 1) { State.reset with cfg := cfgNarrow }) = (none, none) ∧
    stopOf (hostTurn (.writePkt 64 1) { State.reset with cfg := cfgNarrow }) = (some .noSuchAddress, none) ∧
    stopOf (hostTurn (.setLen 63) { State.reset with cfg := cfgNarrow }) = (none, none) ∧
    stopOf (hostTurn (.setLen 64) { State.reset with cfg := cfgNarrow }) = (none, some .portWidth) := by decide
/-- 20_memory.md R58: after DONE a write below LEN that changes a byte, one that does not, one at LEN. -/
theorem test_changed_packet : ∀ p ∈ [(HostAct.writePkt 55 7, false), (.writePkt 55 0, true), (.writePkt 56 7, true)],
    (nextOf (hostTurn p.1 (inState .done 56 56 []))).map (·.intact) = some p.2 := by decide
/-- 45_assembler.md R150: the next run is about the buffer as it then is. -/
theorem test_start_takes_the_buffer :
    (nextOf (exec .start { inState .done 56 56 [] with intact := false, start := true })).map (·.intact) = some true := by
  decide
/-- 70_reset_and_hazards.md R205: a step on the host's turn carries out the act. -/
theorem test_step_host : (nextOf (step { inState .mac 48 52 [] with turns := [.host (.writePkt 52 7), .block] })).map
    (fun t => (t.pkt, t.st, t.turns)) = some ([(52, 7)], .mac, [.block]) := by decide
/-- 2.1: the signed and the scaled readings. -/
theorem test_readings : sext8 0xFF = -1 ∧ sext8 0x80 = -128 ∧ sext8 0x7F = 127 ∧ sext8 0xE9 = -23 ∧
    fix32Seconds 0x00018000 = 3 / 2 ∧ fix32Int 0x00018000 = 1 ∧ fix32Frac 0x00018000 = 0x8000 := by
  refine ⟨by decide, by decide, by decide, by decide, ?_, by decide, by decide⟩
  rw [fix32Seconds, show BitVec.toNat (0x00018000 : BitVec 32) = 98304 from rfl]
  norm_num
/-- 30_encoding.md R76, R77, R79. -/
theorem test_names : leapName 3 = .unsynchronized ∧ modeName 3 = .client ∧ modeName 6 = .control ∧
    stratumClass 15 = .secondary ∧ stratumClass 16 = .reserved := by decide

/-! ### Witnesses: for each statement with premises, states and operands that meet them -/

section
set_option synthInstance.maxSize 2000
set_option synthInstance.maxHeartbeats 200000

def invHolds (s : State) : Bool := decide s.Inv

theorem inv_of {s : State} (h : invHolds s = true) : s.Inv := of_decide_eq_true h

end

/-- An operation runs in a state. -/
def ran (i : Instr) (s : State) : Bool := (nextOf (exec i s)).isSome

theorem next_of_ran {i : Instr} {s : State} (h : ran i s = true) : ∃ t, exec i s = .next t := next_of_isSome h

def stepped (s : State) : Bool := (nextOf (step s)).isSome

/-- A step answers a next state in the state `f` of the FSM. -/
def stepsIn (f : Fsm) (s : State) : Bool := (nextOf (step s)).map (·.st) == some f

theorem next_of_stepped {s : State} (h : stepped s = true) : ∃ t, step s = .next t := next_of_isSome h

/-- IDLE with `start` raised. -/
def wIdle : State := { State.reset with start := true, lenI := 76 }

/-- DONE after a run on 48 zero bytes, `start` raised. -/
def wDone : State := { withHeader 0 (inState .done 48 48 []) with ok := true, start := true, lenI := 76 }

/-- DONE after S2 with a MAC of key 1 and a one-byte digest, the second record at `xidx`. -/
def wDoneTwo : State :=
  { withHeader 4 (inState .done 73 73 []) with
    ok := true, xle := true, xtab := [⟨2, 8, 48⟩, ⟨0x8001, 12, 56⟩], xcnt := 2, macP := true, macKv := true,
    macKey := some 1, macOff := some 72, macDlen := some 1, xidx := 1 }

/-- DONE after X17 (without `start`): the MAC has no key identifier. -/
def wDoneShort : State :=
  { withHeader 4 (inState .done 70 70 []) with
    ok := true, xtab := [⟨2, 8, 48⟩, ⟨0x8001, 12, 56⟩], xcnt := 2, macP := true, macKey := some 0,
    macOff := some 68, macDlen := some 2, xidx := 2 }

/-- DONE after S3 with N = 47. -/
def wFailed : State := { inState .done 0 47 [] with err := .truncated }

/-- DONE after T4 with N = 52: a bare key identifier; the host has changed the packet since. -/
def wDoneKey : State :=
  { withHeader 3 (inState .done 52 52 []) with
    ok := true, macP := true, macKv := true, macKey := some 1, macOff := some 52, macDlen := some 0, intact := false }

/-- `wDoneTwo` with a changed packet. -/
def wDoneChanged : State := { wDoneTwo with intact := false }

def wHdr (n : Nat) : State := inState .hdr 0 n []

def wDisp (v : BitVec 3) (n : Nat) : State := withHeader v (inState .disp 48 n [])

def wExt (n : Nat) (bs : List Byte) : State := withHeader 4 (inState .ext 48 n (bytesAt 48 bs))

def wMac (n : Nat) : State := withHeader 3 (inState .mac 48 n (bytesAt 48 [0xA1, 0xA2, 0xA3, 0xA4, 0xA5]))

def wChk : State := withHeader 3 (inState .chk 48 48 [])

/-- CHK with a trailing byte nothing claims (Q5). -/
def wTrail : State := { withHeader 5 (inState .chk 48 49 []) with cfg := cfgTrail }

/-- S6: the packet. -/
def s6 : List Byte := [0x20] ++ zeros 47 ++ [0x00, 0x00, 0x00, 0x03, 0xAA, 0xBB, 0xCC, 0xDD]

/-- What a host may do during a run on S6 (LEN = 56), between the operations. -/
def hostInBetween : List Turn :=
  [.block, .host (.setStart false), .host (.setLen 5), .block, .host (.writePkt 56 7), .host (.setXidx 3),
    .host (.read .busy), .block, .host (.setRst false), .host (.setStart true), .block]

theorem witness_StartBeginsRun :
    (∀ s ∈ [wIdle, wDone], s.rst = false ∧ (s.st = .idle ∨ s.st = .done) ∧ s.start = true) ∧
    (∃ t, exec .start wIdle = .next t) ∧ ∃ t, exec .start wDone = .next t :=
  ⟨by decide, next_of_ran (by decide), next_of_ran (by decide)⟩

/-- LEN = 0 and LEN = 47. -/
theorem witness_HeaderTooShortRaisesTruncated :
    (∀ s ∈ [wHdr 0, wHdr 47], s.rst = false ∧ s.st = .hdr ∧ s.len < 48) ∧ (wHdr 47).Inv ∧
    ∃ t, exec .hTrunc (wHdr 47) = .next t :=
  ⟨by decide, inv_of (by decide), next_of_ran (by decide)⟩

/-- LEN = 48 and LEN = 65535. -/
theorem witness_HeaderLoadWritesThirteenRegisters :
    (∀ s ∈ [wHdr 48, wHdr 65535], s.rst = false ∧ s.st = .hdr ∧ 48 ≤ s.len) ∧
    ∃ t, exec .hLoad (wHdr 48) = .next t :=
  ⟨by decide, next_of_ran (by decide)⟩

/-- 48 zero bytes, the all-zero header. -/
theorem witness_HeaderRegistersGiveBytesBack :
    (wHdr 48).rst = false ∧ (wHdr 48).st = .hdr ∧ 48 ≤ (wHdr 48).len ∧
    (List.range 48).map (wHdr 48).byte =
      Header.bytes ⟨0, 0, 0, 0, 0, 0, 0, 0, 0, ⟨0, 0⟩, ⟨0, 0⟩, ⟨0, 0⟩, ⟨0, 0⟩⟩ := by decide

theorem witness_Version4SearchesExtensions :
    ((wDisp 4 48).rst = false ∧ (wDisp 4 48).st = .disp ∧ (wDisp 4 48).vn = some 4) ∧
    ∃ t, exec .dV4 (wDisp 4 48) = .next t :=
  ⟨by decide, next_of_ran (by decide)⟩

theorem witness_LegacyVersionsTakeTrailerAsMac :
    (∀ p ∈ [(Instr.dLegacy0, (0 : BitVec 3)), (.dLegacy1, 1), (.dLegacy2, 2), (.dLegacy3, 3)],
      (wDisp p.2 68).rst = false ∧ (wDisp p.2 68).st = .disp ∧ (wDisp p.2 68).vn = some p.2 ∧
      ran p.1 (wDisp p.2 68) = true) ∧
    (wDisp 0 48).Inv ∧ (wDisp 3 65535).Inv :=
  ⟨by decide, inv_of (by decide), inv_of (by decide)⟩

theorem witness_HighVersionsFollowPolicy_len48 :
    ∀ s ∈ [wDisp 5 48, wDisp 7 48, { wDisp 6 48 with cfg := cfgTrail, turns := [.host (.writePkt 48 7), .block] }],
      s.Inv ∧ s.rst = false ∧ s.dutiesKept ∧ s.st = .disp ∧ s.versionHigh ∧ s.len = 48 := by
  have h : ∀ s ∈ [wDisp 5 48, wDisp 7 48,
        { wDisp 6 48 with cfg := cfgTrail, turns := [.host (.writePkt 48 7), .block] }],
      invHolds s = true ∧ s.rst = false ∧ s.dutiesKept ∧ s.st = .disp ∧ s.versionHigh ∧ s.len = 48 := by decide
  exact fun s hs => ⟨inv_of (h s hs).1, (h s hs).2⟩

theorem witness_HighVersionsFollowPolicy :
    ∀ p ∈ [(Instr.dHigh5, (5 : BitVec 3)), (.dHigh6, 6), (.dHigh7, 7)],
      ((wDisp p.2 49).rst = false ∧ (wDisp p.2 49).st = .disp ∧ (wDisp p.2 49).vn = some p.2 ∧
        (wDisp p.2 49).cfg.vother = .macOnly ∧ ran p.1 (wDisp p.2 49) = true) ∧
      ({ wDisp p.2 49 with cfg := cfgTrail } : State).cfg.vother = .trailingData ∧
      ran p.1 { wDisp p.2 49 with cfg := cfgTrail } = true := by decide

/-- REM = 0 and REM = 3. -/
theorem witness_StubEndsExtensionLoop :
    (∀ s ∈ [wExt 48 [], wExt 51 []], s.rst = false ∧ s.st = .ext ∧ s.rem < 4) ∧
    ∃ t, exec .xStop (wExt 51 []) = .next t :=
  ⟨by decide, next_of_ran (by decide)⟩

/-- Each of the five rows at REM = 4, the least remainder, or just above it. -/
theorem witness_InvalidLengthFallsBackToMac :
    ∀ p ∈ [(Instr.xFallMod1 1, (52 : Nat), (0x00 : Byte), (0x01 : Byte)), (.xFallMod2 2, 52, 0x00, 0x02),
        (.xFallMod3 65535, 52, 0xFF, 0xFF), (.xFallZero, 52, 0x00, 0x00), (.xFallOver 8, 55, 0x00, 0x08)],
      (wExt p.2.1 [0, 2, p.2.2.1, p.2.2.2]).rst = false ∧ (wExt p.2.1 [0, 2, p.2.2.1, p.2.2.2]).st = .ext ∧
      4 ≤ (wExt p.2.1 [0, 2, p.2.2.1, p.2.2.2]).rem ∧
      p.2.2.1 ++ p.2.2.2 =
        (wExt p.2.1 [0, 2, p.2.2.1, p.2.2.2]).byte 50 ++ (wExt p.2.1 [0, 2, p.2.2.1, p.2.2.2]).byte 51 ∧
      p.1.mnemonic = "X.FALL" ∧ ran p.1 (wExt p.2.1 [0, 2, p.2.2.1, p.2.2.2]) = true := by decide

/-- L = 4 = REM, and L = REM = 65484, the longest a run can take; also for TakeShrinksRemainder. -/
theorem witness_ValidFieldIsTaken :
    (∀ p ∈ [(wExt 52 [0xAB, 0xCD, 0x00, 0x04], (4 : BitVec 16)), (wExt 65532 [0xAB, 0xCD, 0xFF, 0xCC], 65484)],
      p.1.rst = false ∧ p.1.st = .ext ∧ p.1.intact = true ∧ p.1.pos = 48 ∧ (0xABCD : BitVec 16) = p.1.byte 48 ++ p.1.byte 49 ∧
      p.2 = p.1.byte 50 ++ p.1.byte 51 ∧ 4 ≤ p.2.toNat ∧ (p.2.toNat : Int) ≤ p.1.rem ∧ p.2.toNat % 4 = 0) ∧
    (∃ t, exec (.xTake 0xABCD 4) (wExt 52 [0xAB, 0xCD, 0x00, 0x04]) = .next t) ∧
    ∃ t, exec (.xTake 0xABCD 65484) (wExt 65532 [0xAB, 0xCD, 0xFF, 0xCC]) = .next t := by
  refine ⟨fun p hp => ?_, ⟨_, rfl⟩, ⟨_, rfl⟩⟩
  rcases List.mem_pair.mp hp with rfl | rfl
  · exact ⟨rfl, rfl, rfl, rfl, rfl, rfl, by decide, by decide, by decide⟩
  · exact ⟨rfl, rfl, rfl, rfl, rfl, rfl, by decide, by decide, by decide⟩

theorem witness_EmptyRemainderIsNoMac :
    ((wMac 48).rst = false ∧ (wMac 48).st = .mac ∧ (wMac 48).rem = 0) ∧ (wMac 48).Inv ∧
    ∃ t, exec .mNone (wMac 48) = .next t :=
  ⟨by decide, inv_of (by decide), next_of_ran (by decide)⟩

/-- REM = 1 and REM = 3, under each policy. -/
theorem witness_ShortRemainderFollowsPolicy :
    (∀ s ∈ [wMac 49, wMac 51], s.rst = false ∧ s.st = .mac ∧ s.intact = true ∧ 0 < s.rem ∧ s.rem < 4 ∧
      s.cfg.shortMac = .acceptNoKey ∧ ran .mShort s = true ∧
      ({ s with cfg := cfgShort } : State).cfg.shortMac = .truncated ∧
      ran .mShort { s with cfg := cfgShort } = true) := by decide

theorem witness_FourBytesAreKeyWithEmptyDigest :
    ((wMac 52).rst = false ∧ (wMac 52).st = .mac ∧ (wMac 52).rem = 4) ∧ ∃ t, exec .mKey (wMac 52) = .next t :=
  ⟨by decide, next_of_ran (by decide)⟩

/-- REM = 5 and the largest. -/
theorem witness_LongRemainderIsKeyAndDigest :
    (∀ s ∈ [wMac 53, wMac 65535], s.rst = false ∧ s.st = .mac ∧ s.intact = true ∧ 4 < s.rem) ∧
    ∃ t, exec .mFull (wMac 53) = .next t :=
  ⟨by decide, next_of_ran (by decide)⟩

theorem witness_FullConsumptionSetsOk :
    (wChk.rst = false ∧ wChk.st = .chk ∧ wChk.pos = wChk.len) ∧ wChk.Inv ∧ ∃ t, exec .cOk wChk = .next t :=
  ⟨by decide, inv_of (by decide), next_of_ran (by decide)⟩

theorem witness_LeftoverBytesRaiseTrailingData :
    (wTrail.rst = false ∧ wTrail.st = .chk ∧ wTrail.pos ≠ wTrail.len) ∧ wTrail.Inv ∧
    ∃ t, exec .cTrail wTrail = .next t :=
  ⟨by decide, inv_of (by decide), next_of_ran (by decide)⟩

/-- With no turn listed, and with a block turn next. -/
theorem witness_StepRunsSelectedOperation :
    ∀ s ∈ [wExt 52 [0xAB, 0xCD, 0x00, 0x04], { wExt 52 [0xAB, 0xCD, 0x00, 0x04] with turns := [.block] }],
      s.blockMoves ∧ s.rst = false ∧ fetch s.afterTurn = .ok [0xAB, 0xCD, 0x00, 0x04] ∧
      decode s.afterTurn.sel [0xAB, 0xCD, 0x00, 0x04] = .ok (.xTake 0xABCD 4) := by
  intro s hs
  rcases List.mem_pair.mp hs with rfl | rfl <;> exact ⟨by decide, rfl, rfl, rfl⟩

/-- One of each act of the host next, in a busy state. -/
theorem witness_StepRunsSelectedOperation_host :
    ∀ a ∈ [HostAct.writePkt 60 7, .setLen 5, .setStart true, .setRst true, .setRst false, .setXidx 3, .read .busy],
      ({ wMac 52 with turns := [.host a, .block] } : State).turns.head? = some (.host a) ∧
      stepped { wMac 52 with turns := [.host a, .block] } = true := by decide

theorem witness_BlockWaitsWithoutStart :
    ∀ s ∈ [State.reset, wDoneTwo], s.blockMoves ∧ s.rst = false ∧ (s.st = .idle ∨ s.st = .done) ∧
      s.start = false := by decide

theorem witness_ResetFromAnyState :
    ({ wDoneTwo with rst := true } : State).blockMoves ∧ ({ wDoneTwo with rst := true } : State).rst = true := by
  decide

/-- A write at the last byte below LEN while busy, one at LEN while busy, one while idle, at the last address and at the
first that is none; the largest `len_i` and `xidx` and one more; a port that holds a value, one that holds ⊥. -/
theorem witness_HostActsHaveTheirOwnEffect :
    (51 < 2 ^ (wMac 52).cfg.lenW ∧ (wMac 52).busy = true ∧ 51 < (wMac 52).len) ∧
    (Memory.wf (wMac 52).pkt ∧ 52 < 2 ^ (wMac 52).cfg.lenW ∧ (wMac 52).len ≤ 52) ∧
    (Memory.wf wDoneTwo.pkt ∧ 65535 < 2 ^ wDoneTwo.cfg.lenW ∧ wDoneTwo.busy = false) ∧
    2 ^ wDoneTwo.cfg.lenW ≤ 65536 ∧ 65535 ≤ wDoneTwo.cfg.lenMax ∧ wDoneTwo.cfg.lenMax < 65536 ∧
    16383 < 2 ^ wDoneTwo.cfg.xcntW ∧ 2 ^ wDoneTwo.cfg.xcntW ≤ 16384 ∧
    wDoneTwo.port .macKey ≠ none ∧ wDone.port .macKey = none := by decide

/-- A result with the record at `xidx` = XCNT − 1, one with `xidx` = XCNT, a busy state, a failure. -/
theorem witness_PortsShowResultOnlyWhenValid :
    ((wMac 52).st ≠ .done ∧ OutPort.li ∉ [OutPort.busy, .done, .ok, .err, .xle]) ∧
    (wFailed.st = .done ∧ wFailed.ok = false) ∧
    (wDoneTwo.Inv ∧ wDoneTwo.st = .done ∧ wDoneTwo.ok = true ∧ wDoneTwo.xidx < wDoneTwo.xcnt) ∧
    wDoneShort.Inv ∧ wDoneShort.st = .done ∧ wDoneShort.ok = true ∧ wDoneShort.xcnt ≤ wDoneShort.xidx :=
  ⟨by decide, by decide, ⟨inv_of (by decide), by decide⟩, inv_of (by decide), by decide⟩

/-- Every constructor, in a state that admits its row. -/
theorem witness_DecodeInvertsEncode :
    ∀ p ∈ [((⟨.idle, true, 0, 0⟩ : Sel), Instr.start), (⟨.hdr, false, 47, 0⟩, .hTrunc), (⟨.hdr, false, 48, 0⟩, .hLoad),
        (⟨.disp, false, 48, 48⟩, .dV4), (⟨.disp, false, 48, 48⟩, .dLegacy0), (⟨.disp, false, 48, 48⟩, .dLegacy1),
        (⟨.disp, false, 48, 48⟩, .dLegacy2), (⟨.disp, false, 48, 48⟩, .dLegacy3), (⟨.disp, false, 48, 48⟩, .dHigh5),
        (⟨.disp, false, 48, 48⟩, .dHigh6), (⟨.disp, false, 48, 48⟩, .dHigh7), (⟨.ext, false, 51, 48⟩, .xStop),
        (⟨.ext, false, 52, 48⟩, .xFallMod1 1), (⟨.ext, false, 52, 48⟩, .xFallMod2 6),
        (⟨.ext, false, 52, 48⟩, .xFallMod3 65535), (⟨.ext, false, 52, 48⟩, .xFallZero),
        (⟨.ext, false, 55, 48⟩, .xFallOver 8), (⟨.ext, false, 56, 48⟩, .xTake 2 8), (⟨.mac, false, 48, 48⟩, .mNone),
        (⟨.mac, false, 51, 48⟩, .mShort), (⟨.mac, false, 52, 48⟩, .mKey), (⟨.mac, false, 53, 48⟩, .mFull),
        (⟨.chk, false, 48, 48⟩, .cOk), (⟨.chk, false, 49, 48⟩, .cTrail)],
      p.2.wellFormed = true ∧ p.1.admits p.2 = true := by decide

theorem witness_SelectionFollowsTheTable :
    decode ⟨.ext, false, 56, 48⟩ [0x00, 0x02, 0x00, 0x08] = .ok (.xTake 2 8) ∧
    (Instr.xTake 2 8).mask ≠ 0 := by decide

/-- One state for each busy value of ST; the second clause is met by `State.reset`. -/
theorem witness_ExactlyOneOperationEnabled :
    ∀ s ∈ [wHdr 47, wHdr 48, wDisp 4 76, wExt 52 [0xAB, 0xCD, 0x00, 0x04], wMac 51, wChk, wTrail],
      s.Inv ∧ s.rst = false ∧ s.busy = true ∧ s.blockMoves := by
  have h : ∀ s ∈ [wHdr 47, wHdr 48, wDisp 4 76, wExt 52 [0xAB, 0xCD, 0x00, 0x04], wMac 51, wChk, wTrail],
      invHolds s = true ∧ s.rst = false ∧ s.busy = true ∧ s.blockMoves := by decide
  exact fun s hs => ⟨inv_of (h s hs).1, (h s hs).2⟩

theorem witness_PlacedTableWordRuns : Memory.wf State.reset.pkt ∧ Memory.wf (wMac 52).pkt := by decide

/-- Also for OperationsLeaveBufferAndPins. -/
theorem witness_OnlyListedOperationsWriteARegister :
    (Instr.cOk ≠ .start ∧ Instr.cOk.mnemonic ∉ ["H.LOAD", "X.TAKE", "M.SHORT", "M.KEY", "M.FULL"] ∧
      Instr.mNone.mnemonic ∉ ["H.TRUNC", "M.SHORT", "C.OK", "C.TRAIL"]) ∧
    (∃ t, exec .cOk wChk = .next t) ∧ ∃ t, exec .mNone (wMac 48) = .next t :=
  ⟨by decide, next_of_ran (by decide), next_of_ran (by decide)⟩

/-- Each of the four ways a run ends. -/
theorem witness_RunEndsOnlyByCheckOrRaise :
    ∀ p ∈ [(Instr.cOk, wChk), (.hTrunc, wHdr 47), (.mShort, { wMac 49 with cfg := cfgShort }), (.cTrail, wTrail)],
      (nextOf (exec p.1 p.2)).map (·.st) = some .done := by decide

/-- Two states that differ in the flags, the table, the MAC registers and STRATUM. -/
theorem witness_OtherRegistersSteerNothing :
    (let s := wMac 52
     let s' := { s with ok := true, xle := true, xtab := [⟨1, 4, 48⟩], xcnt := 1, macP := true, stratum := none }
     s'.st = s.st ∧ s'.pos = s.pos ∧ s'.len = s.len ∧ s'.vn = s.vn ∧ s'.rst = s.rst ∧ s'.start = s.start ∧
       s'.lenI = s.lenI ∧ s'.pkt = s.pkt ∧ s'.cfg = s.cfg ∧ s' ≠ s) ∧ ∃ t, exec .mKey (wMac 52) = .next t :=
  ⟨by decide, next_of_ran (by decide)⟩

/-- In HDR a byte of the trailer may differ, in EXT a byte of a payload. -/
theorem witness_OnlySteeringBytesAreRead :
    (∀ a, a < (wHdr 60).len →
      ((wHdr 60).st = .hdr ∧ a < 48) ∨
        (((wHdr 60).st = .ext ∨ (wHdr 60).st = .mac) ∧ (wHdr 60).pos ≤ a ∧ a < (wHdr 60).pos + 4) →
      Memory.read [(50, 7)] a = Memory.read (wHdr 60).pkt a) ∧
    (∃ t, exec .hLoad (wHdr 60) = .next t) ∧
    (∀ a, a < 56 → ((Fsm.ext = .hdr ∧ a < 48) ∨ ((Fsm.ext = .ext ∨ Fsm.ext = .mac) ∧ 48 ≤ a ∧ a < 48 + 4)) →
      Memory.read (bytesAt 48 [0, 2, 0, 8, 9]) a = Memory.read (wExt 56 [0, 2, 0, 8]).pkt a) ∧
    ∃ t, exec (.xTake 2 8) (wExt 56 [0, 2, 0, 8]) = .next t :=
  ⟨by decide, next_of_ran (by decide), by decide, next_of_ran (by decide)⟩

/-- After reset and after a run. -/
theorem witness_NothingSurvivesStart :
    wIdle.rst = false ∧ wDone.rst = false ∧ wIdle.st = .idle ∧ wDone.st = .done ∧ wIdle.start = true ∧
    wDone.start = true ∧ wDone.lenI = wIdle.lenI ∧ wDone.xidx = wIdle.xidx ∧ wDone.pkt = wIdle.pkt ∧
    wDone.cfg = wIdle.cfg ∧ wDone.turns = wIdle.turns := by decide

theorem witness_PinsNotSampledWhileBusy :
    (wMac 52).busy = true ∧ (wMac 52).rst = false ∧ ∃ t, blockTurn (wMac 52) = .next t :=
  ⟨by decide, by decide, next_of_isSome (by decide)⟩

theorem witness_HostTurnsLeaveTheBlock :
    HostAct.writePkt 60 7 ≠ .setRst true ∧ ∃ t, hostTurn (.writePkt 60 7) (wMac 52) = .next t :=
  ⟨by decide, next_of_isSome (by decide)⟩

/-- One state for each value of ST, one after a failure, one with a host turn next. -/
theorem witness_InvariantKeptByEveryStep :
    ∀ s ∈ [wIdle, wHdr 47, wHdr 48, wDisp 4 76, wExt 52 [0xAB, 0xCD, 0x00, 0x04], wMac 51, wChk, wTrail, wDoneTwo,
        wDoneShort, { wFailed with start := true }, { wMac 52 with turns := [.host (.writePkt 60 7)] }],
      s.Inv ∧ ∃ t, step s = .next t := by
  have h : ∀ s ∈ [wIdle, wHdr 47, wHdr 48, wDisp 4 76, wExt 52 [0xAB, 0xCD, 0x00, 0x04], wMac 51, wChk, wTrail,
        wDoneTwo, wDoneShort, { wFailed with start := true }, { wMac 52 with turns := [.host (.writePkt 60 7)] }],
      invHolds s = true ∧ stepped s = true := by decide
  exact fun s hs => ⟨inv_of (h s hs).1, next_of_stepped (h s hs).2⟩

/-- A busy state, one that waits without `start`, one under `rst`; also for NoReadOutOfBounds. -/
theorem witness_BlockTurnNeverStuck :
    ∀ s ∈ [wIdle, wMac 51, wDoneTwo, { wMac 51 with rst := true, turns := [.block] }], s.Inv ∧ s.blockMoves := by
  have h : ∀ s ∈ [wIdle, wMac 51, wDoneTwo, { wMac 51 with rst := true, turns := [.block] }],
      invHolds s = true ∧ s.blockMoves := by decide
  exact fun s hs => ⟨inv_of (h s hs).1, (h s hs).2⟩

/-- Each value of ST a clause speaks of, and a table with records. -/
theorem witness_CursorStaysInPacket :
    ∀ s ∈ [State.reset, wHdr 47, wDisp 4 76, wExt 52 [], wMac 51, wChk, wDoneTwo], s.Inv := by
  have h : ∀ s ∈ [State.reset, wHdr 47, wDisp 4 76, wExt 52 [], wMac 51, wChk, wDoneTwo], invHolds s = true := by decide
  exact fun s hs => inv_of (h s hs)

/-- The largest LEN of NTPP-1.0 and of a block with narrower addresses; records, MAC_OFF and MAC_DLEN. -/
theorem witness_RegistersFitTheirWidths :
    ∀ s ∈ [wMac 65535, { wMac 63 with cfg := cfgNarrow }, wDoneTwo], s.Inv := by
  have h : ∀ s ∈ [wMac 65535, { wMac 63 with cfg := cfgNarrow }, wDoneTwo], invHolds s = true := by decide
  exact fun s hs => inv_of (h s hs)

/-- LEN = 48 and a table with records. -/
theorem witness_FieldCountIsBounded :
    ((wDisp 4 48).Inv ∧ 48 ≤ (wDisp 4 48).len) ∧ wDoneTwo.Inv ∧ 48 ≤ wDoneTwo.len :=
  ⟨⟨inv_of (by decide), by decide⟩, inv_of (by decide), by decide⟩

/-- A success with XLE and a failure. -/
theorem witness_DoneStatusIsConsistent :
    (wDoneTwo.Inv ∧ wDoneTwo.st = .done ∧ wDoneTwo.xle = true) ∧ wFailed.Inv ∧ wFailed.st = .done :=
  ⟨⟨inv_of (by decide), by decide, by decide⟩, inv_of (by decide), by decide⟩

theorem witness_TrailingDataUnreachableByDefault : wChk.Inv ∧ wChk.cfg.vother = .macOnly :=
  ⟨inv_of (by decide), by decide⟩

/-- With and without a MAC, with and without a key identifier, with two records. -/
theorem witness_SuccessTilesThePacket :
    ∀ s ∈ [wDone, wDoneTwo, wDoneShort], s.Inv ∧ s.st = .done ∧ s.ok = true := by
  have h : ∀ s ∈ [wDone, wDoneTwo, wDoneShort], invHolds s = true ∧ s.st = .done ∧ s.ok = true := by decide
  exact fun s hs => ⟨inv_of (h s hs).1, (h s hs).2⟩

/-- The packet as it was; a changed packet with a result that points at nothing (MAC of a bare key identifier), and with
one that points into it. -/
theorem witness_SuccessfulResultIsDefined :
    (wDoneTwo.Inv ∧ wDoneTwo.st = .done ∧ wDoneTwo.ok = true ∧ wDoneTwo.intact = true) ∧
    (wDoneKey.Inv ∧ wDoneKey.st = .done ∧ wDoneKey.ok = true ∧ wDoneKey.intact = false ∧ wDoneKey.pointsAtNothing) ∧
    wDoneChanged.Inv ∧ wDoneChanged.intact = false ∧ ¬ wDoneChanged.pointsAtNothing :=
  ⟨⟨inv_of (by decide), by decide⟩, ⟨inv_of (by decide), by decide⟩, inv_of (by decide), by decide⟩

/-- The host writes at LEN, the same value below LEN, another value below LEN; the block waits. -/
theorem witness_ResultFrozenUntilNextStart :
    (∀ s ∈ [{ wDoneTwo with turns := [.host (.writePkt 73 7)] }, { wDoneTwo with turns := [.host (.writePkt 72 0)] },
        { wDoneTwo with turns := [.host (.writePkt 72 7)] }, wDoneTwo],
      s.Inv ∧ s.st = .done ∧ s.ok = true ∧ stepsIn .done s = true) ∧
    wDoneTwo.len ≤ 73 ∧ wDoneTwo.byte 72 = 0 := by
  have h : ∀ s ∈ [{ wDoneTwo with turns := [.host (.writePkt 73 7)] },
        { wDoneTwo with turns := [.host (.writePkt 72 0)] }, { wDoneTwo with turns := [.host (.writePkt 72 7)] },
        wDoneTwo],
      invHolds s = true ∧ s.st = .done ∧ s.ok = true ∧ stepsIn .done s = true := by decide
  exact ⟨fun s hs => ⟨inv_of (h s hs).1, (h s hs).2⟩, by decide⟩

/-- The last byte that may be read and the first that may not. -/
theorem witness_ReadersAreBigEndianAndBounded :
    (51 + 1 ≤ (wMac 52).len ∧ (wMac 52).len < 52 + 1) ∧
    (50 + 2 ≤ (wMac 52).len ∧ (wMac 52).len < 51 + 2) ∧
    (48 + 4 ≤ (wMac 52).len ∧ (wMac 52).len < 49 + 4) ∧
    (44 + 8 ≤ (wMac 52).len ∧ (wMac 52).len < 45 + 8) := by decide

theorem witness_WritersInvertReaders : (65535 : Nat) < 256 ^ 2 ∧ (0 : Nat) < 256 ^ 0 := by decide

/-- X4. -/
theorem witness_RejectedHeaderBecomesKey :
    (wExt 52 [0, 2, 0, 1]).rst = false ∧ (wExt 52 [0, 2, 0, 1]).st = .ext ∧
    4 ≤ (wExt 52 [0, 2, 0, 1]).rem ∧ rdU16 (wExt 52 [0, 2, 0, 1]) 48 = .ok 2 ∧
    rdU16 (wExt 52 [0, 2, 0, 1]) 50 = .ok 1 ∧ ¬ xValid 1 (wExt 52 [0, 2, 0, 1]).rem ∧
    48 + 4 ≤ (wExt 52 [0, 2, 0, 1]).len ∧ 50 + 2 ≤ (wExt 52 [0, 2, 0, 1]).len := by decide

/-- Without and with records, without and with host turns in between. -/
theorem witness_LoopHasClosedForm :
    ∀ s ∈ [wDisp 4 48, { wDisp 4 60 with pkt := bytesAt 48 [0, 1, 0, 4, 0, 2, 0, 4, 0, 3, 0, 4] },
        { wDisp 4 60 with turns := [.host (.writePkt 60 7), .block, .host (.setLen 5), .block] }],
      s.Inv ∧ s.rst = false ∧ s.dutiesKept ∧ s.st = .disp ∧ s.vn = some 4 := by
  have h : ∀ s ∈ [wDisp 4 48, { wDisp 4 60 with pkt := bytesAt 48 [0, 1, 0, 4, 0, 2, 0, 4, 0, 3, 0, 4] },
        { wDisp 4 60 with turns := [.host (.writePkt 60 7), .block, .host (.setLen 5), .block] }],
      invHolds s = true ∧ s.rst = false ∧ s.dutiesKept ∧ s.st = .disp ∧ s.vn = some 4 := by decide
  exact fun s hs => ⟨inv_of (h s hs).1, (h s hs).2⟩

/-- LEN = 0, 47, 48 and S6, with no host turn; S6 with one of each act the host may do in a run. Also for
RunTraceFollowsGrammar and RunComputesReferenceDecoder. -/
theorem witness_EveryRunEndsInBound :
    (∀ bs ∈ [[], zeros 47, zeros 48, s6],
      (launchOf Config.ntpp10 bs).launch bs ∧ (launchOf Config.ntpp10 bs).cfg.defaultPolicies) ∧
    { launchOf Config.ntpp10 s6 with turns := hostInBetween }.launch s6 := by decide

/-- A breach of a duty makes no launch state: a write below LEN, the assertion of `rst`, while busy. -/
theorem witness_launch_excludes_breaches :
    ¬ { launchOf Config.ntpp10 s6 with turns := [.block, .host (.writePkt 55 7)] }.launch s6 ∧
    ¬ { launchOf Config.ntpp10 s6 with turns := [.block, .host (.setRst true)] }.launch s6 := by decide

/-- The longest packet of a block with narrower addresses; one byte more is no launch. -/
theorem witness_EveryRunEndsInBound_narrow :
    (launchOf cfgNarrow (zeros 63)).launch (zeros 63) ∧ ¬ (launchOf cfgNarrow (zeros 64)).launch (zeros 64) := by decide

/-- The default parameters, Q5 under TRAILING_DATA, S7 under TRUNCATED. -/
theorem witness_RunOutcomeByLengthAndPolicy :
    (launchOf Config.ntpp10 (zeros 47)).launch (zeros 47) ∧
    ((launchOf cfgTrail ([0x28] ++ zeros 48)).launch ([0x28] ++ zeros 48) ∧
      (launchOf cfgTrail ([0x28] ++ zeros 48)).cfg.vother = .trailingData) ∧
    (launchOf cfgShort ([0x18] ++ zeros 47 ++ [0xAA, 0xBB, 0xCC])).launch ([0x18] ++ zeros 47 ++ [0xAA, 0xBB, 0xCC]) ∧
    (launchOf cfgShort ([0x18] ++ zeros 47 ++ [0xAA, 0xBB, 0xCC])).cfg.shortMac = .truncated := by decide

theorem witness_EncodeInvertsDecodePacket : ∃ p x, decodePacket h2 = .ok (p, x) := ⟨_, _, rfl⟩

end Sys2Proof.Tests
end

section
/-! PROOFS. Where the records and the MAC registers lie in every state that meets the invariant, and the widths of R5
that follow (O56). -/

namespace Sys2Proof

/-! ### The widths of the parameters -/

theorem Config.lenMax_lt (c : Config) : c.lenMax < 2 ^ c.lenW :=
  Nat.sub_one_lt_of_lt (Nat.two_pow_pos c.lenW)

theorem Config.xmax_lt (c : Config) : c.xmax < 2 ^ c.xcntW := Nat.lt_log2_self

theorem Config.ntpp10_widths :
    Config.ntpp10.lenMax = 65535 ∧ Config.ntpp10.xmax = 16371 ∧ Config.ntpp10.xcntW = 14 := by decide

end Sys2Proof

namespace Sys2Proof.Machine

/-! ### Records and MAC registers inside the packet -/

/-- Each of the records from `a` to `b` lies between them, in steps of four from `a`. -/
theorem tiles_mem {a b : Nat} {rs : List XRec} {r : XRec} (h : tiles a rs b = true) (hr : r ∈ rs) :
    a ≤ r.xoff ∧ r.xoff + r.xlen.toNat ≤ b ∧ r.xoff % 4 = a % 4 := by
  induction rs generalizing a with
  | nil => simp at hr
  | cons c cs ih =>
    simp only [tiles, Bool.and_eq_true, decide_eq_true_eq, beq_iff_eq] at h
    obtain ⟨⟨⟨hoff, h4⟩, hmod⟩, hrest⟩ := h
    obtain rfl | hr := List.mem_cons.mp hr
    · have := (tiles_length hrest).1
      omega
    · have := ih hrest hr
      omega

/-- MAC_OFF and MAC_DLEN of a MAC region, where they hold a value, are at most LEN. -/
theorem State.macFrame_digest_le {s : State} {e : Nat} (h : s.macFrame e) :
    (∀ a, s.macOff = some a → a ≤ s.len) ∧ (∀ n, s.macDlen = some n → n ≤ s.len) := by
  obtain ⟨⟨-, -, -, hoff, hlen⟩, -⟩ | ⟨-, -, -, hoff, hlen, hle⟩ | ⟨-, -, -, hoff, hlen, hlt, -⟩ := h
  · simp [hoff, hlen]
  · simp only [hoff, hlen, Option.some.injEq, forall_eq']
    omega
  · simp only [hoff, hlen, Option.some.injEq, forall_eq']
    omega

section
variable {s : State}

/-- The table is empty, or its records lie back to back from the end of the header to an address within the packet. -/
theorem State.Inv.xtab_tiles (h : s.Inv) : s.xtab = [] ∨ ∃ b ≤ s.len, tiles 48 s.xtab b = true := by
  obtain ⟨-, -, -, hpos, -, -, -, hidle, hhdr, hdisp, hext, hmac, hchk, hdone⟩ := h
  have accounted (ha : s.accounted) : ∃ b ≤ s.len, tiles 48 s.xtab b = true :=
    ⟨s.macStart, macFrame_le ha.2.1, ha.1⟩
  cases hst : s.st with
  | idle => exact .inl (hidle hst).2.2.1
  | hdr => exact .inl (hhdr hst).2.1
  | disp => exact .inl (hdisp hst).2.1
  | ext => exact .inr ⟨s.pos, hpos, (hext hst).1⟩
  | mac => exact .inr ⟨s.pos, hpos, (hmac hst).1⟩
  | chk =>
    obtain ⟨-, -, -, ha | ⟨-, -, -, hnil, -⟩⟩ := hchk hst
    · exact .inr (accounted ha)
    · exact .inl hnil
  | done =>
    obtain ⟨-, -, -, ha⟩ | ⟨-, -, -, hfail⟩ := hdone hst
    · exact .inr (accounted ha)
    · obtain ⟨-, -, -, hnil, -⟩ | ⟨-, -, -, ht, -⟩ | ⟨-, -, ⟨-, -, -, hnil, -⟩, -⟩ := hfail
      · exact .inl hnil
      · exact .inr ⟨s.pos, hpos, ht⟩
      · exact .inl hnil

/-- There is no MAC, or the MAC registers describe the region behind the records. -/
theorem State.Inv.macAbsent_or_macFrame (h : s.Inv) : s.macAbsent ∨ s.macFrame s.macStart := by
  obtain ⟨-, -, -, -, -, -, -, hidle, hhdr, hdisp, hext, hmac, hchk, hdone⟩ := h
  cases hst : s.st with
  | idle =>
    obtain ⟨-, -, -, -, hm, -⟩ := hidle hst
    exact .inl hm
  | hdr =>
    obtain ⟨-, -, -, hm, -⟩ := hhdr hst
    exact .inl hm
  | disp =>
    obtain ⟨-, -, -, hm, -⟩ := hdisp hst
    exact .inl hm
  | ext =>
    obtain ⟨-, -, -, hm, -⟩ := hext hst
    exact .inl hm
  | mac =>
    obtain ⟨-, -, hm, -⟩ := hmac hst
    exact .inl hm
  | chk =>
    obtain ⟨-, -, -, ⟨-, hf, -⟩ | ⟨-, -, -, -, hm, -⟩⟩ := hchk hst
    · exact .inr hf
    · exact .inl hm
  | done =>
    obtain ⟨-, -, -, -, hf, -⟩ | ⟨-, -, hm, -⟩ := hdone hst
    · exact .inr hf
    · exact .inl hm

/-! ### Each register against LEN and XMAX -/

theorem State.Inv.pos_le_len (h : s.Inv) : s.pos ≤ s.len := by
  obtain ⟨-, -, -, hpos, -⟩ := h
  exact hpos

theorem State.Inv.len_le_lenMax (h : s.Inv) : s.len ≤ s.cfg.lenMax := by
  obtain ⟨-, -, hlen, -⟩ := h
  exact hlen

theorem State.Inv.xcnt_eq_length (h : s.Inv) : s.xcnt = s.xtab.length := by
  obtain ⟨-, -, -, -, hcnt, -⟩ := h
  exact hcnt

/-- Each record takes at least four of the bytes behind the header (R47). -/
theorem State.Inv.xcnt_le (h : s.Inv) : s.xcnt ≤ (s.len - 48) / 4 := by
  rw [h.xcnt_eq_length]
  obtain hnil | ⟨b, hb, ht⟩ := h.xtab_tiles
  · simp [hnil]
  · have := (tiles_length ht).1
    omega

theorem State.Inv.trailer_div_four_le_xmax (h : s.Inv) : (s.len - 48) / 4 ≤ s.cfg.xmax :=
  Nat.div_le_div_right (Nat.sub_le_sub_right h.len_le_lenMax 48)

/-- Every record begins within the packet. -/
theorem State.Inv.xoff_le_len (h : s.Inv) {r : XRec} (hr : r ∈ s.xtab) : r.xoff ≤ s.len := by
  obtain hnil | ⟨b, hb, ht⟩ := h.xtab_tiles
  · simp [hnil] at hr
  · obtain ⟨-, hend, -⟩ := tiles_mem ht hr
    omega

/-- The same in every state that meets the invariant. -/
theorem State.Inv.digest_le_len (h : s.Inv) :
    (∀ a, s.macOff = some a → a ≤ s.len) ∧ (∀ n, s.macDlen = some n → n ≤ s.len) := by
  obtain ⟨-, -, -, hoff, hlen⟩ | hf := h.macAbsent_or_macFrame
  · simp [hoff, hlen]
  · exact macFrame_digest_le hf

theorem State.Inv.len_lt (h : s.Inv) : s.len < 2 ^ s.cfg.lenW :=
  h.len_le_lenMax.trans_lt (Config.lenMax_lt _)

theorem State.Inv.xcnt_lt (h : s.Inv) : s.xcnt < 2 ^ s.cfg.xcntW :=
  (h.xcnt_le.trans h.trailer_div_four_le_xmax).trans_lt (Config.xmax_lt _)

end

/-- Settles O56: every address and length is at most LEN, which is at most LEN_MAX, and every record takes four bytes,
so that the count is at most XMAX. -/
theorem registersFitTheirWidths : Obligations.RegistersFitTheirWidths := by
  unfold Obligations.RegistersFitTheirWidths
  refine ⟨fun s h => ?_, Config.ntpp10_widths⟩
  obtain ⟨hoff, hdlen⟩ := h.digest_le_len
  exact ⟨h.pos_le_len.trans_lt h.len_lt, h.len_lt, h.xcnt_lt, fun r hr => (h.xoff_le_len hr).trans_lt h.len_lt,
    fun a ha => (hoff a ha).trans_lt h.len_lt, fun n hn => (hdlen n hn).trans_lt h.len_lt⟩

end Sys2Proof.Machine
end

section
/-! PROOFS. The invariant: it holds at reset and every step keeps it (O36, O37), and what it says of the cursor, the count
of records and the status in DONE (O40, O41, O43); beside it the registers at reset (O20). -/

namespace Sys2Proof.Machine

/-! ### The invariant by the value of ST -/

/-- What the invariant says whatever the value of ST, less the clause about `intact`. -/
abbrev State.base (s : State) : Prop :=
  Memory.wf s.pkt ∧ s.inputsFit ∧ s.len ≤ s.cfg.lenMax ∧ s.pos ≤ s.len ∧ s.xcnt = s.xtab.length ∧
  ((s.xtab ≠ [] ∨ s.xle = true) → s.vn = some 4)

/-- What the invariant says of the registers in each value of ST. -/
abbrev State.phase (s : State) : Fsm → Prop
  | .idle => s.pos = 0 ∧ s.len = 0 ∧ s.xtab = [] ∧ s.headerAbsent ∧ s.macAbsent ∧ s.flagsClear
  | .hdr => s.pos = 0 ∧ s.xtab = [] ∧ s.headerAbsent ∧ s.macAbsent ∧ s.flagsClear
  | .disp => s.pos = 48 ∧ s.xtab = [] ∧ s.headerLoaded ∧ s.macAbsent ∧ s.flagsClear
  | .ext => tiles 48 s.xtab s.pos = true ∧ s.vn = some 4 ∧ s.headerLoaded ∧ s.macAbsent ∧ s.flagsClear
  | .mac => tiles 48 s.xtab s.pos = true ∧ s.headerLoaded ∧ s.macAbsent ∧ s.ok = false ∧ s.err = .none ∧
      (s.xle = true → 4 ≤ s.rem)
  | .chk => s.headerLoaded ∧ s.ok = false ∧ s.err = .none ∧ (s.accounted ∨ s.trailerUnclaimed)
  | .done => (s.ok = true ∧ s.err = .none ∧ s.headerLoaded ∧ s.accounted) ∨ s.failed

/-- Of the seven clauses about ST only the one of its value says anything. -/
theorem State.inv_iff {s : State} :
    s.Inv ↔ s.base ∧ (s.st ≠ .done → s.intact = true) ∧ s.phase s.st := by
  constructor
  · rintro ⟨hwf, hin, hlen, hpos, hcnt, hvn, hint, hidle, hhdr, hdisp, hext, hmac, hchk, hdone⟩
    refine ⟨⟨hwf, hin, hlen, hpos, hcnt, hvn⟩, hint, ?_⟩
    cases hst : s.st with
    | idle => exact hidle hst
    | hdr => exact hhdr hst
    | disp => exact hdisp hst
    | ext => exact hext hst
    | mac => exact hmac hst
    | chk => exact hchk hst
    | done => exact hdone hst
  · rintro ⟨⟨hwf, hin, hlen, hpos, hcnt, hvn⟩, hint, hphase⟩
    have at_phase (f : Fsm) (hf : s.st = f) : s.phase f := hf ▸ hphase
    exact ⟨hwf, hin, hlen, hpos, hcnt, hvn, hint, at_phase .idle, at_phase .hdr, at_phase .disp, at_phase .ext,
      at_phase .mac, at_phase .chk, at_phase .done⟩

/-- To meet the invariant with ST = f is to meet what it says always and what it says in f. -/
theorem State.inv_of_phase {s : State} {f : Fsm} (hst : s.st = f) (hb : s.base)
    (hi : f ≠ .done → s.intact = true) (hp : s.phase f) : s.Inv := by
  subst hst
  exact State.inv_iff.mpr ⟨hb, hi, hp⟩

theorem State.Inv.base {s : State} (h : s.Inv) : s.base := (State.inv_iff.mp h).1

theorem State.Inv.phase {s : State} (h : s.Inv) {f : Fsm} (hst : s.st = f) : s.phase f :=
  hst ▸ (State.inv_iff.mp h).2.2

theorem State.Inv.intact_of_not_done {s : State} (h : s.Inv) {f : Fsm} (hst : s.st = f) (hf : f ≠ .done) :
    s.intact = true :=
  (State.inv_iff.mp h).2.1 (hst ▸ hf)

/-! ### Reset and START -/

/-- The block is put into its reset state beside pins and a buffer that fit. -/
theorem State.resetBlock_inv {s : State} (hb : s.base) : s.resetBlock.Inv := by
  obtain ⟨hwf, hin, -⟩ := hb
  exact State.inv_of_phase (f := .idle) rfl ⟨hwf, hin, Nat.zero_le _, le_rfl, rfl, by simp⟩ (fun _ => rfl)
    ⟨rfl, rfl, rfl, by simp [State.headerAbsent], by simp [State.macAbsent], by simp [State.flagsClear]⟩

theorem State.startRun_inv {s : State} (hb : s.base) : s.startRun.Inv := by
  obtain ⟨hwf, hin, -⟩ := hb
  exact State.inv_of_phase (f := .hdr) rfl ⟨hwf, hin, hin.1, Nat.zero_le _, rfl, by simp⟩ (fun _ => rfl)
    ⟨rfl, rfl, by simp [State.headerAbsent], by simp [State.macAbsent], by simp [State.flagsClear]⟩

/-! ### The operations -/

section
variable {s : State}

/-- H.TRUNC: no byte has been read and no register written. -/
theorem State.Inv.raise_truncated_of_hdr (h : s.Inv) (hst : s.st = .hdr) (hl : s.len < 48) :
    (s.raise .truncated).Inv := by
  obtain ⟨hpos, hx, hh, hm, -, -, hxle⟩ := h.phase hst
  exact State.inv_of_phase (f := .done) rfl h.base (by simp) (.inr ⟨rfl, hxle, hm, .inl ⟨rfl, hl, hpos, hx, hh⟩⟩)

/-- H.LOAD: the header is read from the first 48 bytes. -/
theorem State.Inv.loadHeader (h : s.Inv) (hst : s.st = .hdr) (hl : 48 ≤ s.len) (v : Header) :
    (s.loadHeader v).Inv := by
  obtain ⟨-, hx, -, hm, hf⟩ := h.phase hst
  obtain ⟨hwf, hin, hlen, -, hcnt, -⟩ := h.base
  obtain ⟨-, -, hxle⟩ := id hf
  exact State.inv_of_phase (f := .disp) rfl ⟨hwf, hin, hlen, hl, hcnt, by simp [hx, hxle]⟩
    (fun _ => h.intact_of_not_done hst (by simp)) ⟨rfl, hx, by simp [State.headerLoaded], hm, hf⟩

/-- In DISP there are no records, which end where the header does. -/
theorem State.Inv.tiles_of_disp (h : s.Inv) (hst : s.st = .disp) : tiles 48 s.xtab s.pos = true := by
  obtain ⟨hpos, hx, -⟩ := h.phase hst
  simp [hpos, hx, tiles]

/-- D.V4: the extension fields begin. -/
theorem State.Inv.goto_ext_of_disp (h : s.Inv) (hst : s.st = .disp) (hv : s.vn = some 4) :
    (s.goto .ext).Inv := by
  obtain ⟨-, -, hh, hm, hf⟩ := h.phase hst
  exact State.inv_of_phase (f := .ext) rfl h.base (fun _ => h.intact_of_not_done hst (by simp))
    ⟨h.tiles_of_disp hst, hv, hh, hm, hf⟩

/-- D.LEGACY, and D.HIGH under MAC_ONLY: the MAC region is the whole trailer. -/
theorem State.Inv.goto_mac_of_disp (h : s.Inv) (hst : s.st = .disp) : (s.goto .mac).Inv := by
  obtain ⟨-, -, hh, hm, hok, herr, hxle⟩ := h.phase hst
  exact State.inv_of_phase (f := .mac) rfl h.base (fun _ => h.intact_of_not_done hst (by simp))
    ⟨h.tiles_of_disp hst, hh, hm, hok, herr, by simp [hxle]⟩

/-- D.HIGH, under either value of VOTHER_POLICY. -/
theorem State.Inv.goto_highTarget (h : s.Inv) (hst : s.st = .disp) (hv : s.versionHigh) :
    (s.goto s.highTarget).Inv := by
  cases hc : s.cfg.vother with
  | macOnly =>
    have htgt : s.highTarget = .mac := by simp [State.highTarget, hc]
    exact htgt ▸ h.goto_mac_of_disp hst
  | trailingData =>
    have htgt : s.highTarget = .chk := by simp [State.highTarget, hc]
    obtain ⟨hpos, hx, hh, hm, hok, herr, hxle⟩ := h.phase hst
    exact htgt ▸ State.inv_of_phase (f := .chk) rfl h.base (fun _ => h.intact_of_not_done hst (by simp))
      ⟨hh, hok, herr, .inr ⟨hc, hv, hpos, hx, hm, hxle⟩⟩

/-- X.STOP: the records stay as they are, and XLE is clear. -/
theorem State.Inv.goto_mac_of_ext (h : s.Inv) (hst : s.st = .ext) : (s.goto .mac).Inv := by
  obtain ⟨ht, -, hh, hm, hok, herr, hxle⟩ := h.phase hst
  exact State.inv_of_phase (f := .mac) rfl h.base (fun _ => h.intact_of_not_done hst (by simp))
    ⟨ht, hh, hm, hok, herr, by simp [hxle]⟩

/-- X.FALL: XLE is set, in version 4, with four bytes left for the MAC region. -/
theorem State.Inv.fallBack (h : s.Inv) (hst : s.st = .ext) (hr : 4 ≤ s.rem) : s.fallBack.Inv := by
  obtain ⟨ht, hv, hh, hm, hok, herr, -⟩ := h.phase hst
  obtain ⟨hwf, hin, hlen, hpos, hcnt, -⟩ := h.base
  exact State.inv_of_phase (f := .mac) rfl ⟨hwf, hin, hlen, hpos, hcnt, fun _ => hv⟩
    (fun _ => h.intact_of_not_done hst (by simp)) ⟨ht, hh, hm, hok, herr, fun _ => hr⟩

/-- X.TAKE: one more record lies behind the others. -/
theorem State.Inv.takeField (h : s.Inv) (hst : s.st = .ext) {t l : BitVec 16} (hl : xValid l s.rem) :
    (s.takeField t l).Inv := by
  obtain ⟨ht, hv, hh, hm, hf⟩ := h.phase hst
  obtain ⟨hwf, hin, hlen, -, hcnt, -⟩ := h.base
  obtain ⟨h4, hmod, hle⟩ := hl
  exact State.inv_of_phase (f := .ext) rfl
    ⟨hwf, hin, hlen, State.pos_add_le hle, by simp [hcnt], fun _ => hv⟩
    (fun _ => h.intact_of_not_done hst (by simp)) ⟨tiles_append ht rfl h4 hmod, hv, hh, hm, hf⟩

/-- In MAC the MAC region begins at POS. -/
theorem State.Inv.macStart_of_mac (h : s.Inv) (hst : s.st = .mac) : s.macStart = s.pos :=
  State.macStart_of_tiles (h.phase hst).1

/-- M.NONE: the records end the packet. -/
theorem State.Inv.noMac (h : s.Inv) (hst : s.st = .mac) (hr : s.rem = 0) : s.noMac.Inv := by
  obtain ⟨ht, hh, ⟨-, -, hkey, hoff, hlen⟩, hok, herr, -⟩ := h.phase hst
  have hstart : s.noMac.macStart = s.pos := h.macStart_of_mac hst
  have hpos : s.pos = s.len := by
    unfold State.rem at hr
    omega
  have ha : s.noMac.accounted :=
    ⟨hstart ▸ ht, .inl ⟨⟨rfl, rfl, hkey, hoff, hlen⟩, hstart.trans hpos⟩, hpos⟩
  exact State.inv_of_phase (f := .chk) rfl h.base (fun _ => h.intact_of_not_done hst (by simp))
    ⟨hh, hok, herr, .inl ha⟩

/-- M.SHORT, M.KEY, M.FULL: the MAC registers describe the region from POS to LEN. -/
theorem State.Inv.takeMac (h : s.Inv) (hst : s.st = .mac) {kv : Bool} {key : BitVec 32} {off dlen : Nat}
    (hf : (s.takeMac kv key off dlen).macFrame s.pos) : (s.takeMac kv key off dlen).Inv := by
  obtain ⟨ht, hh, -, hok, herr, -⟩ := h.phase hst
  obtain ⟨hwf, hin, hlen, -, hcnt, hvn⟩ := h.base
  have hstart : (s.takeMac kv key off dlen).macStart = s.pos := h.macStart_of_mac hst
  exact State.inv_of_phase (f := .chk) rfl ⟨hwf, hin, hlen, le_rfl, hcnt, hvn⟩
    (fun _ => h.intact_of_not_done hst (by simp)) ⟨hh, hok, herr, .inl ⟨hstart ▸ ht, hstart ▸ hf, rfl⟩⟩

/-- M.KEY and M.FULL: a key identifier and the digest behind it. -/
theorem State.Inv.takeMac_keyed (h : s.Inv) (hst : s.st = .mac) (hr : 4 ≤ s.rem) (key : BitVec 32) :
    (s.takeMac true key (s.pos + 4) (s.len - s.pos - 4)).Inv :=
  h.takeMac hst (.inr (.inl ⟨rfl, rfl, rfl, rfl, rfl, State.pos_add_le hr⟩))

/-- M.SHORT under ACCEPT_NO_KEY: one to three digest bytes. -/
theorem State.Inv.takeMac_short (h : s.Inv) (hst : s.st = .mac) (h0 : 0 < s.rem) (hr : s.rem < 4) :
    (s.takeMac false 0 s.pos (s.len - s.pos)).Inv := by
  unfold State.rem at h0 hr
  exact h.takeMac hst (.inr (.inr ⟨rfl, rfl, rfl, rfl, rfl, by simp; omega, by simp; omega⟩))

/-- M.SHORT under TRUNCATED: with fewer than four bytes left XLE is clear. -/
theorem State.Inv.raise_truncated_of_mac (h : s.Inv) (hst : s.st = .mac) (h0 : 0 < s.rem) (hr : s.rem < 4)
    (hc : s.cfg.shortMac = .truncated) : (s.raise .truncated).Inv := by
  obtain ⟨ht, hh, hm, -, -, hxle⟩ := h.phase hst
  have hclear : s.xle = false := Bool.eq_false_iff.mpr fun hx => absurd (hxle hx) (by omega)
  exact State.inv_of_phase (f := .done) rfl h.base (by simp)
    (.inr ⟨rfl, hclear, hm, .inr (.inl ⟨rfl, hh, hc, ht, h0, hr⟩)⟩)

/-- With POS = LEN = 48 an unclaimed trailer is empty, so header, records and MAC account for every byte. -/
theorem State.accounted_of_trailerUnclaimed (h : s.trailerUnclaimed) (hp : s.pos = s.len) : s.accounted := by
  obtain ⟨-, -, hpos, hx, hm, -⟩ := h
  have hstart : s.macStart = 48 := by simp [State.macStart, hx]
  exact ⟨by simp [hstart, hx, tiles], .inl ⟨hm, by omega⟩, hp⟩

/-- C.OK: every byte is accounted for. -/
theorem State.Inv.accept (h : s.Inv) (hst : s.st = .chk) (hp : s.pos = s.len) : s.accept.Inv := by
  obtain ⟨hh, -, herr, ha⟩ := h.phase hst
  have hacc : s.accounted := ha.elim id fun hu => State.accounted_of_trailerUnclaimed hu hp
  exact State.inv_of_phase (f := .done) rfl h.base (by simp) (.inl ⟨rfl, herr, hh, hacc⟩)

/-- C.TRAIL: only an unclaimed trailer leaves POS ≠ LEN. -/
theorem State.Inv.raise_trailingData (h : s.Inv) (hst : s.st = .chk) (hp : s.pos ≠ s.len) :
    (s.raise .trailingData).Inv := by
  obtain ⟨hh, -, -, ⟨-, -, ha⟩ | hu⟩ := h.phase hst
  · exact absurd ha hp
  · obtain ⟨-, -, hpos, -, hm, hxle⟩ := id hu
    have hlen : 48 < s.len := by
      have := h.pos_le_len
      omega
    exact State.inv_of_phase (f := .done) rfl h.base (by simp)
      (.inr ⟨rfl, hxle, hm, .inr (.inr ⟨rfl, hh, hu, hlen⟩)⟩)

end

/-- Every operation keeps the invariant. -/
theorem Takes.inv {i : Instr} {s t : State} (ht : Takes i s t) (h : s.Inv) : t.Inv := by
  cases ht with
  | start => exact State.startRun_inv h.base
  | hTrunc hs hl => exact h.raise_truncated_of_hdr hs.2 hl
  | hLoad hs hl => exact h.loadHeader hs.2 hl _
  | dV4 hs hv => exact h.goto_ext_of_disp hs.2 hv
  | dLegacy0 hs | dLegacy1 hs | dLegacy2 hs | dLegacy3 hs => exact h.goto_mac_of_disp hs.2
  | dHigh5 hs hv => exact h.goto_highTarget hs.2 (.inl hv)
  | dHigh6 hs hv => exact h.goto_highTarget hs.2 (.inr (.inl hv))
  | dHigh7 hs hv => exact h.goto_highTarget hs.2 (.inr (.inr hv))
  | xStop hs => exact h.goto_mac_of_ext hs.2
  | xFallMod1 hs hr | xFallMod2 hs hr | xFallMod3 hs hr | xFallZero hs hr | xFallOver hs hr =>
    exact h.fallBack hs.2 hr
  | xTake hs hl => exact h.takeField hs.2 hl
  | mNone hs hr => exact h.noMac hs.2 hr
  | mShort hs h0 hr => exact h.takeMac_short hs.2 h0 hr
  | mShortFails hs h0 hr hc => exact h.raise_truncated_of_mac hs.2 h0 hr hc
  | mKey hs hr => exact h.takeMac_keyed hs.2 hr.ge _
  | mFull hs hr => exact h.takeMac_keyed hs.2 hr.le _
  | cOk hs hp => exact h.accept hs.2 hp
  | cTrail hs hp => exact h.raise_trailingData hs.2 hp

/-! ### The turns -/

/-- The invariant does not look at the list of turns. -/
theorem State.Inv.afterTurn {s : State} (h : s.Inv) : s.afterTurn.Inv := h

theorem blockTurn_inv {s t : State} (ht : blockTurn s = .next t) (h : s.Inv) : t.Inv := by
  obtain ⟨-, rfl⟩ | ⟨-, u, i, -, -, he⟩ | ⟨-, u, -, -, rfl⟩ := blockTurn_next ht
  · exact State.resetBlock_inv h.base
  · exact (exec_next.mp he).inv h
  · exact h

/-- Outside DONE the host writes at or above LEN alone (in IDLE LEN = 0), which is no byte of the packet. -/
theorem State.Inv.hostWrite {s : State} (h : s.Inv) {k : Nat} (b : Byte) (hk : k < 2 ^ s.cfg.lenW)
    (hb : s.busy = true → s.len ≤ k) : (s.hostWrite k b).Inv := by
  obtain ⟨⟨hwf, ⟨hlenI, hxidx, hin⟩, hrest⟩, hint, hphase⟩ := State.inv_iff.mp h
  have hbase : (s.hostWrite k b).base :=
    ⟨Memory.write_wf hwf k b, ⟨hlenI, hxidx, Memory.write_within hin hk b⟩, hrest⟩
  have hout : s.st ≠ .done → s.len ≤ k := fun hd => by
    cases hst : s.st with
    | idle =>
      obtain ⟨-, hlen, -⟩ := h.phase hst
      omega
    | hdr | disp | ext | mac | chk => exact hb (by simp [State.busy, hst])
    | done => exact absurd hst hd
  exact State.inv_iff.mpr ⟨hbase, fun hd => by simp [hint hd, hout hd], hphase⟩

theorem hostTurn_inv {a : HostAct} {s t : State} (ht : hostTurn a s = .next t) (h : s.Inv) : t.Inv := by
  obtain ⟨hwf, ⟨hlenI, hxidx, hin⟩, hrest⟩ := id h
  obtain ⟨k, b, -, hk, hb, rfl⟩ | ⟨n, -, hn, rfl⟩ | ⟨b, -, rfl⟩ | ⟨-, rfl⟩ | ⟨-, rfl⟩ | ⟨i, -, hi, rfl⟩ |
    ⟨p, -, -, rfl⟩ := hostTurn_next ht
  · exact h.hostWrite b hk hb
  · exact ⟨hwf, ⟨hn, hxidx, hin⟩, hrest⟩
  · exact h
  · have hreset : s.resetBlock.Inv := State.resetBlock_inv h.base
    exact hreset
  · exact h
  · exact ⟨hwf, ⟨hlenI, hi, hin⟩, hrest⟩
  · exact h

/-! ### What the invariant says of the cursor, the records and the status -/

section
variable {s : State}

/-- In DISP, EXT and MAC the records end at POS. -/
theorem State.Inv.tiles_to_pos (h : s.Inv) (hst : s.st = .disp ∨ s.st = .ext ∨ s.st = .mac) :
    tiles 48 s.xtab s.pos = true := by
  obtain hst | hst | hst := hst
  · exact h.tiles_of_disp hst
  · exact (h.phase hst).1
  · exact (h.phase hst).1

/-- The header and every record take a multiple of four bytes. -/
theorem State.Inv.pos_aligned (h : s.Inv) (hst : s.st = .disp ∨ s.st = .ext ∨ s.st = .mac) :
    48 ≤ s.pos ∧ s.pos % 4 = 0 := by
  have := tiles_length (h.tiles_to_pos hst)
  omega

theorem State.Inv.xoff_aligned (h : s.Inv) {r : XRec} (hr : r ∈ s.xtab) : r.xoff % 4 = 0 := by
  obtain hnil | ⟨b, -, ht⟩ := h.xtab_tiles
  · simp [hnil] at hr
  · exact (tiles_mem ht hr).2.2

/-- Before H.LOAD the cursor stands at 0. -/
theorem State.Inv.pos_eq_zero (h : s.Inv) (hst : s.st = .idle ∨ s.st = .hdr) : s.pos = 0 := by
  obtain hst | hst := hst
  · exact (h.phase hst).1
  · exact (h.phase hst).1

/-- Under MAC_ONLY no trailer is left unclaimed. -/
theorem State.Inv.pos_eq_len_of_chk (h : s.Inv) (hst : s.st = .chk) (hc : s.cfg.vother = .macOnly) :
    s.pos = s.len := by
  obtain ⟨-, -, -, ⟨-, -, hp⟩ | ⟨hv, -⟩⟩ := h.phase hst
  · exact hp
  · simp [hc] at hv

/-- The two ways a run ends (R39). -/
theorem State.Inv.status_of_done (h : s.Inv) (hst : s.st = .done) :
    (s.ok = true ∧ s.err = .none) ∨ (s.ok = false ∧ (s.err = .truncated ∨ s.err = .trailingData)) := by
  obtain ⟨hok, herr, -⟩ | ⟨hok, -, -, hfail⟩ := h.phase hst
  · exact .inl ⟨hok, herr⟩
  · obtain ⟨herr, -⟩ | ⟨herr, -⟩ | ⟨herr, -⟩ := hfail
    · exact .inr ⟨hok, .inl herr⟩
    · exact .inr ⟨hok, .inl herr⟩
    · exact .inr ⟨hok, .inr herr⟩

/-- A failed run leaves XLE clear, and only a version 4 packet sets it. -/
theorem State.Inv.xle_of_done (h : s.Inv) (hst : s.st = .done) (hx : s.xle = true) :
    s.vn = some 4 ∧ s.ok = true := by
  obtain ⟨-, -, -, -, -, hvn⟩ := h.base
  obtain ⟨hok, -⟩ | ⟨-, hclear, -⟩ := h.phase hst
  · exact ⟨hvn (.inr hx), hok⟩
  · simp [hx] at hclear

end

/-! ### The claims -/

/-- Settles O36: the pins and the buffer of `State.reset` fit. -/
theorem invariantHoldsAtReset : Obligations.InvariantHoldsAtReset := by
  unfold Obligations.InvariantHoldsAtReset
  have hbase : State.reset.base := by decide
  exact State.resetBlock_inv hbase

/-- Settles O37: the agent whose turn it is keeps the invariant, the block by each of its operations. -/
theorem invariantKeptByEveryStep : Obligations.InvariantKeptByEveryStep := by
  unfold Obligations.InvariantKeptByEveryStep
  intro s t h hs
  obtain ⟨-, ht⟩ | ⟨a, -, ht⟩ := step_next hs
  · exact blockTurn_inv ht h.afterTurn
  · exact hostTurn_inv ht h.afterTurn

/-- Settles O40. -/
theorem cursorStaysInPacket : Obligations.CursorStaysInPacket := by
  unfold Obligations.CursorStaysInPacket
  intro s h
  exact ⟨h.pos_le_len, h.len_le_lenMax, h.pos_eq_zero, h.pos_aligned, fun _ => h.xoff_aligned, h.pos_eq_len_of_chk⟩

/-- Settles O41, by the bounds that settle the width of XCNT. -/
theorem fieldCountIsBounded : Obligations.FieldCountIsBounded := by
  unfold Obligations.FieldCountIsBounded
  intro s h _
  exact ⟨h.xcnt_eq_length, h.xcnt_le, h.trailer_div_four_le_xmax⟩

/-- Settles O43. -/
theorem doneStatusIsConsistent : Obligations.DoneStatusIsConsistent := by
  unfold Obligations.DoneStatusIsConsistent
  intro s h hst
  exact ⟨h.status_of_done hst, h.xle_of_done hst⟩

/-- Settles O20. -/
theorem resetRegisterValues : Obligations.ResetRegisterValues := by
  unfold Obligations.ResetRegisterValues
  decide

end Sys2Proof.Machine
end

section
/-! PROOFS. Which registers an operation writes (O28) and which it depends on (O31), by the step relation of the operations. -/

namespace Sys2Proof.Machine

/-! ### What an operation leaves unchanged -/

section
variable {i : Instr} {s t : State}

/-- LEN and `intact` are START's alone. -/
theorem Takes.len_intact_eq (h : Takes i s t) (hi : i ≠ .start) : t.len = s.len ∧ t.intact = s.intact := by
  cases h with
  | start => exact absurd rfl hi
  | _ => exact ⟨rfl, rfl⟩

theorem Takes.pos_eq (h : Takes i s t) (hi : i ≠ .start)
    (hm : i.mnemonic ∉ ["H.LOAD", "X.TAKE", "M.SHORT", "M.KEY", "M.FULL"]) : t.pos = s.pos := by
  cases h with
  | start => exact absurd rfl hi
  | hLoad | xTake | mShort | mKey | mFull => simp [Instr.mnemonic] at hm
  | _ => rfl

theorem Takes.header_eq (h : Takes i s t) (hi : i ≠ .start) (hm : i.mnemonic ≠ "H.LOAD") :
    t.li = s.li ∧ t.vn = s.vn ∧ t.mode = s.mode ∧ t.stratum = s.stratum ∧ t.poll = s.poll ∧
    t.prec = s.prec ∧ t.rdelay = s.rdelay ∧ t.rdisp = s.rdisp ∧ t.refid = s.refid ∧
    t.refts = s.refts ∧ t.orgts = s.orgts ∧ t.rects = s.rects ∧ t.xmtts = s.xmtts := by
  cases h with
  | start => exact absurd rfl hi
  | hLoad => simp [Instr.mnemonic] at hm
  | _ => exact ⟨rfl, rfl, rfl, rfl, rfl, rfl, rfl, rfl, rfl, rfl, rfl, rfl, rfl⟩

theorem Takes.records_eq (h : Takes i s t) (hi : i ≠ .start) (hm : i.mnemonic ≠ "X.TAKE") :
    t.xtab = s.xtab ∧ t.xcnt = s.xcnt := by
  cases h with
  | start => exact absurd rfl hi
  | xTake => simp [Instr.mnemonic] at hm
  | _ => exact ⟨rfl, rfl⟩

theorem Takes.mac_eq (h : Takes i s t) (hi : i ≠ .start)
    (hm : i.mnemonic ∉ ["M.NONE", "M.SHORT", "M.KEY", "M.FULL"]) :
    t.macP = s.macP ∧ t.macKv = s.macKv ∧ t.macKey = s.macKey ∧ t.macOff = s.macOff ∧
    t.macDlen = s.macDlen := by
  cases h with
  | start => exact absurd rfl hi
  | mNone | mShort | mKey | mFull => simp [Instr.mnemonic] at hm
  | _ => exact ⟨rfl, rfl, rfl, rfl, rfl⟩

theorem Takes.xle_eq (h : Takes i s t) (hi : i ≠ .start) (hm : i.mnemonic ≠ "X.FALL") : t.xle = s.xle := by
  cases h with
  | start => exact absurd rfl hi
  | xFallMod1 | xFallMod2 | xFallMod3 | xFallZero | xFallOver => simp [Instr.mnemonic] at hm
  | _ => rfl

theorem Takes.ok_err_eq (h : Takes i s t) (hi : i ≠ .start)
    (hm : i.mnemonic ∉ ["H.TRUNC", "M.SHORT", "C.OK", "C.TRAIL"]) : t.ok = s.ok ∧ t.err = s.err := by
  cases h with
  | start => exact absurd rfl hi
  | hTrunc | mShortFails | cOk | cTrail => simp [Instr.mnemonic] at hm
  | _ => exact ⟨rfl, rfl⟩

end

/-- Settles O28, one group of registers at a time. -/
theorem onlyListedOperationsWriteARegister : Obligations.OnlyListedOperationsWriteARegister := by
  unfold Obligations.OnlyListedOperationsWriteARegister
  intro i s t h hi
  have ht := exec_next.mp h
  obtain ⟨hlen, hintact⟩ := ht.len_intact_eq hi
  exact ⟨hlen, hintact, ht.pos_eq hi, ht.header_eq hi, ht.records_eq hi, ht.mac_eq hi, ht.xle_eq hi, ht.ok_err_eq hi⟩

/-! ### What steers an operation -/

/-- `u` with what steers an operation taken from `s`: ST, POS, LEN, VN, `rst`, `start`, `len_i`, the buffer and the
parameters. -/
def State.steeredAs (u s : State) : State :=
  { u with
    st := s.st, pos := s.pos, len := s.len, vn := s.vn, rst := s.rst, start := s.start, lenI := s.lenI,
    pkt := s.pkt, cfg := s.cfg }

/-- A state that agrees with `s` in all that is steered as `s` already. -/
theorem State.steeredAs_of_agree {s u : State} (hst : u.st = s.st) (hpos : u.pos = s.pos) (hlen : u.len = s.len)
    (hvn : u.vn = s.vn) (hrst : u.rst = s.rst) (hstart : u.start = s.start) (hlenI : u.lenI = s.lenI)
    (hpkt : u.pkt = s.pkt) (hcfg : u.cfg = s.cfg) : u.steeredAs s = u := by
  rw [State.steeredAs, ← hst, ← hpos, ← hlen, ← hvn, ← hrst, ← hstart, ← hlenI, ← hpkt, ← hcfg]

/-- The two states agree in the registers that steer. -/
abbrev State.sameControl (t' t : State) : Prop := t'.st = t.st ∧ t'.pos = t.pos ∧ t'.len = t.len ∧ t'.vn = t.vn

/-- Every condition and every write to ST, POS, LEN and VN reads only what `steeredAs` takes over: the operation that runs
in `s` runs whatever the other registers hold, and steers to the same place. -/
theorem Takes.steeredAs {i : Instr} {s t : State} (ht : Takes i s t) (u : State) :
    ∃ t', Takes i (u.steeredAs s) t' ∧ t'.sameControl t := by
  cases ht with
  | start hr hs hp => exact ⟨_, .start (s := u.steeredAs s) hr hs hp, rfl, rfl, rfl, rfl⟩
  | hTrunc h hl => exact ⟨_, .hTrunc (s := u.steeredAs s) h hl, rfl, rfl, rfl, rfl⟩
  | hLoad h hl => exact ⟨_, .hLoad (s := u.steeredAs s) h hl, rfl, rfl, rfl, rfl⟩
  | dV4 h hv => exact ⟨_, .dV4 (s := u.steeredAs s) h hv, rfl, rfl, rfl, rfl⟩
  | dLegacy0 h hv => exact ⟨_, .dLegacy0 (s := u.steeredAs s) h hv, rfl, rfl, rfl, rfl⟩
  | dLegacy1 h hv => exact ⟨_, .dLegacy1 (s := u.steeredAs s) h hv, rfl, rfl, rfl, rfl⟩
  | dLegacy2 h hv => exact ⟨_, .dLegacy2 (s := u.steeredAs s) h hv, rfl, rfl, rfl, rfl⟩
  | dLegacy3 h hv => exact ⟨_, .dLegacy3 (s := u.steeredAs s) h hv, rfl, rfl, rfl, rfl⟩
  | dHigh5 h hv => exact ⟨_, .dHigh5 (s := u.steeredAs s) h hv, rfl, rfl, rfl, rfl⟩
  | dHigh6 h hv => exact ⟨_, .dHigh6 (s := u.steeredAs s) h hv, rfl, rfl, rfl, rfl⟩
  | dHigh7 h hv => exact ⟨_, .dHigh7 (s := u.steeredAs s) h hv, rfl, rfl, rfl, rfl⟩
  | xStop h hr => exact ⟨_, .xStop (s := u.steeredAs s) h hr, rfl, rfl, rfl, rfl⟩
  | xFallMod1 h hr hl => exact ⟨_, .xFallMod1 (s := u.steeredAs s) h hr hl, rfl, rfl, rfl, rfl⟩
  | xFallMod2 h hr hl => exact ⟨_, .xFallMod2 (s := u.steeredAs s) h hr hl, rfl, rfl, rfl, rfl⟩
  | xFallMod3 h hr hl => exact ⟨_, .xFallMod3 (s := u.steeredAs s) h hr hl, rfl, rfl, rfl, rfl⟩
  | xFallZero h hr hl => exact ⟨_, .xFallZero (s := u.steeredAs s) h hr hl, rfl, rfl, rfl, rfl⟩
  | xFallOver h hr hl hz ho => exact ⟨_, .xFallOver (s := u.steeredAs s) h hr hl hz ho, rfl, rfl, rfl, rfl⟩
  | xTake h hv => exact ⟨_, .xTake (s := u.steeredAs s) h hv, rfl, rfl, rfl, rfl⟩
  | mNone h hr => exact ⟨_, .mNone (s := u.steeredAs s) h hr, rfl, rfl, rfl, rfl⟩
  | mShort h h0 hr hc => exact ⟨_, .mShort (s := u.steeredAs s) h h0 hr hc, rfl, rfl, rfl, rfl⟩
  | mShortFails h h0 hr hc => exact ⟨_, .mShortFails (s := u.steeredAs s) h h0 hr hc, rfl, rfl, rfl, rfl⟩
  | mKey h hr => exact ⟨_, .mKey (s := u.steeredAs s) h hr, rfl, rfl, rfl, rfl⟩
  | mFull h hr => exact ⟨_, .mFull (s := u.steeredAs s) h hr, rfl, rfl, rfl, rfl⟩
  | cOk h hp => exact ⟨_, .cOk (s := u.steeredAs s) h hp, rfl, rfl, rfl, rfl⟩
  | cTrail h hp => exact ⟨_, .cTrail (s := u.steeredAs s) h hp, rfl, rfl, rfl, rfl⟩

/-- Settles O31: the other state is steered as the first. -/
theorem otherRegistersSteerNothing : Obligations.OtherRegistersSteerNothing := by
  unfold Obligations.OtherRegistersSteerNothing
  intro i s s' t hst hpos hlen hvn hrst hstart hlenI hpkt hcfg h
  obtain ⟨t', ht', hsame⟩ := (exec_next.mp h).steeredAs s'
  rw [State.steeredAs_of_agree hst hpos hlen hvn hrst hstart hlenI hpkt hcfg] at ht'
  exact ⟨t', exec_next.mpr ht', hsame⟩

end Sys2Proof.Machine
end

section
/-! PROOFS. What the host sees of a run: the output ports (O22) and the result value (O46). -/

namespace Sys2Proof.Machine

/-! ### When a port shows a value -/

section
variable {s : State}

theorem State.resultValid_iff : s.resultValid = true ↔ s.st = .done ∧ s.ok = true := by
  simp [State.resultValid, State.isDone]

theorem State.resultValid_eq_false (h : s.st ≠ .done ∨ s.ok = false) : s.resultValid = false := by
  rw [Bool.eq_false_iff, Ne, State.resultValid_iff]
  rintro ⟨hst, hok⟩
  simp [hst, hok] at h

/-- Outside a successful DONE a result port shows nothing. -/
theorem State.gated_of_invalid (h : s.resultValid = false) (v : Option Nat) : s.gated v = none := by
  simp [State.gated, h]

theorem State.gated_of_valid (h : s.resultValid = true) (v : Option Nat) : s.gated v = v := if_pos h

theorem State.whenDone_of_done (h : s.st = .done) (v : Nat) : s.whenDone v = some v := by
  simp [State.whenDone, State.isDone, h]

theorem State.whenDone_of_not_done (h : s.st ≠ .done) (v : Nat) : s.whenDone v = none := by
  simp [State.whenDone, State.isDone, h]

/-- The flag ports and the two of the state are the only ones a result does not gate. -/
theorem State.port_of_invalid (h : s.resultValid = false) {p : OutPort}
    (hp : p ∉ [OutPort.busy, .done, .ok, .err, .xle]) : s.port p = none := by
  cases p with
  | busy | done | ok | err | xle => simp at hp
  | _ => exact State.gated_of_invalid h _

theorem State.xrec_of_le (h : s.xcnt ≤ s.xidx) : s.xrec = none := if_neg (by omega)

/-- With xidx below XCNT the record ports show a record of the table. -/
theorem State.Inv.xrec_eq (h : s.Inv) (hx : s.xidx < s.xcnt) : ∃ r, s.xtab[s.xidx]? = some r ∧ s.xrec = some r := by
  have hlt : s.xidx < s.xtab.length := h.xcnt_eq_length ▸ hx
  have hr : s.xtab[s.xidx]? = some s.xtab[s.xidx] := List.getElem?_eq_getElem hlt
  exact ⟨_, hr, (if_pos hx).trans hr⟩

theorem State.port_busy (s : State) :
    s.port .busy = some (if s.st = .hdr ∨ s.st = .disp ∨ s.st = .ext ∨ s.st = .mac ∨ s.st = .chk then 1 else 0) := by
  cases hst : s.st <;> simp [State.port, State.busy, hst]

theorem State.port_done (s : State) : s.port .done = some (if s.st = .done then 1 else 0) := by
  cases hst : s.st <;> simp [State.port, State.isDone, hst]

end

/-- SEC is bits 63:32 of a timestamp, FRAC bits 31:0 (R32). -/
theorem Timestamp.value_toNat (t : Timestamp) : t.value.toNat = 2 ^ 32 * t.sec.toNat + t.frac.toNat := by
  rw [Timestamp.value, BitVec.toNat_append, ← Nat.shiftLeft_add_eq_or_of_lt t.frac.isLt, Nat.shiftLeft_eq, Nat.mul_comm]

theorem State.gated_timestamp {s : State} (h : s.resultValid = true) (v : Option Timestamp) :
    s.gated (v.map (·.value.toNat)) = v.map fun t => 2 ^ 32 * t.sec.toNat + t.frac.toNat := by
  simp only [State.gated_of_valid h, Timestamp.value_toNat]

/-- In a successful DONE the header has been read and every byte is accounted for. -/
theorem State.Inv.success {s : State} (h : s.Inv) (hst : s.st = .done) (hok : s.ok = true) :
    s.headerLoaded ∧ s.accounted := by
  obtain ⟨-, -, hh, ha⟩ | ⟨hfail, -⟩ := h.phase hst
  · exact ⟨hh, ha⟩
  · simp [hok] at hfail

/-- A loaded header is one header value. -/
theorem State.exists_holdsHeader {s : State} (h : s.headerLoaded) : ∃ v, s.holdsHeader v := by
  simp only [State.headerLoaded, Option.isSome_iff_exists] at h
  obtain ⟨⟨li, h1⟩, ⟨vn, h2⟩, ⟨mode, h3⟩, ⟨stratum, h4⟩, ⟨poll, h5⟩, ⟨prec, h6⟩, ⟨rdelay, h7⟩, ⟨rdisp, h8⟩,
    ⟨refid, h9⟩, ⟨refts, h10⟩, ⟨orgts, h11⟩, ⟨rects, h12⟩, ⟨xmtts, h13⟩⟩ := h
  exact ⟨⟨li, vn, mode, stratum, poll, prec, rdelay, rdisp, refid, refts, orgts, rects, xmtts⟩,
    h1, h2, h3, h4, h5, h6, h7, h8, h9, h10, h11, h12, h13⟩

/-- Settles O22. -/
theorem portsShowResultOnlyWhenValid : Obligations.PortsShowResultOnlyWhenValid := by
  unfold Obligations.PortsShowResultOnlyWhenValid
  refine ⟨fun s => ⟨s.port_busy, s.port_done⟩, fun s hst => ?flags, fun s hst => ?noFlags, fun s p hp h => ?gated,
    fun s hst hok => ?shown, fun s h hst hok => ?header, fun s hx => ?noRecord, fun s h hst hok hx => ?record⟩
  case flags => exact ⟨s.whenDone_of_done hst _, s.whenDone_of_done hst _, s.whenDone_of_done hst _⟩
  case noFlags => exact ⟨s.whenDone_of_not_done hst _, s.whenDone_of_not_done hst _, s.whenDone_of_not_done hst _⟩
  case gated => exact s.port_of_invalid (s.resultValid_eq_false h) hp
  case shown =>
    have hv := s.resultValid_iff.mpr ⟨hst, hok⟩
    simp only [State.port, State.gated_timestamp hv, State.gated_of_valid hv, and_self]
  case header =>
    have hv := s.resultValid_iff.mpr ⟨hst, hok⟩
    obtain ⟨v, h1, h2, h3, h4, h5, h6, h7, h8, h9, h10, h11, h12, h13⟩ := s.exists_holdsHeader (h.success hst hok).1
    simp [State.port, State.gated_of_valid hv, h1, h2, h3, h4, h5, h6, h7, h8, h9, h10, h11, h12, h13]
  case noRecord => simp [State.port, State.xrec_of_le hx, State.gated]
  case record =>
    have hv := s.resultValid_iff.mpr ⟨hst, hok⟩
    obtain ⟨r, hr, hrec⟩ := h.xrec_eq hx
    exact ⟨r, hr, by simp [State.port, State.gated_of_valid hv, hrec]⟩

/-! ### The values the registers stand for -/

/-- The bytes PKT[a] to PKT[a + n − 1]. -/
def State.slice (s : State) (a n : Nat) : List Byte := (List.range n).map fun i => s.byte (a + i)

/-- The extension field a record stands for, its payload the XLEN − 4 bytes from XOFF + 4 (R35). -/
def State.recordField (s : State) (r : XRec) : ExtensionField :=
  { fieldType := r.xtype, length := r.xlen, payload := s.slice (r.xoff + 4) (r.xlen.toNat - 4) }

/-- The MAC registers with values for MAC_OFF and MAC_DLEN: the digest, and the key identifier where MAC_KV = 1 (R37). -/
def State.macOf (s : State) (off n : Nat) : Mac :=
  { keyId := if s.macKv then s.macKey else none, digest := s.slice off n }

/-- The packet value of a header, the extension fields and the MAC (R40). -/
def Header.packet (v : Header) (exts : List ExtensionField) (mac : Option Mac) : NtpPacket :=
  { leapIndicator := v.li, version := v.vn, mode := v.mode, stratum := v.stratum,
    poll := sext8 v.poll, precision := sext8 v.prec, rootDelay := v.rdelay, rootDispersion := v.rdisp,
    referenceId := v.refid, reference := v.refts, origin := v.orgts, receive := v.rects, transmit := v.xmtts,
    extensions := exts, mac := mac }

theorem sext8_eq_toInt (v : BitVec 8) : sext8 v = v.toInt := by
  rw [sext8, BitVec.toInt_eq_toNat_cond]
  split <;> split <;> omega

/-- Every record between `a` and `b` has a valid length. -/
theorem tiles_mem_four_le {a b : Nat} {rs : List XRec} {r : XRec} (h : tiles a rs b = true) (hr : r ∈ rs) :
    4 ≤ r.xlen.toNat := by
  induction rs generalizing a with
  | nil => simp at hr
  | cons c cs ih =>
    simp only [tiles, Bool.and_eq_true, decide_eq_true_eq, beq_iff_eq] at h
    obtain ⟨⟨⟨-, h4⟩, -⟩, hrest⟩ := h
    obtain rfl | hr := List.mem_cons.mp hr
    · exact h4
    · exact ih hrest hr

section
variable {s : State}

/-- The payload of a record within the packet has a value when the packet is as it was or the payload is empty. -/
theorem State.fieldOf_eq {r : XRec} (hi : s.intact = true ∨ r.xlen.toNat = 4) (h4 : 4 ≤ r.xlen.toNat)
    (hle : r.xoff + r.xlen.toNat ≤ s.len) : s.fieldOf r = some (s.recordField r) := by
  have hbytes : s.packetBytes (r.xoff + 4) (r.xlen.toNat - 4) = some (s.slice (r.xoff + 4) (r.xlen.toNat - 4)) :=
    State.packetBytes_ok (hi.imp_right fun h => by omega) (by omega)
  rw [State.fieldOf, hbytes]
  rfl

theorem State.fieldsOf_eq {rs : List XRec} (h : ∀ r ∈ rs, s.fieldOf r = some (s.recordField r)) :
    s.fieldsOf rs = some (rs.map s.recordField) := by
  induction rs with
  | nil => rfl
  | cons r rs ih =>
    obtain ⟨hr, hrs⟩ := List.forall_mem_cons.mp h
    simp [State.fieldsOf, hr, ih hrs]

/-- One field without a value leaves the list without one. -/
theorem State.fieldsOf_eq_none {rs : List XRec} {r : XRec} (hr : r ∈ rs) (h : s.fieldOf r = none) :
    s.fieldsOf rs = none := by
  induction rs with
  | nil => simp at hr
  | cons c cs ih =>
    obtain rfl | hr := List.mem_cons.mp hr
    · simp [State.fieldsOf, h]
    · simp [State.fieldsOf, ih hr]

theorem State.macValue_of_absent (h : s.macP = false) : s.macValue = some none := by
  simp [State.macValue, h]

/-- The MAC has a value where its digest has one and its key identifier, where it has one, too. -/
theorem State.macValue_eq {off n : Nat} (hp : s.macP = true) (hkey : s.macKv = true → s.macKey.isSome)
    (hoff : s.macOff = some off) (hlen : s.macDlen = some n) (hi : s.intact = true ∨ n = 0) (hle : off + n ≤ s.len) :
    s.macValue = some (some (s.macOf off n)) := by
  have hbytes : s.packetBytes off n = some (s.slice off n) := State.packetBytes_ok hi hle
  cases hkv : s.macKv with
  | false => simp [State.macValue, State.macOf, hp, hoff, hlen, hbytes, hkv]
  | true =>
    obtain ⟨key, hk⟩ := Option.isSome_iff_exists.mp (hkey hkv)
    simp [State.macValue, State.macOf, hp, hoff, hlen, hbytes, hkv, hk]

/-- A digest byte of a changed packet has no value. -/
theorem State.macValue_changed {n : Nat} (hp : s.macP = true) (hi : s.intact = false) (hlen : s.macDlen = some n)
    (hn : n ≠ 0) : s.macValue = none := by
  simp [State.macValue, hp, hlen, State.packetBytes_changed hi hn]

/-! ### The result -/

theorem State.result_of_invalid (h : s.resultValid = false) : s.result = none := by
  simp [State.result, h]

theorem State.result_eq {v : Header} {exts : List ExtensionField} {mac : Option Mac} (h : s.resultValid = true)
    (hh : s.holdsHeader v) (hx : s.fieldsOf s.xtab = some exts) (hm : s.macValue = some mac) :
    s.result = some (v.packet exts mac) := by
  obtain ⟨h1, h2, h3, h4, h5, h6, h7, h8, h9, h10, h11, h12, h13⟩ := hh
  simp [State.result, Header.packet, h, h1, h2, h3, h4, h5, h6, h7, h8, h9, h10, h11, h12, h13, hx, hm]

/-- Without a value for the records or the MAC there is no result. -/
theorem State.result_eq_none (h : s.fieldsOf s.xtab = none ∨ s.macValue = none) : s.result = none := by
  obtain h | h := h <;> simp [State.result, h]

/-- In a successful DONE every record lies in the packet. -/
theorem State.accounted_record (ha : s.accounted) {r : XRec} (hr : r ∈ s.xtab) :
    4 ≤ r.xlen.toNat ∧ r.xoff + r.xlen.toNat ≤ s.len := by
  obtain ⟨ht, hf, -⟩ := ha
  obtain ⟨-, hend, -⟩ := tiles_mem ht hr
  exact ⟨tiles_mem_four_le ht hr, hend.trans (State.macFrame_le hf)⟩

/-- A MAC has an offset and a digest that ends the packet, and a key identifier where MAC_KV = 1. -/
theorem State.macFrame_present {e : Nat} (hf : s.macFrame e) (hp : s.macP = true) :
    (s.macKv = true → s.macKey.isSome) ∧ ∃ off n, s.macOff = some off ∧ s.macDlen = some n ∧ off + n = s.len := by
  obtain ⟨⟨hno, -⟩, -⟩ | ⟨-, -, hkey, hoff, hlen, hle⟩ | ⟨-, hkv, -, hoff, hlen, hle, -⟩ := hf
  · simp [hp] at hno
  · exact ⟨fun _ => hkey, _, _, hoff, hlen, by omega⟩
  · exact ⟨by simp [hkv], _, _, hoff, hlen, by omega⟩

/-- The extensions of a successful run, where they are as they were or empty. -/
theorem State.fieldsOf_xtab (ha : s.accounted) (hi : s.intact = true ∨ s.pointsAtNothing) :
    s.fieldsOf s.xtab = some (s.xtab.map s.recordField) :=
  State.fieldsOf_eq fun r hr =>
    have ⟨h4, hle⟩ := State.accounted_record ha hr
    State.fieldOf_eq (hi.imp_right fun h => h.1 r hr) h4 hle

end

/-- What MAC_P = 0 and MAC_P = 1 say of the MAC value. -/
abbrev State.describesMac (s : State) (mac : Option Mac) : Prop :=
  (s.macP = false → mac = none) ∧
  (s.macP = true → ∃ off n, s.macOff = some off ∧ s.macDlen = some n ∧ mac = some (s.macOf off n) ∧
    (s.macKv = true → s.macKey.isSome))

section
variable {s : State}

/-- The MAC of a successful run, where its digest is as it was or empty. -/
theorem State.exists_macValue (ha : s.accounted) (hi : s.intact = true ∨ s.pointsAtNothing) :
    ∃ mac, s.macValue = some mac ∧ s.describesMac mac := by
  cases hp : s.macP with
  | false => exact ⟨none, State.macValue_of_absent hp, by simp, by simp [hp]⟩
  | true =>
    obtain ⟨hkey, off, n, hoff, hlen, hle⟩ := State.macFrame_present ha.2.1 hp
    have hempty : s.intact = true ∨ n = 0 := hi.imp_right fun h => by simpa [hlen] using h.2 hp
    exact ⟨_, State.macValue_eq hp hkey hoff hlen hempty hle.le, by simp [hp],
      fun _ => ⟨off, n, hoff, hlen, rfl, hkey⟩⟩

/-- The result of a successful run, where the packet is as it was or nothing of it is pointed at. -/
theorem State.Inv.exists_result (h : s.Inv) (hst : s.st = .done) (hok : s.ok = true)
    (hi : s.intact = true ∨ s.pointsAtNothing) :
    ∃ v mac, s.holdsHeader v ∧ s.describesMac mac ∧ s.result = some (v.packet (s.xtab.map s.recordField) mac) := by
  obtain ⟨hh, ha⟩ := h.success hst hok
  obtain ⟨v, hv⟩ := State.exists_holdsHeader hh
  obtain ⟨mac, hm, hdesc⟩ := State.exists_macValue ha hi
  exact ⟨v, mac, hv, hdesc, State.result_eq (State.resultValid_iff.mpr ⟨hst, hok⟩) hv (State.fieldsOf_xtab ha hi) hm⟩

/-- A changed packet leaves no value to a result that points into it: to a payload or to the digest. -/
theorem State.accounted_changed (ha : s.accounted) (hi : s.intact = false) (hn : ¬ s.pointsAtNothing) :
    s.fieldsOf s.xtab = none ∨ s.macValue = none := by
  by_cases hall : ∀ r ∈ s.xtab, r.xlen.toNat = 4
  · have hmac : ¬ (s.macP = true → s.macDlen = some 0) := fun h => hn ⟨hall, h⟩
    obtain ⟨hp, hlen0⟩ := Classical.not_imp.mp hmac
    obtain ⟨-, -, n, -, hlen, -⟩ := State.macFrame_present ha.2.1 hp
    exact .inr (State.macValue_changed hp hi hlen fun h => hlen0 (h ▸ hlen))
  · obtain ⟨r, hr, hne⟩ : ∃ r ∈ s.xtab, r.xlen.toNat ≠ 4 := by simpa using hall
    obtain ⟨h4, -⟩ := State.accounted_record ha hr
    have hbytes : s.packetBytes (r.xoff + 4) (r.xlen.toNat - 4) = none := State.packetBytes_changed hi (by omega)
    exact .inl (State.fieldsOf_eq_none hr (by simp [State.fieldOf, hbytes]))

theorem State.Inv.result_changed (h : s.Inv) (hi : s.intact = false) (hn : ¬ s.pointsAtNothing) : s.result = none := by
  cases hv : s.resultValid with
  | false => exact State.result_of_invalid hv
  | true =>
    obtain ⟨hst, hok⟩ := State.resultValid_iff.mp hv
    exact State.result_eq_none (State.accounted_changed (h.success hst hok).2 hi hn)

end

/-- Settles O46. -/
theorem successfulResultIsDefined : Obligations.SuccessfulResultIsDefined := by
  unfold Obligations.SuccessfulResultIsDefined
  refine ⟨fun s h hst hok hi => ?_, fun s h hi hn => h.result_changed hi hn,
    fun s h => State.result_of_invalid (State.resultValid_eq_false h)⟩
  obtain ⟨v, mac, ⟨h1, h2, h3, h4, h5, h6, h7, h8, h9, h10, h11, h12, h13⟩, ⟨hno, hmac⟩, hres⟩ :=
    h.exists_result hst hok hi
  exact ⟨_, hres, h1.symm, h2.symm, h3.symm, h4.symm, by simp [Header.packet, h5, sext8_eq_toInt],
    by simp [Header.packet, h6, sext8_eq_toInt], h7.symm, h8.symm, h9.symm, h10.symm, h11.symm, h12.symm, h13.symm,
    rfl, hno, hmac⟩

end Sys2Proof.Machine
end

section
/-! PROOFS. The packet buffer: the block never writes it (O29), never reads outside it (O38), reads of it only the bytes that
steer (O32), and reads the same four bytes as an extension header and as a key identifier (O49). -/

namespace Sys2Proof.Machine

/-! ### No operation writes the buffer -/

/-- No operation writes the buffer, a pin or a parameter. -/
theorem Takes.pkt_pins_cfg_eq {i : Instr} {s t : State} (h : Takes i s t) :
    t.pkt = s.pkt ∧ t.rst = s.rst ∧ t.start = s.start ∧ t.lenI = s.lenI ∧ t.xidx = s.xidx ∧ t.cfg = s.cfg := by
  cases h <;> exact ⟨rfl, rfl, rfl, rfl, rfl, rfl⟩

/-- Settles O29: a byte reads as before because the buffer it is read from is the same. -/
theorem operationsLeaveBufferAndPins : Obligations.OperationsLeaveBufferAndPins := by
  unfold Obligations.OperationsLeaveBufferAndPins
  intro i s t h
  have ht := exec_next.mp h
  obtain ⟨hpkt, hrst, hstart, hlenI, hxidx, hcfg⟩ := ht.pkt_pins_cfg_eq
  exact ⟨fun a => congrArg (Memory.read · a) hpkt, hpkt, hrst, hstart, hlenI, hxidx, hcfg, ht.turns_eq⟩

/-! ### No operation reads outside the packet -/

section
variable {s : State} {f : Fault}

theorem rdU8_ok {a : Nat} (h : a + 1 ≤ s.len) : rdU8 s a = .ok (s.byte a) := by
  rw [rdU8_eq, if_pos h]

theorem rdU16_ok {a : Nat} (h : a + 2 ≤ s.len) : rdU16 s a = .ok (s.byte a ++ s.byte (a + 1)) := by
  rw [rdU16_eq, if_pos h]

theorem rdU32_ok {a : Nat} (h : a + 4 ≤ s.len) :
    rdU32 s a = .ok (s.byte a ++ s.byte (a + 1) ++ s.byte (a + 2) ++ s.byte (a + 3)) := by
  rw [rdU32_eq, if_pos h]

/-- With four bytes left both halves of the extension header at POS can be read. -/
theorem State.rdU16_pos_ok (h : 4 ≤ s.rem) :
    rdU16 s s.pos = .ok s.typeAtPos ∧ rdU16 s (s.pos + 2) = .ok s.lenAtPos := by
  have hp := State.pos_add_le (n := 4) h
  exact ⟨rdU16_ok (by omega), rdU16_ok (by omega)⟩

/-- And so can the key identifier. -/
theorem State.rdU32_pos_ok (h : 4 ≤ s.rem) : rdU32 s s.pos = .ok s.keyAtPos :=
  rdU32_ok (State.pos_add_le (n := 4) h)

/-- An operation that reads nothing does not fault. -/
theorem whenEnabled_update_ne_fault {c : Prop} [Decidable c] {u : State} : whenEnabled c (.next u) ≠ .fault f := by
  simp [whenEnabled_fault]

/-- Four bytes are left where X.FALL reads. -/
theorem fallOn_ne_fault {l : BitVec 16} {c : Prop} [Decidable c] : fallOn l c s ≠ .fault f := by
  intro h
  obtain ⟨⟨-, hr⟩, h⟩ := whenEnabled_fault.mp h
  rw [(State.rdU16_pos_ok hr).2, withRead_ok] at h
  exact whenEnabled_update_ne_fault h

/-- Four bytes are left where X.TAKE reads. -/
theorem execXTake_ne_fault {t l : BitVec 16} : execXTake t l s ≠ .fault f := by
  intro h
  obtain ⟨⟨-, hr⟩, h⟩ := whenEnabled_fault.mp h
  obtain ⟨htype, hlen⟩ := State.rdU16_pos_ok hr
  rw [htype, withRead_ok, hlen, withRead_ok] at h
  exact whenEnabled_update_ne_fault h

/-- M.KEY and M.FULL do not fault where `c` leaves at least four bytes. -/
theorem keyedMac_ne_fault {c : Prop} [Decidable c] (hc : c → 4 ≤ s.rem) : keyedMac c s ≠ .fault f := by
  intro h
  obtain ⟨⟨-, hr⟩, h⟩ := whenEnabled_fault.mp h
  rw [State.rdU32_pos_ok (hc hr), withRead_ok] at h
  cases h

theorem execHLoad_ne_fault : execHLoad s ≠ .fault f := by
  intro h
  obtain ⟨⟨-, hl⟩, h⟩ := whenEnabled_fault.mp h
  rw [readHeader_ok hl, withRead_ok] at h
  cases h

theorem execMShort_ne_fault : execMShort s ≠ .fault f := by
  intro h
  obtain ⟨-, h⟩ := whenEnabled_fault.mp h
  cases hc : s.cfg.shortMac <;> simp [hc] at h

/-- Every operation that reads tests LEN or REM first (R52). -/
theorem exec_ne_fault (i : Instr) (s : State) (f : Fault) : exec i s ≠ .fault f := by
  cases i with
  | start | hTrunc | dV4 | dLegacy0 | dLegacy1 | dLegacy2 | dLegacy3 | dHigh5 | dHigh6 | dHigh7 | xStop | mNone | cOk
  | cTrail => exact whenEnabled_update_ne_fault
  | hLoad => exact execHLoad_ne_fault
  | xFallMod1 | xFallMod2 | xFallMod3 | xFallZero | xFallOver => exact fallOn_ne_fault
  | xTake => exact execXTake_ne_fault
  | mShort => exact execMShort_ne_fault
  | mKey | mFull => exact keyedMac_ne_fault (by omega)

/-- The unit that selects the operation is fetched without a fault, and so is what the operation reads. -/
theorem blockTurn_ne_fault (s : State) (f : Fault) : blockTurn s ≠ .fault f := by
  intro h
  unfold blockTurn at h
  split at h
  · cases h
  · obtain ⟨u, hu⟩ := fetch_ok s
    rw [hu, withRead_ok] at h
    split at h
    · exact exec_ne_fault _ s f h
    · rename_i e _
      cases e <;> cases h

/-- The host's only fault is a write at an address PKT does not have. -/
theorem hostTurn_fault {a : HostAct} (h : hostTurn a s = .fault f) : f = .noSuchAddress := by
  cases a with
  | writePkt k b =>
    simp only [hostTurn] at h
    split at h
    · cases h; rfl
    · split at h <;> cases h
  | setLen n | setXidx n | read n =>
    simp only [hostTurn] at h
    split at h <;> cases h
  | setStart b | setRst b => cases h

/-- It is the turn of the block or of the host. -/
theorem State.blockMoves_or_host (s : State) : s.blockMoves ∨ ∃ a, s.turns.head? = some (.host a) := by
  cases h : s.turns.head? with
  | none => exact .inl (.inl h)
  | some a =>
    cases a with
    | block => exact .inl (.inr h)
    | host a => exact .inr ⟨a, rfl⟩

theorem step_ne_fault_of_blockMoves (h : s.blockMoves) : step s ≠ .fault f :=
  step_block h ▸ blockTurn_ne_fault s.afterTurn f

end

/-- Settles O38: no turn of the block faults, and the host has a fault of its own. -/
theorem noReadOutOfBounds : Obligations.NoReadOutOfBounds := by
  unfold Obligations.NoReadOutOfBounds
  refine ⟨fun s h => ?_, fun s f => step_ne_fault_of_blockMoves, exec_ne_fault⟩
  obtain hb | ⟨a, ha⟩ := s.blockMoves_or_host
  · exact step_ne_fault_of_blockMoves hb h
  · cases hostTurn_fault ((step_host ha).symm.trans h)

/-! ### Which bytes an operation reads -/

/-- `s` with another packet in the buffer. -/
def State.withPkt (s : State) (m : Memory) : State := { s with pkt := m }

/-- `m` holds what the packet does wherever R59 lets an operation look. -/
def State.agreesOnSteering (s : State) (m : Memory) : Prop :=
  ∀ a, a < s.len → (s.st = .hdr ∧ a < 48) ∨ ((s.st = .ext ∨ s.st = .mac) ∧ s.pos ≤ a ∧ a < s.pos + 4) →
    (s.withPkt m).byte a = s.byte a

section
variable {s : State} {m : Memory}

theorem State.headerBytes_withPkt (hm : s.agreesOnSteering m) (hst : s.st = .hdr) (hl : 48 ≤ s.len) :
    (s.withPkt m).headerBytes = s.headerBytes := by
  have hbyte (a : Nat) (ha : a < 48) : (s.withPkt m).byte a = s.byte a := hm a (by omega) (.inl ⟨hst, ha⟩)
  simp [State.headerBytes, State.tsAt, hbyte]

/-- The four bytes at POS, as an extension header and as a key identifier. -/
theorem State.atPos_withPkt (hm : s.agreesOnSteering m) (hst : s.st = .ext ∨ s.st = .mac) (hr : 4 ≤ s.rem) :
    (s.withPkt m).typeAtPos = s.typeAtPos ∧ (s.withPkt m).lenAtPos = s.lenAtPos ∧
    (s.withPkt m).keyAtPos = s.keyAtPos := by
  have hp := State.pos_add_le (n := 4) hr
  have hbyte (k : Nat) (hk : k < 4) : (s.withPkt m).byte (s.pos + k) = s.byte (s.pos + k) :=
    hm _ (by omega) (.inr ⟨hst, by omega, by omega⟩)
  have hpos : (s.withPkt m).pos = s.pos := rfl
  have h0 : (s.withPkt m).byte s.pos = s.byte s.pos := hbyte 0 (by omega)
  simp [State.typeAtPos, State.lenAtPos, State.keyAtPos, hpos, h0, hbyte]

/-- Every operation does the same with such a buffer: it reads nothing, the header in HDR, or the four bytes at POS. -/
theorem Takes.exec_withPkt {i : Instr} {t : State} (ht : Takes i s t) (hm : s.agreesOnSteering m) :
    exec i (s.withPkt m) = .next (t.withPkt m) := by
  cases ht with
  | start h1 h2 h3 => exact whenEnabled_pos ⟨h1, h2, h3⟩
  | hTrunc h1 h2 | xStop h1 h2 | mNone h1 h2 | cOk h1 h2 | cTrail h1 h2 => exact whenEnabled_pos ⟨h1, h2⟩
  | hLoad h1 h2 =>
    have hread : readHeader (s.withPkt m) = .ok s.headerBytes :=
      (readHeader_ok (s := s.withPkt m) h2).trans (congrArg _ (State.headerBytes_withPkt hm h1.2 h2))
    exact whenEnabled_next.mpr ⟨⟨h1, h2⟩, by rw [hread]; rfl⟩
  | dV4 h1 h2 | dLegacy0 h1 h2 | dLegacy1 h1 h2 | dLegacy2 h1 h2 | dLegacy3 h1 h2 | dHigh5 h1 h2 | dHigh6 h1 h2
  | dHigh7 h1 h2 => exact dispatchTo_next.mpr ⟨⟨h1, h2⟩, rfl⟩
  | xFallMod1 h1 h2 h3 | xFallMod2 h1 h2 h3 | xFallMod3 h1 h2 h3 =>
    obtain ⟨-, hlen, -⟩ := State.atPos_withPkt hm (.inl h1.2) h2
    exact fallOn_next.mpr ⟨⟨h1, h2⟩, ⟨hlen, h3⟩, rfl⟩
  | xFallZero h1 h2 h3 =>
    obtain ⟨-, hlen, -⟩ := State.atPos_withPkt hm (.inl h1.2) h2
    exact fallOn_next.mpr ⟨⟨h1, h2⟩, ⟨hlen.trans h3, trivial⟩, rfl⟩
  | xFallOver h1 h2 h3 h4 h5 =>
    obtain ⟨-, hlen, -⟩ := State.atPos_withPkt hm (.inl h1.2) h2
    exact fallOn_next.mpr ⟨⟨h1, h2⟩, ⟨hlen, h3, h4, h5⟩, rfl⟩
  | xTake h1 h2 =>
    obtain ⟨htype, hlen, -⟩ := State.atPos_withPkt hm (.inl h1.2) (by omega)
    exact execXTake_next.mpr ⟨h1, hlen ▸ h2, htype, hlen, by rw [htype, hlen]; rfl⟩
  | mShort h1 h2 h3 hc | mShortFails h1 h2 h3 hc =>
    have hc' : (s.withPkt m).cfg.shortMac = _ := hc
    exact whenEnabled_next.mpr ⟨⟨h1, h2, h3⟩, by rw [hc']; rfl⟩
  | mKey h1 h2 | mFull h1 h2 =>
    obtain ⟨-, -, hkey⟩ := State.atPos_withPkt hm (.inr h1.2) (by omega)
    refine (keyedMac_next (by omega)).mpr ⟨⟨h1, h2⟩, ?_⟩
    exact congrArg (fun key => (s.withPkt m).takeMac true key (s.pos + 4) (s.len - s.pos - 4)) hkey

end

/-- Settles O32, one operation at a time. -/
theorem onlySteeringBytesAreRead : Obligations.OnlySteeringBytesAreRead := by
  unfold Obligations.OnlySteeringBytesAreRead
  intro i s t m hm h
  exact (exec_next.mp h).exec_withPkt hm

/-! ### A rejected header is read again as a key identifier -/

/-- Four bytes as one value are 65536 times the first two and the last two (R54). -/
theorem toNat_append_four (a b c d : Byte) :
    (a ++ b ++ c ++ d).toNat = 65536 * (a ++ b).toNat + (c ++ d).toNat := by
  simp only [toNat_append_byte]
  omega

section
variable {s : State}

/-- X.FALL has a row for every length that is not valid. -/
theorem State.exists_xFall (h : s.At .ext) (hr : 4 ≤ s.rem) (hv : ¬ xValid s.lenAtPos s.rem) :
    ∃ i, Takes i s s.fallBack ∧ i.mnemonic = "X.FALL" := by
  have hmod : s.lenAtPos.toNat % 4 = 0 ∨ s.lenAtPos.toNat % 4 = 1 ∨ s.lenAtPos.toNat % 4 = 2 ∨
      s.lenAtPos.toNat % 4 = 3 := by omega
  obtain h0 | h1 | h2 | h3 := hmod
  · by_cases hz : s.lenAtPos = 0
    · exact ⟨_, .xFallZero h hr hz, rfl⟩
    · have hz : s.lenAtPos.toNat ≠ 0 := fun e => hz (BitVec.eq_of_toNat_eq e)
      have hover : s.rem < (s.lenAtPos.toNat : Int) :=
        not_le.mp fun hle => hv ⟨by omega, h0, hle⟩
      exact ⟨_, .xFallOver h hr h0 hz hover, rfl⟩
  · exact ⟨_, .xFallMod1 h hr h1, rfl⟩
  · exact ⟨_, .xFallMod2 h hr h2, rfl⟩
  · exact ⟨_, .xFallMod3 h hr h3, rfl⟩

/-- In MAC with four bytes left M.KEY or M.FULL takes the key identifier. -/
theorem State.exists_keyedMac (h : s.At .mac) (hr : 4 ≤ s.rem) :
    ∃ j, Takes j s (s.takeMac true s.keyAtPos (s.pos + 4) (s.len - s.pos - 4)) ∧
      (j.mnemonic = "M.KEY" ∨ j.mnemonic = "M.FULL") := by
  obtain hr | hr := hr.eq_or_lt
  · exact ⟨_, .mKey h hr.symm, .inl rfl⟩
  · exact ⟨_, .mFull h hr, .inr rfl⟩

end

/-- Settles O49: X.FALL leaves POS where it is, so the M operation after it reads the same four bytes. -/
theorem rejectedHeaderBecomesKey : Obligations.RejectedHeaderBecomesKey := by
  unfold Obligations.RejectedHeaderBecomesKey
  refine ⟨fun s a ha => ?word, fun s a ha => ?half, fun s ty l hrst hst hr hty hl hv => ?rejected⟩
  case word =>
    exact ⟨_, _, _, rdU32_ok ha, rdU16_ok (by omega), rdU16_ok (by omega), toNat_append_four _ _ _ _⟩
  case half =>
    exact ⟨_, _, _, rdU16_ok ha, rdU8_ok (by omega), rdU8_ok ha, toNat_append_byte _ _⟩
  case rejected =>
    obtain ⟨htype, hlen⟩ := State.rdU16_pos_ok hr
    obtain rfl : s.typeAtPos = ty := Except.ok.inj (htype.symm.trans hty)
    obtain rfl : s.lenAtPos = l := Except.ok.inj (hlen.symm.trans hl)
    obtain ⟨i, hi, hfall⟩ := State.exists_xFall ⟨hrst, hst⟩ hr hv
    obtain ⟨j, hj, hkeyed⟩ := State.exists_keyedMac (s := s.fallBack) ⟨hrst, rfl⟩ hr
    exact ⟨i, j, _, _, s.keyAtPos, hi.exec_eq, hfall, hj.exec_eq, hkeyed, rfl, rfl, rfl, rfl, rfl,
      toNat_append_four _ _ _ _⟩

end Sys2Proof.Machine
end

section
/-! PROOFS. Selection and encoding: decode inverts encode (O24), what is selected has its row of the table (O25), and the
words of the spec (O23). -/

namespace Sys2Proof

/-! ### What the decoder answers, by the value of ST (R84) -/

section
variable {c : Sel}

theorem decode_of_idle_or_done (h : c.st = .idle ∨ c.st = .done) (u : List Byte) :
    decode c u = if c.start then .ok .start else .error .waiting := by
  obtain h | h := h <;> simp only [decode, h]

theorem decode_of_hdr (h : c.st = .hdr) (u : List Byte) :
    decode c u = .ok (if c.len < 48 then .hTrunc else .hLoad) := by
  simp only [decode, h, apply_ite Except.ok]

theorem decode_of_disp (h : c.st = .disp) (b : Byte) : decode c [b] = .ok (decodeByte0 b) := by
  simp only [decode, h]

theorem decode_of_ext_stub (h : c.st = .ext) (hr : c.rem < 4) (u : List Byte) : decode c u = .ok .xStop := by
  simp only [decode, h, if_pos hr]

theorem decode_of_ext_word (h : c.st = .ext) (hr : 4 ≤ c.rem) (b0 b1 b2 b3 : Byte) :
    decode c [b0, b1, b2, b3] = .ok (decodeWord c.rem (unitWord b0 b1 b2 b3)) := by
  simp only [decode, h, if_neg (not_lt.mpr hr)]

theorem decode_of_mac (h : c.st = .mac) (hr : 0 ≤ c.rem) (u : List Byte) :
    decode c u = .ok (if c.rem = 0 then .mNone else if c.rem < 4 then .mShort
      else if c.rem = 4 then .mKey else .mFull) := by
  simp only [decode, h, if_neg (not_lt.mpr hr), apply_ite Except.ok]

theorem decode_of_chk (h : c.st = .chk) (u : List Byte) :
    decode c u = .ok (if c.pos = c.len then .cOk else .cTrail) := by
  simp only [decode, h, apply_ite Except.ok]

/-- Everything the decoder can select. -/
theorem decode_ok {u : List Byte} {i : Instr} (h : decode c u = .ok i) :
    ((c.st = .idle ∨ c.st = .done) ∧ c.start = true ∧ i = .start) ∨
    (c.st = .hdr ∧ i = if c.len < 48 then .hTrunc else .hLoad) ∨
    (c.st = .disp ∧ ∃ b, u = [b] ∧ i = decodeByte0 b) ∨
    (c.st = .ext ∧ c.rem < 4 ∧ i = .xStop) ∨
    (c.st = .ext ∧ 4 ≤ c.rem ∧ ∃ b0 b1 b2 b3, u = [b0, b1, b2, b3] ∧ i = decodeWord c.rem (unitWord b0 b1 b2 b3)) ∨
    (c.st = .mac ∧ 0 ≤ c.rem ∧ i = if c.rem = 0 then .mNone else if c.rem < 4 then .mShort
      else if c.rem = 4 then .mKey else .mFull) ∨
    (c.st = .chk ∧ i = if c.pos = c.len then .cOk else .cTrail) := by
  have answer {j : Instr} (hj : decode c u = .ok j) : i = j := Except.ok.inj (h.symm.trans hj)
  cases hst : c.st with
  | idle | done =>
    rw [decode_of_idle_or_done (by simp [hst])] at h
    split at h <;> simp_all
  | hdr => simp [answer (decode_of_hdr hst u)]
  | disp =>
    simp only [decode, hst] at h
    split at h <;> simp_all
  | ext =>
    by_cases hr : c.rem < 4
    · simp [hr, answer (decode_of_ext_stub hst hr u)]
    · simp only [decode, hst, if_neg hr] at h
      split at h <;> simp_all
  | mac =>
    by_cases hr : c.rem < 0
    · simp [decode, hst, hr] at h
    · have hr : 0 ≤ c.rem := not_lt.mp hr
      simp [hr, answer (decode_of_mac hst hr u)]
  | chk => simp [answer (decode_of_chk hst u)]

end

/-! ### Decode inverts encode -/

theorem wordLen_append (t l : BitVec 16) : wordLen (t ++ l) = l := BitVec.extractLsb'_append_eq_right

theorem wordType_append (t l : BitVec 16) : wordType (t ++ l) = t := BitVec.extractLsb'_append_eq_left

/-- The row an extension header selects, as tests of its length. -/
theorem decode_extHeaderBytes {c : Sel} (h : c.st = .ext) (hr : 4 ≤ c.rem) (t l : BitVec 16) :
    decode c (extHeaderBytes t l) = .ok (
      if l.toNat % 4 = 1 then .xFallMod1 l
      else if l.toNat % 4 = 2 then .xFallMod2 l
      else if l.toNat % 4 = 3 then .xFallMod3 l
      else if l = 0 then .xFallZero
      else if c.rem < (l.toNat : Int) then .xFallOver l
      else .xTake t l) := by
  rw [extHeaderBytes, decode_of_ext_word h hr, unitWord_extHeader, decodeWord_eq, wordLen_append, wordType_append]

/-- Settles O24, row by row: the D rows by their one byte, the X rows by the length in the header, the rows without packet
bits by the state and the lengths alone. -/
theorem decodeInvertsEncode : Obligations.DecodeInvertsEncode := by
  unfold Obligations.DecodeInvertsEncode
  intro c i hwf hadm
  cases i with
    simp only [Sel.admits, Instr.wellFormed, Bool.and_eq_true, Bool.or_eq_true, beq_iff_eq, bne_iff_ne, decide_eq_true_eq]
      at hadm hwf
  | start => rw [decode_of_idle_or_done hadm.1, if_pos hadm.2]
  | hTrunc => rw [decode_of_hdr hadm.1, if_pos hadm.2]
  | hLoad => rw [decode_of_hdr hadm.1, if_neg (not_lt.mpr hadm.2)]
  | dV4 | dLegacy0 | dLegacy1 | dLegacy2 | dLegacy3 | dHigh5 | dHigh6 | dHigh7 => exact decode_of_disp hadm _
  | xStop => exact decode_of_ext_stub hadm.1 hadm.2 _
  | xFallMod1 l => exact (decode_extHeaderBytes hadm.1 hadm.2 0 l).trans (by rw [if_pos hwf])
  | xFallMod2 l => exact (decode_extHeaderBytes hadm.1 hadm.2 0 l).trans (by simp [hwf])
  | xFallMod3 l => exact (decode_extHeaderBytes hadm.1 hadm.2 0 l).trans (by simp [hwf])
  | xFallZero => exact decode_extHeaderBytes hadm.1 hadm.2 0 0
  | xFallOver l =>
    obtain ⟨⟨hst, hr⟩, hover⟩ := hadm
    have hz : l ≠ 0 := fun e => hwf.2 (by simp [e])
    exact (decode_extHeaderBytes hst hr 0 l).trans (by
      rw [if_neg (by omega), if_neg (by omega), if_neg (by omega), if_neg hz, if_pos hover])
  | xTake t l =>
    obtain ⟨⟨hst, hr⟩, hfits⟩ := hadm
    have hz : l ≠ 0 := fun e => hwf.2 (by simp [e])
    exact (decode_extHeaderBytes hst hr t l).trans (by
      rw [if_neg (by omega), if_neg (by omega), if_neg (by omega), if_neg hz, if_neg (not_lt.mpr hfits)])
  | mNone => rw [decode_of_mac hadm.1 (by omega), if_pos hadm.2]
  | mShort => rw [decode_of_mac hadm.1.1 (by omega), if_neg (by omega), if_pos hadm.2]
  | mKey => rw [decode_of_mac hadm.1 (by omega), if_neg (by omega), if_neg (by omega), if_pos hadm.2]
  | mFull => rw [decode_of_mac hadm.1 (by omega), if_neg (by omega), if_neg (by omega), if_neg (by omega)]
  | cOk => rw [decode_of_chk hadm.1, if_pos hadm.2]
  | cTrail => rw [decode_of_chk hadm.1, if_neg hadm.2]

/-! ### What is selected has its row of the table -/

/-- The row of `i` holds of the selection inputs and the unit: operands, state and condition, and packet bits (R84, R85). -/
def Sel.meetsRow (c : Sel) (u : List Byte) (i : Instr) : Prop :=
  i.wellFormed = true ∧ c.admits i = true ∧ (i.mask ≠ 0 → unitNat u &&& i.mask = i.pattern)

/-- The rows of ST = DISP cover every byte. -/
theorem versionBits_cases (b : Byte) :
    b &&& 0x38 = 0x20 ∨ b &&& 0x38 = 0x00 ∨ b &&& 0x38 = 0x08 ∨ b &&& 0x38 = 0x10 ∨ b &&& 0x38 = 0x18 ∨
      b &&& 0x38 = 0x28 ∨ b &&& 0x38 = 0x30 ∨ b &&& 0x38 = 0x38 := by
  revert b
  decide

theorem decodeByte0_meetsRow {c : Sel} (h : c.st = .disp) (b : Byte) : c.meetsRow [b] (decodeByte0 b) := by
  have bits {n : Byte} (hb : b &&& 0x38 = n) : unitNat [b] &&& 0x38 = n.toNat := by
    rw [← hb, BitVec.toNat_and]
    simp [unitNat]
  have hst : (c.st == .disp) = true := by simp [h]
  obtain hb | hb | hb | hb | hb | hb | hb | hb := versionBits_cases b <;> simp only [decodeByte0, hb] <;>
    exact ⟨rfl, hst, fun _ => bits hb⟩

theorem decodeWord_meetsRow {c : Sel} (h : c.st = .ext) (hr : 4 ≤ c.rem) (b0 b1 b2 b3 : Byte) :
    c.meetsRow [b0, b1, b2, b3] (decodeWord c.rem (unitWord b0 b1 b2 b3)) := by
  have hunit : unitNat [b0, b1, b2, b3] = (unitWord b0 b1 b2 b3).toNat := by simp [unitNat, toNat_unitWord]
  have low2 : unitNat [b0, b1, b2, b3] &&& 3 = (wordLen (unitWord b0 b1 b2 b3)).toNat % 4 := by
    rw [hunit, and_three, toNat_wordLen]
    omega
  have low16 : unitNat [b0, b1, b2, b3] &&& 0xFFFF = (wordLen (unitWord b0 b1 b2 b3)).toNat := by
    rw [hunit, and_low16, toNat_wordLen]
  rw [decodeWord_eq]
  split_ifs with h1 h2 h3 hz hover
  · exact ⟨by simpa [Instr.wellFormed] using h1, by simp [Sel.admits, h, hr], fun _ => low2.trans h1⟩
  · exact ⟨by simpa [Instr.wellFormed] using h2, by simp [Sel.admits, h, hr], fun _ => low2.trans h2⟩
  · exact ⟨by simpa [Instr.wellFormed] using h3, by simp [Sel.admits, h, hr], fun _ => low2.trans h3⟩
  · exact ⟨rfl, by simp [Sel.admits, h, hr], fun _ => low16.trans (by simp [hz, Instr.pattern])⟩
  all_goals
    have hz : (wordLen (unitWord b0 b1 b2 b3)).toNat ≠ 0 := fun e => hz (BitVec.eq_of_toNat_eq e)
    have h0 : (wordLen (unitWord b0 b1 b2 b3)).toNat % 4 = 0 := by omega
    refine ⟨by simp [Instr.wellFormed, h0, hz], ?_, fun _ => low2.trans h0⟩
  · simp [Sel.admits, h, hr, hover]
  · simp [Sel.admits, h, hr, not_lt.mp hover]

theorem meetsRow_of_decode {c : Sel} {u : List Byte} {i : Instr} (h : decode c u = .ok i) : c.meetsRow u i := by
  obtain ⟨hst, hs, rfl⟩ | ⟨hst, rfl⟩ | ⟨hst, b, rfl, rfl⟩ | ⟨hst, hr, rfl⟩ | ⟨hst, hr, b0, b1, b2, b3, rfl, rfl⟩ |
    ⟨hst, hr, rfl⟩ | ⟨hst, rfl⟩ := decode_ok h
  · exact ⟨rfl, by simpa [Sel.admits, hs] using hst, fun hm => absurd rfl hm⟩
  · split_ifs with hl
    · exact ⟨rfl, by simp [Sel.admits, hst, hl], fun hm => absurd rfl hm⟩
    · exact ⟨rfl, by simp [Sel.admits, hst, not_lt.mp hl], fun hm => absurd rfl hm⟩
  · exact decodeByte0_meetsRow hst b
  · exact ⟨rfl, by simp [Sel.admits, hst, hr], fun hm => absurd rfl hm⟩
  · exact decodeWord_meetsRow hst hr b0 b1 b2 b3
  · split_ifs with h0 hs h4 <;> refine ⟨rfl, ?_, fun hm => absurd rfl hm⟩
    · simp [Sel.admits, hst, h0]
    · simp [Sel.admits, hst, hs, show 0 < c.rem by omega]
    · simp [Sel.admits, hst, h4]
    · simp [Sel.admits, hst, show 4 < c.rem by omega]
  · split_ifs with hp <;> refine ⟨rfl, ?_, fun hm => absurd rfl hm⟩ <;> simp [Sel.admits, hst, hp]

/-- The word that selects X.TAKE holds its operands. -/
theorem decodeWord_eq_xTake {rem : Int} {w : BitVec 32} {t l : BitVec 16} (h : decodeWord rem w = .xTake t l) :
    t = wordType w ∧ l = wordLen w := by
  rw [decodeWord] at h
  split_ifs at h
  simpa [eq_comm] using h

theorem encode_xTake_of_decode {c : Sel} {u : List Byte} {t l : BitVec 16} (h : decode c u = .ok (.xTake t l)) :
    encode (.xTake t l) = u := by
  obtain ⟨-, hadm, -⟩ := meetsRow_of_decode h
  obtain ⟨⟨hst, hr⟩, -⟩ : (c.st = .ext ∧ 4 ≤ c.rem) ∧ (l.toNat : Int) ≤ c.rem := by simpa [Sel.admits] using hadm
  obtain ⟨b0, b1, b2, b3, rfl, hi⟩ : ∃ b0 b1 b2 b3, u = [b0, b1, b2, b3] ∧
      Instr.xTake t l = decodeWord c.rem (unitWord b0 b1 b2 b3) := by
    simpa [hst, hr, not_lt.mpr hr] using decode_ok h
  obtain ⟨rfl, rfl⟩ := decodeWord_eq_xTake hi.symm
  rw [encode, wordType_unitWord, wordLen_unitWord, extHeaderBytes_append]

/-- Settles O25, by what the decoder can select in each state. -/
theorem selectionFollowsTheTable : Obligations.SelectionFollowsTheTable := by
  unfold Obligations.SelectionFollowsTheTable
  exact ⟨fun c u i h => meetsRow_of_decode h, fun c u t l h => encode_xTake_of_decode h⟩

/-! ### Words of the spec -/

/-- Settles O23, by running the decoder on each word. -/
theorem wordsOfTheSpecDecode : Obligations.WordsOfTheSpecDecode := by
  unfold Obligations.WordsOfTheSpecDecode
  decide

end Sys2Proof
end

section
/-! PROOFS. The block's turn runs the one operation that is enabled: a step is the move of the agent whose turn it is (O17),
one operation is enabled in a busy state (O26), the block is never stuck (O39), and a placed table word runs (O27). -/

namespace Sys2Proof.Machine

/-! ### A step is the move of the agent whose turn it is -/

/-- The turn of the block is the operation the fetched unit selects. -/
theorem blockTurn_of_decode {s : State} {u : List Byte} {i : Instr} (hr : s.rst = false) (hu : fetch s = .ok u)
    (hd : decode s.sel u = .ok i) : blockTurn s = exec i s := by
  rw [blockTurn, if_neg (by simp [hr]), hu, withRead_ok, hd]

/-- Settles O17: `step_block` and `step_host` say which agent moves. -/
theorem stepRunsSelectedOperation : Obligations.StepRunsSelectedOperation := by
  unfold Obligations.StepRunsSelectedOperation
  refine ⟨fun s u i hb hr hu hd => ?_, fun s a ha => step_host ha, fun s => rfl⟩
  exact (step_block hb).trans (blockTurn_of_decode hr hu hd)

/-! ### Which operation is enabled, by the value of ST -/

/-- The step relation is deterministic: it allows only what the decoder selects. -/
theorem Takes.instr_unique {i j : Instr} {s t u : State} (hi : Takes i s t) (hj : Takes j s u) : j = i :=
  Option.some.inj (hj.selected_eq.symm.trans hi.selected_eq)

/-- In IDLE and DONE only START can be enabled, and only while `start` is raised. -/
theorem Takes.start_eq_true {i : Instr} {s t : State} (h : Takes i s t) (hst : s.st = .idle ∨ s.st = .done) :
    s.start = true := by
  cases h with
  | start _ _ hp => exact hp
  | hTrunc h | hLoad h | dV4 h | dLegacy0 h | dLegacy1 h | dLegacy2 h | dLegacy3 h | dHigh5 h | dHigh6 h | dHigh7 h
  | xStop h | xFallMod1 h | xFallMod2 h | xFallMod3 h | xFallZero h | xFallOver h | xTake h | mNone h | mShort h
  | mShortFails h | mKey h | mFull h | cOk h | cTrail h => simp [h.2] at hst

section
variable {s : State}

theorem State.exists_takes_of_hdr (h : s.At .hdr) : ∃ i t, Takes i s t := by
  obtain hl | hl := Nat.lt_or_ge s.len 48
  · exact ⟨_, _, .hTrunc h hl⟩
  · exact ⟨_, _, .hLoad h hl⟩

theorem version_cases (v : BitVec 3) :
    v = 0 ∨ v = 1 ∨ v = 2 ∨ v = 3 ∨ v = 4 ∨ v = 5 ∨ v = 6 ∨ v = 7 := by
  revert v
  decide

/-- Every version has its row. -/
theorem State.exists_takes_of_disp (h : s.At .disp) {v : BitVec 3} (hv : s.vn = some v) : ∃ i t, Takes i s t := by
  obtain rfl | rfl | rfl | rfl | rfl | rfl | rfl | rfl := version_cases v
  · exact ⟨_, _, .dLegacy0 h hv⟩
  · exact ⟨_, _, .dLegacy1 h hv⟩
  · exact ⟨_, _, .dLegacy2 h hv⟩
  · exact ⟨_, _, .dLegacy3 h hv⟩
  · exact ⟨_, _, .dV4 h hv⟩
  · exact ⟨_, _, .dHigh5 h hv⟩
  · exact ⟨_, _, .dHigh6 h hv⟩
  · exact ⟨_, _, .dHigh7 h hv⟩

/-- X.STOP, X.TAKE and X.FALL share out the remainders and the lengths. -/
theorem State.exists_takes_of_ext (h : s.At .ext) : ∃ i t, Takes i s t := by
  obtain hr | hr := lt_or_ge s.rem 4
  · exact ⟨_, _, .xStop h hr⟩
  · by_cases hv : xValid s.lenAtPos s.rem
    · exact ⟨_, _, .xTake h hv⟩
    · obtain ⟨i, hi, -⟩ := State.exists_xFall h hr hv
      exact ⟨i, _, hi⟩

theorem State.exists_takes_mShort (h : s.At .mac) (h0 : 0 < s.rem) (hr : s.rem < 4) : ∃ i t, Takes i s t := by
  cases hc : s.cfg.shortMac with
  | acceptNoKey => exact ⟨_, _, .mShort h h0 hr hc⟩
  | truncated => exact ⟨_, _, .mShortFails h h0 hr hc⟩

theorem State.exists_takes_of_mac (h : s.At .mac) (hpos : s.pos ≤ s.len) : ∃ i t, Takes i s t := by
  have h0 : 0 ≤ s.rem := by
    rw [State.rem]
    omega
  obtain hr | hr := lt_or_ge s.rem 4
  · obtain h0 | h0 := h0.eq_or_lt
    · exact ⟨_, _, .mNone h h0.symm⟩
    · exact State.exists_takes_mShort h h0 hr
  · obtain ⟨i, hi, -⟩ := State.exists_keyedMac h hr
    exact ⟨i, _, hi⟩

theorem State.exists_takes_of_chk (h : s.At .chk) : ∃ i t, Takes i s t := by
  by_cases hp : s.pos = s.len
  · exact ⟨_, _, .cOk h hp⟩
  · exact ⟨_, _, .cTrail h hp⟩

/-- In every busy state of a run an operation is enabled (R86): the invariant gives VN a value in DISP and POS ≤ LEN. -/
theorem State.Inv.exists_takes (h : s.Inv) (hr : s.rst = false) (hb : s.busy = true) : ∃ i t, Takes i s t := by
  cases hst : s.st with
  | idle | done => simp [State.busy, hst] at hb
  | hdr => exact State.exists_takes_of_hdr ⟨hr, hst⟩
  | disp =>
    obtain ⟨-, -, ⟨-, hvn, -⟩, -⟩ := h.phase hst
    obtain ⟨v, hv⟩ := Option.isSome_iff_exists.mp hvn
    exact State.exists_takes_of_disp ⟨hr, hst⟩ hv
  | ext => exact State.exists_takes_of_ext ⟨hr, hst⟩
  | mac => exact State.exists_takes_of_mac ⟨hr, hst⟩ h.pos_le_len
  | chk => exact State.exists_takes_of_chk ⟨hr, hst⟩

end

/-- Settles O26: one operation is enabled by `State.Inv.exists_takes`, and no other since the decoder selects one. -/
theorem exactlyOneOperationEnabled : Obligations.ExactlyOneOperationEnabled := by
  unfold Obligations.ExactlyOneOperationEnabled
  refine ⟨fun s h hr hb => ?_, fun i s t hst hs he => ?_⟩
  · obtain ⟨i, t, hi⟩ := h.exists_takes hr hb
    exact ⟨i, ⟨t, hi.exec_eq⟩, fun j ⟨_, hj⟩ => hi.instr_unique (exec_next.mp hj)⟩
  · simp [(exec_next.mp he).start_eq_true hst] at hs

/-! ### The block is never stuck -/

section
variable {s : State}

theorem blockTurn_of_rst (h : s.rst = true) : blockTurn s = .next s.resetBlock := if_pos h

/-- Without `start` the turn of the block in IDLE and DONE waits. -/
theorem blockTurn_of_waiting (hr : s.rst = false) (hst : s.st = .idle ∨ s.st = .done) (hs : s.start = false) :
    blockTurn s = .next s := by
  have hu : fetch s = .ok [] := by obtain h | h := hst <;> exact fetch_nil (by simp [h]) (by simp [h])
  have hd : decode s.sel [] = .error .waiting := by rw [decode_of_idle_or_done hst, if_neg (by simp [State.sel, hs])]
  rw [blockTurn, if_neg (by simp [hr]), hu, withRead_ok, hd]
  rfl

theorem State.busy_of_not_idle_or_done (h : ¬ (s.st = .idle ∨ s.st = .done)) : s.busy = true := by
  cases hst : s.st <;> simp_all [State.busy]

theorem State.Inv.exists_blockTurn (h : s.Inv) : ∃ t, blockTurn s = .next t := by
  cases hr : s.rst with
  | true => exact ⟨_, blockTurn_of_rst hr⟩
  | false =>
    by_cases hst : s.st = .idle ∨ s.st = .done
    · cases hs : s.start with
      | true => exact ⟨_, (Takes.start hr hst hs).blockTurn_eq⟩
      | false => exact ⟨s, blockTurn_of_waiting hr hst hs⟩
    · obtain ⟨i, t, hi⟩ := h.exists_takes hr (State.busy_of_not_idle_or_done hst)
      exact ⟨t, hi.blockTurn_eq⟩

end

/-- Settles O39: the turn resets, waits, or takes the operation that is enabled. -/
theorem blockTurnNeverStuck : Obligations.BlockTurnNeverStuck := by
  unfold Obligations.BlockTurnNeverStuck
  intro s h hb
  rw [step_block hb]
  exact h.afterTurn.exists_blockTurn

/-! ### A placed table word -/

/-- Only bits 5–3 of byte 0 take part in the selection. -/
theorem decodeByte0_eq_versionByte (b : Byte) : decodeByte0 b = decodeByte0 (versionByte (byte0Vn b)) := by
  revert b
  decide

/-- An enabled operation is what the fetched unit decodes to. -/
theorem Takes.decode_eq {i : Instr} {s t : State} (h : Takes i s t) {u : List Byte} (hu : fetch s = .ok u) :
    decode s.sel u = .ok i := by
  obtain ⟨v, hv, hd⟩ := h.selects
  rwa [Except.ok.inj (hu.symm.trans hv)]

/-- The word a table word places, most significant byte first. -/
def tableWord (w : Nat) : BitVec 32 :=
  unitWord (BitVec.ofNat 8 (w / 2 ^ 24)) (BitVec.ofNat 8 (w / 2 ^ 16)) (BitVec.ofNat 8 (w / 2 ^ 8)) (BitVec.ofNat 8 w)

section
variable (s : State) (w : Nat) {nbits : Nat}

theorem decodeTableWord_zero : decodeTableWord 0 w = some .start := rfl

theorem decodeTableWord_byte (h0 : nbits ≠ 0) (h8 : nbits ≤ 8) :
    decodeTableWord nbits w = some (decodeByte0 (BitVec.ofNat 8 w)) := by
  rw [decodeTableWord, if_neg h0, if_pos h8, decode_of_disp rfl]
  rfl

theorem decodeTableWord_word (h8 : 8 < nbits) : decodeTableWord nbits w = some (decodeWord 65487 (tableWord w)) := by
  rw [decodeTableWord, if_neg (by omega), if_neg (by omega), decode_of_ext_word rfl (by decide)]
  rfl

theorem State.withFetchWord_byte (h0 : nbits ≠ 0) (h8 : nbits ≤ 8) :
    (s.withFetchWord nbits w).At .disp ∧ (s.withFetchWord nbits w).vn = some (byte0Vn (BitVec.ofNat 8 w)) := by
  rw [State.withFetchWord, placeWord, if_neg h0, if_pos h8]
  exact ⟨⟨rfl, rfl⟩, rfl⟩

theorem State.withFetchWord_word (h8 : 8 < nbits) :
    (s.withFetchWord nbits w).At .ext ∧ (s.withFetchWord nbits w).pos = 48 ∧ (s.withFetchWord nbits w).rem = 65487 ∧
      (s.withFetchWord nbits w).pkt = Memory.writeAll s.pkt 48 (beBytes 4 w) := by
  rw [State.withFetchWord, placeWord, if_neg (by omega), if_neg (by omega)]
  exact ⟨⟨rfl, rfl⟩, rfl, rfl, rfl⟩

theorem State.withFetchWord_turns : (s.withFetchWord nbits w).turns = [] := by
  rw [State.withFetchWord, placeWord]
  split_ifs <;> rfl

theorem beBytes_four : beBytes 4 w =
    [BitVec.ofNat 8 (w / 2 ^ 24), BitVec.ofNat 8 (w / 2 ^ 16), BitVec.ofNat 8 (w / 2 ^ 8), BitVec.ofNat 8 w] := by
  simp [beBytes]

variable {s}

/-- The unit of a placed word is its four bytes. -/
theorem State.fetch_withFetchWord_word (hwf : Memory.wf s.pkt) (h8 : 8 < nbits) :
    fetch (s.withFetchWord nbits w) = .ok (beBytes 4 w) := by
  obtain ⟨hat, hpos, hrem, hpkt⟩ := s.withFetchWord_word w h8
  rw [fetch_ext hat.2 (by omega), hpos]
  simp [State.byte, hpkt, Memory.read_writeAll hwf, beBytes_four]

/-- In the state a table word is placed in, the operation the table decoder reads from it is enabled. -/
theorem State.exists_takes_withFetchWord (hwf : Memory.wf s.pkt) (nbits : Nat) :
    ∃ i t, Takes i (s.withFetchWord nbits w) t ∧ decodeTableWord nbits w = some i := by
  obtain rfl | h0 := eq_or_ne nbits 0
  · exact ⟨.start, _, .start rfl (.inl rfl) rfl, decodeTableWord_zero w⟩
  obtain h8 | h8 := le_or_gt nbits 8
  · obtain ⟨hat, hvn⟩ := s.withFetchWord_byte w h0 h8
    obtain ⟨i, t, hi⟩ := State.exists_takes_of_disp hat hvn
    have hd := hi.decode_eq (fetch_disp hat.2 hvn)
    rw [decode_disp hat.2, ← decodeByte0_eq_versionByte] at hd
    exact ⟨i, t, hi, by rw [decodeTableWord_byte w h0 h8, Except.ok.inj hd]⟩
  · obtain ⟨hat, -, hrem, -⟩ := s.withFetchWord_word w h8
    obtain ⟨i, t, hi⟩ := State.exists_takes_of_ext hat
    have hd := hi.decode_eq (State.fetch_withFetchWord_word w hwf h8)
    rw [beBytes_four, decode_of_ext_word hat.2 (by rw [State.sel_rem]; omega), State.sel_rem, hrem] at hd
    exact ⟨i, t, hi, by rw [decodeTableWord_word w h8, tableWord, Except.ok.inj hd]⟩

end

/-- Settles O27: the placed unit is the one the table decoder reads, and its operation is enabled. -/
theorem placedTableWordRuns : Obligations.PlacedTableWordRuns := by
  unfold Obligations.PlacedTableWordRuns
  intro s nbits w hwf
  obtain ⟨i, t, hi, hd⟩ := State.exists_takes_withFetchWord w hwf nbits
  have hstep := hi.step_eq (s.withFetchWord_turns w)
  exact ⟨i, hd, hstep.trans hi.exec_eq.symm, t, hstep⟩

end Sys2Proof.Machine
end

section
/-! PROOFS. The primitive codecs of 40_primitive_codecs.md: each reader is the big-endian value of its bytes, exactly inside
the packet (O47), and the big-endian writers are the inverses of the readers (O48). -/

namespace Sys2Proof.Machine

section
variable {s : State} {a : Nat}

/-! ### The readers inside the packet and outside it -/

theorem rdI8_ok (h : a + 1 ≤ s.len) : rdI8 s a = .ok (s.byte a).toInt := by
  rw [rdI8, rdU8_ok h]
  exact congrArg Except.ok (sext8_eq_toInt _)

theorem rdU8_error (h : s.len < a + 1) : rdU8 s a = .error .boundsViolation := by
  rw [rdU8_eq, if_neg h.not_ge]

theorem rdU16_error (h : s.len < a + 2) : rdU16 s a = .error .boundsViolation := by
  rw [rdU16_eq, if_neg h.not_ge]

theorem rdU32_error (h : s.len < a + 4) : rdU32 s a = .error .boundsViolation := by
  rw [rdU32_eq, if_neg h.not_ge]

/-- Where the eight bytes do not fit, one of the two halves already does not. -/
theorem rdTs64_error (h : s.len < a + 8) : rdTs64 s a = .error .boundsViolation := by
  rw [rdTs64]
  obtain hsec | hsec := le_or_gt (a + 4) s.len
  · rw [rdU32_ok hsec, rdU32_error (a := a + 4) h]
    rfl
  · rw [rdU32_error hsec]
    rfl

/-! ### `BEn` and `BE` are inverse -/

theorem be_cons (b : Byte) (bs : List Byte) : be (b :: bs) = b.toNat * 256 ^ bs.length + be bs := by
  simpa [be] using be_append [b] bs

theorem be_lt (bs : List Byte) : be bs < 256 ^ bs.length := by
  induction bs with
  | nil => decide
  | cons b bs ih =>
    calc be (b :: bs) = b.toNat * 256 ^ bs.length + be bs := be_cons b bs
      _ < (b.toNat + 1) * 256 ^ bs.length := by rw [Nat.succ_mul]; exact Nat.add_lt_add_left ih _
      _ ≤ 256 * 256 ^ bs.length := Nat.mul_le_mul_right _ b.isLt
      _ = 256 ^ (b :: bs).length := (Nat.pow_succ').symm

@[simp] theorem length_beBytes (n v : Nat) : (beBytes n v).length = n := by
  induction n with
  | zero => rfl
  | succ n ih => rw [beBytes, List.length_cons, ih]

/-- The bytes written are the last n base-256 digits of the value. -/
theorem be_beBytes (n v : Nat) : be (beBytes n v) = v % 256 ^ n := by
  induction n with
  | zero => rw [Nat.pow_zero, Nat.mod_one]; rfl
  | succ n ih =>
    rw [beBytes, be_cons, ih, length_beBytes, BitVec.toNat_ofNat, Nat.mod_pow_succ (b := 256),
      Nat.mul_comm, Nat.add_comm]

/-- A multiple of 256^n does not show in the n bytes written. -/
theorem beBytes_mul_add (n k v : Nat) : beBytes n (k * 256 ^ n + v) = beBytes n v := by
  induction n generalizing k with
  | zero => rfl
  | succ n ih =>
    have hsplit : k * 256 ^ (n + 1) + v = (k * 256) * 256 ^ n + v := by ring
    have hhead : (k * 256 * 256 ^ n + v) / 256 ^ n = k * 256 + v / 256 ^ n := by
      rw [Nat.add_comm, Nat.add_mul_div_right _ _ (by positivity), Nat.add_comm]
    rw [beBytes, hsplit, ih, hhead, beBytes]
    congr 1
    apply BitVec.eq_of_toNat_eq
    simp

theorem beBytes_be (bs : List Byte) : beBytes bs.length (be bs) = bs := by
  induction bs with
  | nil => rfl
  | cons b bs ih =>
    have hhead : (b.toNat * 256 ^ bs.length + be bs) / 256 ^ bs.length = b.toNat := by
      rw [Nat.add_comm, Nat.add_mul_div_right _ _ (by positivity), Nat.div_eq_of_lt (be_lt bs), Nat.zero_add]
    rw [be_cons, List.length_cons, beBytes, hhead, beBytes_mul_add, ih, BitVec.ofNat_toNat, BitVec.setWidth_eq]

/-! ### A value read, written again -/

theorem length_of_memRead {n : Nat} {bs : List Byte} (h : memRead s a n = .ok bs) : bs.length = n := by
  rw [memRead_eq] at h
  split_ifs at h
  cases h
  simp

/-- Two reads one behind the other are one read. -/
theorem memRead_append {m n : Nat} {bs cs : List Byte} (hb : memRead s a m = .ok bs)
    (hc : memRead s (a + m) n = .ok cs) : memRead s a (m + n) = .ok (bs ++ cs) := by
  rw [memRead_eq] at hb hc
  split_ifs at hb hc with hm hn
  cases hb
  cases hc
  rw [memRead_ok (by omega), List.range_add]
  simp [Nat.add_assoc]

/-- What every unsigned reader does: a value of n bytes read at width w = 8·n and written again gives the bytes read. -/
theorem memRead_of_map_be {n w : Nat} {v : BitVec w} (hw : 2 ^ w = 256 ^ n)
    (h : ((memRead s a n).map fun bs => BitVec.ofNat w (be bs)) = .ok v) :
    memRead s a n = .ok (beBytes n v.toNat) := by
  cases hr : memRead s a n with
  | error f => simp [hr, Except.map] at h
  | ok bs =>
    obtain rfl : BitVec.ofNat w (be bs) = v := by simpa [hr, Except.map] using h
    obtain rfl := length_of_memRead hr
    rw [BitVec.toNat_ofNat, hw, Nat.mod_eq_of_lt (be_lt bs), beBytes_be]

/-- A timestamp is read as its two halves. -/
theorem rdU32_of_rdTs64 {t : Timestamp} (h : rdTs64 s a = .ok t) :
    rdU32 s a = .ok t.sec ∧ rdU32 s (a + 4) = .ok t.frac := by
  obtain hin | hout := le_or_gt (a + 8) s.len
  · obtain rfl : s.tsAt a = t := by simpa [rdTs64_ok hin] using h
    exact ⟨rdU32_ok (by omega), rdU32_ok hin⟩
  · simp [rdTs64_error hout] at h

theorem memRead_of_rdU32 {v : BitVec 32} (h : rdU32 s a = .ok v) : memRead s a 4 = .ok (beBytes 4 v.toNat) :=
  memRead_of_map_be (by norm_num) h

theorem memRead_of_rdTs64 {t : Timestamp} (h : rdTs64 s a = .ok t) :
    memRead s a 8 = .ok (beBytes 4 t.sec.toNat ++ beBytes 4 t.frac.toNat) := by
  obtain ⟨hsec, hfrac⟩ := rdU32_of_rdTs64 h
  exact memRead_append (memRead_of_rdU32 hsec) (memRead_of_rdU32 hfrac)

end

/-- Settles O47. -/
theorem readersAreBigEndianAndBounded : Obligations.ReadersAreBigEndianAndBounded := by
  unfold Obligations.ReadersAreBigEndianAndBounded
  exact ⟨fun s a h => ⟨rdU8_ok h, rdI8_ok h⟩, fun s a h => rdU16_ok h, fun s a h => ⟨rdU32_ok h, rfl⟩,
    fun s a h => rdTs64_ok h, fun s a => ⟨rdU8_error, rdU16_error, rdU32_error, rdTs64_error⟩⟩

/-- Settles O48: the n bytes of v are its n base-256 digits, and each reader is BE of the bytes it reads. -/
theorem writersInvertReaders : Obligations.WritersInvertReaders := by
  unfold Obligations.WritersInvertReaders
  refine ⟨fun n v hv => ?value, fun bs => ⟨beBytes_be bs, be_lt bs⟩, fun s a => ?readers⟩
  case value => exact ⟨by rw [be_beBytes, Nat.mod_eq_of_lt hv], length_beBytes n v⟩
  case readers =>
    exact ⟨fun v h => memRead_of_map_be (by norm_num) h, fun v h => memRead_of_map_be (by norm_num) h,
      fun v h => memRead_of_rdU32 h, fun t h => memRead_of_rdTs64 h⟩

end Sys2Proof.Machine
end

section
/-! PROOFS. The header parser of 41_header_parser.md: what H.TRUNC and H.LOAD write (O2, O3), and that the header
registers are a bijective image of PKT[0..47] (O4): their bytes are those of the packet, and no two headers have the
same bytes. -/

namespace Sys2Proof.Machine

/-! ### The bytes of a value read -/

/-- Four bytes read as one value are the bytes that value is written as. -/
theorem beBytes_toNat_append (a b c d : Byte) : beBytes 4 (a ++ b ++ c ++ d).toNat = [a, b, c, d] := by
  have hlt : be [a, b, c, d] < 2 ^ (8 + 8 + 8 + 8) := (be_lt [a, b, c, d]).trans_eq (by norm_num)
  rw [← be_four, BitVec.toNat_ofNat, Nat.mod_eq_of_lt hlt]
  exact beBytes_be [a, b, c, d]

/-- The eight bytes at `a` are those of the timestamp there. -/
theorem State.bytes_tsAt (s : State) (a : Nat) : (s.tsAt a).bytes = (List.range 8).map fun i => s.byte (a + i) := by
  rw [Timestamp.bytes, State.tsAt, beBytes_toNat_append, beBytes_toNat_append]
  rfl

/-- Byte 0 is 64·LI + 8·VN + MODE of the fields it holds (R112). -/
theorem byte0_eq (b : Byte) :
    BitVec.ofNat 8 (64 * (byte0Li b).toNat + 8 * (byte0Vn b).toNat + (byte0Mode b).toNat) = b := by
  have := b.isLt
  apply BitVec.eq_of_toNat_eq
  simp only [byte0Li, byte0Vn, byte0Mode, BitVec.extractLsb'_toNat, BitVec.toNat_ofNat, Nat.shiftRight_eq_div_pow]
  omega

/-- The header registers give the first 48 bytes of the packet back. -/
theorem State.bytes_headerBytes (s : State) : s.headerBytes.bytes = (List.range 48).map s.byte := by
  rw [Header.bytes, State.headerBytes, byte0_eq]
  simp only [beBytes_toNat_append, State.bytes_tsAt]
  rfl

/-! ### The bytes determine the value -/

theorem be_beBytes_toNat (v : BitVec 32) : be (beBytes 4 v.toNat) = v.toNat := by
  rw [be_beBytes, Nat.mod_eq_of_lt (show v.toNat < 256 ^ 4 from v.isLt)]

theorem beBytes_toNat_injective {v w : BitVec 32} (h : beBytes 4 v.toNat = beBytes 4 w.toNat) : v = w :=
  BitVec.eq_of_toNat_eq (by rw [← be_beBytes_toNat v, h, be_beBytes_toNat])

theorem Timestamp.bytes_injective {t u : Timestamp} (h : t.bytes = u.bytes) : t = u := by
  obtain ⟨hsec, hfrac⟩ := List.append_inj' h rfl
  cases t
  cases u
  rw [Timestamp.mk.injEq]
  exact ⟨beBytes_toNat_injective hsec, beBytes_toNat_injective hfrac⟩

/-- LI, VN and MODE are digits of byte 0, of two, three and three bits. -/
theorem byte0_injective {li li' : BitVec 2} {vn vn' mode mode' : BitVec 3}
    (h : BitVec.ofNat 8 (64 * li.toNat + 8 * vn.toNat + mode.toNat)
      = BitVec.ofNat 8 (64 * li'.toNat + 8 * vn'.toNat + mode'.toNat)) :
    li = li' ∧ vn = vn' ∧ mode = mode' := by
  have hnat := congrArg BitVec.toNat h
  simp only [BitVec.toNat_ofNat] at hnat
  have := li.isLt
  have := li'.isLt
  have := vn.isLt
  have := vn'.isLt
  have := mode.isLt
  have := mode'.isLt
  refine ⟨BitVec.eq_of_toNat_eq ?_, BitVec.eq_of_toNat_eq ?_, BitVec.eq_of_toNat_eq ?_⟩ <;> omega

/-- No two headers have the same bytes: each field has as many bytes in both, so the fields agree one by one. -/
theorem Header.bytes_injective {h g : Header} (e : h.bytes = g.bytes) : h = g := by
  obtain ⟨e, hxmtts⟩ := List.append_inj' e rfl
  obtain ⟨e, hrects⟩ := List.append_inj' e rfl
  obtain ⟨e, horgts⟩ := List.append_inj' e rfl
  obtain ⟨e, hrefts⟩ := List.append_inj' e rfl
  obtain ⟨e, hrefid⟩ := List.append_inj' e rfl
  obtain ⟨e, hrdisp⟩ := List.append_inj' e rfl
  obtain ⟨e, hrdelay⟩ := List.append_inj' e rfl
  obtain ⟨hbyte0, hbytes⟩ := List.append_inj' e rfl
  obtain ⟨hli, hvn, hmode⟩ := byte0_injective (List.singleton_inj.mp hbyte0)
  obtain ⟨hstratum, hpoll, hprec⟩ : h.stratum = g.stratum ∧ h.poll = g.poll ∧ h.prec = g.prec := by
    simpa using hbytes
  cases h
  cases g
  rw [Header.mk.injEq]
  exact ⟨hli, hvn, hmode, hstratum, hpoll, hprec, beBytes_toNat_injective hrdelay, beBytes_toNat_injective hrdisp,
    beBytes_toNat_injective hrefid, Timestamp.bytes_injective hrefts, Timestamp.bytes_injective horgts,
    Timestamp.bytes_injective hrects, Timestamp.bytes_injective hxmtts⟩

/-! ### The claims -/

theorem State.holdsHeader_loadHeader (s : State) (h : Header) : (s.loadHeader h).holdsHeader h := by
  simp [State.holdsHeader]

/-- Settles O4: H.LOAD writes the header whose bytes are PKT[0..47], and there is only one such header. -/
theorem headerRegistersGiveBytesBack : Obligations.HeaderRegistersGiveBytesBack := by
  unfold Obligations.HeaderRegistersGiveBytesBack
  refine ⟨fun s hr hst hl => ?registersGiveBytes, fun s h hr hst hl hbytes => ?bytesGiveRegisters⟩
  case registersGiveBytes =>
    exact ⟨_, s.headerBytes, exec_next.mpr (.hLoad ⟨hr, hst⟩ hl), s.holdsHeader_loadHeader _,
      s.bytes_headerBytes.symm⟩
  case bytesGiveRegisters =>
    obtain rfl : s.headerBytes = h := Header.bytes_injective (s.bytes_headerBytes.trans hbytes)
    exact ⟨_, exec_next.mpr (.hLoad ⟨hr, hst⟩ hl), s.holdsHeader_loadHeader _⟩

/-- Settles O2: H.TRUNC is the error entry `raise` and nothing else, so in a run the registers are those the invariant
gives in HDR. -/
theorem headerTooShortRaisesTruncated : Obligations.HeaderTooShortRaisesTruncated := by
  unfold Obligations.HeaderTooShortRaisesTruncated
  refine ⟨fun s hr hst hl => exec_next.mpr (.hTrunc ⟨hr, hst⟩ hl),
    fun s m hr hst hl => exec_next.mpr (.hTrunc (s := s.withPkt m) ⟨hr, hst⟩ hl), fun s t ht => ?enabled,
    fun s t hi ht => ?registers⟩
  case enabled =>
    cases exec_next.mp ht with
    | hTrunc h hl => exact ⟨h.1, h.2, hl⟩
  case registers =>
    cases exec_next.mp ht with
    | hTrunc h =>
      obtain ⟨hpos, hx, hh, hm, -, -, hxle⟩ := hi.phase h.2
      have hcnt : s.xcnt = 0 := by rw [hi.xcnt_eq_length, hx, List.length_nil]
      exact ⟨hh, hm, hx, hcnt, hpos, hxle, State.result_of_invalid (State.resultValid_eq_false (.inr rfl))⟩

/-- Settles O3: what H.LOAD writes is the header of PKT[0..47], each register spelled out. -/
theorem headerLoadWritesThirteenRegisters : Obligations.HeaderLoadWritesThirteenRegisters := by
  unfold Obligations.HeaderLoadWritesThirteenRegisters
  refine ⟨fun s hr hst hl => exec_next.mpr (.hLoad ⟨hr, hst⟩ hl), fun s t ht => ?enabled⟩
  cases exec_next.mp ht with
  | hLoad h hl => exact ⟨h.1, h.2, hl⟩

end Sys2Proof.Machine
end

section
/-! PROOFS. A run within the host's duties (70_reset_and_hazards.md R203): the operations it takes and the steps and the
trace they amount to, for every statement about a whole run. Between two operations the host leaves the block and the
packet as they were. -/

namespace Sys2Proof.Machine

/-! ### The operations a run takes -/

/-- From `s` the machine reaches `t` by the operations `ops`, the host's turns between them, with ST in `F` in every state
before `t`. -/
inductive RunsThrough (F : Fsm → Prop) : State → List Instr → State → Prop
  | refl (s : State) : RunsThrough F s [] s
  | host {s u t : State} {a : HostAct} {ops : List Instr} (hF : F s.st) (ha : s.turns.head? = some (.host a))
      (hs : hostTurn a s.afterTurn = .next u) (hrest : RunsThrough F u ops t) : RunsThrough F s ops t
  | block {s u t : State} {i : Instr} {ops : List Instr} (hF : F s.st) (hb : s.blockMoves)
      (hs : Takes i s.afterTurn u) (hrest : RunsThrough F u ops t) : RunsThrough F s (i :: ops) t

section
variable {F : Fsm → Prop} {s u t : State}

theorem RunsThrough.trans {ops ops' : List Instr} (h : RunsThrough F s ops u) (h' : RunsThrough F u ops' t) :
    RunsThrough F s (ops ++ ops') t := by
  induction h with
  | refl => exact h'
  | host hF ha hs _ ih => exact .host hF ha hs (ih h')
  | block hF hb hs _ ih => exact .block hF hb hs (ih h')

theorem run_succ {M : Host.Core} {s u : M.State} {k : Nat} (h : M.step s = .next u) : M.run (k + 1) s = M.run k u := by
  rw [Host.Core.run, h]

theorem core_run_succ {k : Nat} (h : step s = .next u) : core.run (k + 1) s = core.run k u := run_succ (M := core) h

theorem traceOf_succ {k : Nat} (h : step s = .next u) : traceOf (k + 1) s = s.nextOperation ++ traceOf k u := by
  rw [traceOf, h]

theorem State.nextOperation_of_host {a : HostAct} (ha : s.turns.head? = some (.host a)) : s.nextOperation = [] := by
  obtain ⟨rest, ht⟩ := List.head?_eq_some_iff.mp ha
  rw [State.nextOperation, ht]

theorem State.hostTurns_succ_of_host {a : HostAct} (ha : s.turns.head? = some (.host a)) (ht : u.turns = s.turns.tail)
    (k : Nat) : s.hostTurns (k + 1) = u.hostTurns k + 1 := by
  obtain ⟨rest, hs⟩ := List.head?_eq_some_iff.mp ha
  simp [State.hostTurns, ht, hs]

theorem State.hostTurns_succ_of_block (hb : s.blockMoves) (ht : u.turns = s.turns.tail) (k : Nat) :
    s.hostTurns (k + 1) = u.hostTurns k := by
  obtain hs | hs := hb
  · simp [State.hostTurns, ht, List.head?_eq_none_iff.mp hs]
  · obtain ⟨rest, hs⟩ := List.head?_eq_some_iff.mp hs
    simp [State.hostTurns, ht, hs]

/-- What the step relation allows is the operation of the trace. -/
theorem Takes.nextOperation_eq {i : Instr} (h : Takes i s.afterTurn t) (hb : s.blockMoves) :
    s.nextOperation = [i.mnemonic] := by
  have hsel : selected s = some i := h.selected_eq
  obtain hs | hs := hb
  · rw [State.nextOperation, List.head?_eq_none_iff.mp hs, hsel]
    rfl
  · obtain ⟨rest, hs⟩ := List.head?_eq_some_iff.mp hs
    rw [State.nextOperation, hs, hsel]
    rfl

/-- What holds of ST now and after the first step on holds all along. -/
theorem st_before_succ {k : Nat} (hF : F s.st) (hs : step s = .next u)
    (h : ∀ j v, j < k → core.run j u = .next v → F v.st) :
    ∀ j v, j < k + 1 → core.run j s = .next v → F v.st := by
  intro j v hj hv
  cases j with
  | zero =>
    cases hv
    exact hF
  | succ j =>
    rw [core_run_succ hs] at hv
    exact h j v (by omega) hv

/-- The steps of such a run: one for each operation and one for each turn of the host. -/
theorem RunsThrough.exists_run {ops : List Instr} (h : RunsThrough F s ops t) :
    ∃ k, core.run k s = .next t ∧ traceOf k s = ops.map Instr.mnemonic ∧ k = (traceOf k s).length + s.hostTurns k ∧
      ∀ j v, j < k → core.run j s = .next v → F v.st := by
  induction h with
  | refl s => exact ⟨0, rfl, rfl, by simp [traceOf, State.hostTurns], by simp⟩
  | @host s u t a ops hF ha hs _ ih =>
    obtain ⟨k, hrun, htrace, hk, hbefore⟩ := ih
    have hstep : step s = .next u := (step_host ha).trans hs
    have hops : traceOf (k + 1) s = traceOf k u := by
      rw [traceOf_succ hstep, State.nextOperation_of_host ha, List.nil_append]
    refine ⟨k + 1, (core_run_succ hstep).trans hrun, hops.trans htrace, ?_, st_before_succ hF hstep hbefore⟩
    rw [hops, State.hostTurns_succ_of_host ha (step_turns hstep)]
    omega
  | @block s u t i ops hF hb hs _ ih =>
    obtain ⟨k, hrun, htrace, hk, hbefore⟩ := ih
    have hstep : step s = .next u := hs.step_of_block hb
    have hops : traceOf (k + 1) s = i.mnemonic :: traceOf k u := by
      rw [traceOf_succ hstep, hs.nextOperation_eq hb, List.singleton_append]
    refine ⟨k + 1, (core_run_succ hstep).trans hrun, by rw [hops, htrace, List.map_cons], ?_,
      st_before_succ hF hstep hbefore⟩
    rw [hops, List.length_cons, State.hostTurns_succ_of_block hb (step_turns hstep)]
    omega

end

/-! ### Up to the block's next turn -/

/-- What a host within its duties leaves as it was while the block is busy: the block's registers and the packet. -/
structure State.HostLeaves (s u : State) : Prop where
  registers : u = { s with
    rst := u.rst, start := u.start, lenI := u.lenI, xidx := u.xidx, pkt := u.pkt, intact := u.intact, turns := u.turns }
  rst_false : s.rst = false → u.rst = false
  intact_eq : u.intact = s.intact
  byte_eq : ∀ k, k < s.len → u.byte k = s.byte k

/-- A state of a run: it meets the invariant, and neither agent resets the block before the end. -/
structure State.InRun (s : State) : Prop where
  inv : s.Inv
  rst_false : s.rst = false
  duties : s.busy = true → s.dutiesKept

section
variable {s u t : State}

theorem State.HostLeaves.afterTurn (s : State) : s.HostLeaves s.afterTurn := ⟨rfl, id, rfl, fun _ _ => rfl⟩

theorem State.HostLeaves.st_eq (h : s.HostLeaves u) : u.st = s.st := (congrArg State.st h.registers :)
theorem State.HostLeaves.pos_eq (h : s.HostLeaves u) : u.pos = s.pos := (congrArg State.pos h.registers :)
theorem State.HostLeaves.len_eq (h : s.HostLeaves u) : u.len = s.len := (congrArg State.len h.registers :)
theorem State.HostLeaves.vn_eq (h : s.HostLeaves u) : u.vn = s.vn := (congrArg State.vn h.registers :)
theorem State.HostLeaves.xtab_eq (h : s.HostLeaves u) : u.xtab = s.xtab := (congrArg State.xtab h.registers :)
theorem State.HostLeaves.macP_eq (h : s.HostLeaves u) : u.macP = s.macP := (congrArg State.macP h.registers :)

theorem State.HostLeaves.trans (h : s.HostLeaves u) (h' : u.HostLeaves t) : s.HostLeaves t where
  registers := h'.registers.trans (by rw [h.registers])
  rst_false := h'.rst_false ∘ h.rst_false
  intact_eq := h'.intact_eq.trans h.intact_eq
  byte_eq k hk := (h'.byte_eq k (hk.trans_eq h.len_eq.symm)).trans (h.byte_eq k hk)

theorem State.busy_congr (h : u.st = s.st) : u.busy = s.busy := by
  rw [State.busy, State.busy, h]

/-- A turn of a host within its duties, while the block is busy. -/
theorem State.InRun.hostTurn (h : s.InRun) (hb : s.busy = true) {a : HostAct} (ha : s.turns.head? = some (.host a)) :
    ∃ u, hostTurn a s.afterTurn = .next u ∧ s.HostLeaves u ∧ u.InRun := by
  have hallowed : a.allowed s.afterTurn = true :=
    (a.allowed_afterTurn s).trans (State.dutiesKept_head (h.duties hb) ha)
  obtain ⟨u, hu, hreg, hrst, hpkt⟩ := hostTurn_of_allowed hallowed
  obtain ⟨hintact, hbyte⟩ := hpkt hb
  have hleft : s.HostLeaves u :=
    (State.HostLeaves.afterTurn s).trans ⟨by rw [hreg], hrst, hintact, hbyte⟩
  exact ⟨u, hu, hleft, hostTurn_inv hu h.inv.afterTurn, hleft.rst_false h.rst_false,
    State.dutiesKept_step (h.duties hb) ((step_host ha).trans hu)⟩

/-- The operation of the block's turn. -/
theorem State.InRun.takes (h : s.InRun) (hb : s.busy = true) (hm : s.blockMoves) {i : Instr}
    (ht : Takes i s.afterTurn t) : t.InRun where
  inv := ht.inv h.inv.afterTurn
  rst_false := ht.pkt_pins_cfg_eq.2.1.trans h.rst_false
  duties := State.dutiesKept_step (h.duties hb) (ht.step_of_block hm)

end

section
variable {F : Fsm → Prop} {s : State}

theorem State.InRun.exists_turn_of_blockMoves (h : s.InRun) (hb : s.busy = true) (hF : F s.st) (hm : s.blockMoves) :
    ∃ u, s.HostLeaves u ∧ u.Inv ∧ ∀ i t, Takes i u t → RunsThrough F s [i] t ∧ t.InRun :=
  ⟨s.afterTurn, State.HostLeaves.afterTurn s, h.inv.afterTurn,
    fun _ t ht => ⟨.block hF hm ht (.refl t), h.takes hb hm ht⟩⟩

/-- Whatever the host does within its duties, the block's next turn comes, and the run goes on with the operation it
takes there. -/
theorem State.InRun.exists_turn (h : s.InRun) (hb : s.busy = true) (hF : F s.st) :
    ∃ u, s.HostLeaves u ∧ u.Inv ∧ ∀ i t, Takes i u t → RunsThrough F s [i] t ∧ t.InRun := by
  induction hturns : s.turns generalizing s with
  | nil => exact h.exists_turn_of_blockMoves hb hF (.inl (by simp [hturns]))
  | cons turn rest ih =>
    obtain hm | ⟨a, ha⟩ := s.blockMoves_or_host
    · exact h.exists_turn_of_blockMoves hb hF hm
    · obtain ⟨u, hu, hleft, hrun⟩ := h.hostTurn hb ha
      have hrest : u.turns = rest := by rw [step_turns ((step_host ha).trans hu), hturns, List.tail_cons]
      obtain ⟨v, hv, hinv, hnext⟩ := ih hrun ((State.busy_congr hleft.st_eq).trans hb) (hleft.st_eq ▸ hF) hrest
      exact ⟨v, hleft.trans hv, hinv, fun i t ht =>
        (hnext i t ht).imp_left fun hi => .host hF ha hu hi⟩

/-- From CHK with every byte accounted for the run ends in success. -/
theorem State.InRun.accept_of_chk (h : s.InRun) (hst : s.st = .chk) (hp : s.pos = s.len) (hF : F .chk) :
    ∃ t, RunsThrough F s [.cOk] t ∧ t.st = .done ∧ t.ok = true ∧ t.xtab = s.xtab ∧ t.macP = s.macP := by
  obtain ⟨u, hu, -, hnext⟩ := h.exists_turn (by simp [State.busy, hst]) (hst ▸ hF)
  have hchk : Takes .cOk u u.accept :=
    .cOk ⟨hu.rst_false h.rst_false, hu.st_eq.trans hst⟩ (by rw [hu.pos_eq, hu.len_eq, hp])
  exact ⟨u.accept, (hnext _ _ hchk).1, rfl, rfl, hu.xtab_eq, hu.macP_eq⟩

/-- From MAC with nothing left the run ends in success without a MAC. -/
theorem State.InRun.accept_of_mac (h : s.InRun) (hst : s.st = .mac) (hp : s.pos = s.len) (hmac : F .mac)
    (hchk : F .chk) :
    ∃ t, RunsThrough F s [.mNone, .cOk] t ∧ t.st = .done ∧ t.ok = true ∧ t.xtab = s.xtab ∧ t.macP = false := by
  obtain ⟨u, hu, -, hnext⟩ := h.exists_turn (by simp [State.busy, hst]) (hst ▸ hmac)
  have hpos : u.pos = u.len := by rw [hu.pos_eq, hu.len_eq, hp]
  have hnone : Takes .mNone u u.noMac :=
    .mNone ⟨hu.rst_false h.rst_false, hu.st_eq.trans hst⟩ (by simp [State.rem, hpos])
  obtain ⟨hrun, hin⟩ := hnext _ _ hnone
  obtain ⟨t, hend, hdone, hok, hx, hm⟩ := hin.accept_of_chk rfl hpos hchk
  exact ⟨t, hrun.trans hend, hdone, hok, hx.trans hu.xtab_eq, hm⟩

end

end Sys2Proof.Machine
end

section
/-! PROOFS. The version dispatch of 42_version_dispatch.md: where D.V4, D.LEGACY and D.HIGH go (O5, O6, O7), and that a
packet of version 5 to 7 without a trailer is accepted under either policy (O7). -/

namespace Sys2Proof.Machine

/-! ### The rows of the dispatch -/

section
variable {i : Instr} {v : BitVec 3} {f : Fsm} {s t : State}

/-- The row of version `v` transfers control and writes nothing else. -/
theorem exec_of_dispatch (hi : exec i s = dispatchTo v f s) (hr : s.rst = false) (hst : s.st = .disp)
    (hv : s.vn = some v) : exec i s = .next { s with st := f } :=
  hi.trans (dispatchTo_next.mpr ⟨⟨⟨hr, hst⟩, hv⟩, rfl⟩)

/-- And it runs in no other state. -/
theorem enabled_of_dispatch (hi : exec i s = dispatchTo v f s) (ht : exec i s = .next t) :
    s.rst = false ∧ s.st = .disp ∧ s.vn = some v := by
  obtain ⟨⟨⟨hr, hst⟩, hv⟩, -⟩ := dispatchTo_next.mp (hi.symm.trans ht)
  exact ⟨hr, hst, hv⟩

theorem State.highTarget_of_macOnly (hc : s.cfg.vother = .macOnly) : s.highTarget = .mac := by
  rw [State.highTarget, hc]

theorem State.highTarget_of_trailingData (hc : s.cfg.vother = .trailingData) : s.highTarget = .chk := by
  rw [State.highTarget, hc]

theorem State.exists_takes_high (h : s.At .disp) (hv : s.versionHigh) : ∃ i, Takes i s (s.goto s.highTarget) := by
  obtain hv | hv | hv := hv
  · exact ⟨_, .dHigh5 h hv⟩
  · exact ⟨_, .dHigh6 h hv⟩
  · exact ⟨_, .dHigh7 h hv⟩

end

/-! ### A high version without a trailer -/

section
variable {F : Fsm → Prop} {s : State}

/-- With POS = LEN both targets of D.HIGH lead to success without a MAC, at most two operations later. -/
theorem State.InRun.accept_of_highTarget (h : s.InRun) (hst : s.st = s.highTarget) (hp : s.pos = s.len)
    (hm : s.macP = false) (hmac : F .mac) (hchk : F .chk) :
    ∃ ops t, RunsThrough F s ops t ∧ ops.length ≤ 2 ∧ t.st = .done ∧ t.ok = true ∧ t.xtab = s.xtab ∧ t.macP = false := by
  cases hc : s.cfg.vother with
  | macOnly =>
    obtain ⟨t, hrun, hend⟩ := h.accept_of_mac (hst.trans (State.highTarget_of_macOnly hc)) hp hmac hchk
    exact ⟨_, t, hrun, le_rfl, hend⟩
  | trailingData =>
    obtain ⟨t, hrun, hdone, hok, hx, hmt⟩ := h.accept_of_chk (hst.trans (State.highTarget_of_trailingData hc)) hp hchk
    exact ⟨_, t, hrun, by simp, hdone, hok, hx, hmt.trans hm⟩

/-- From the dispatch D.HIGH comes before them. -/
theorem State.InRun.accept_of_high (h : s.InRun) (hst : s.st = .disp) (hv : s.versionHigh) (hl : s.len = 48)
    (hF : ∀ f ≠ .done, F f) :
    ∃ ops t, RunsThrough F s ops t ∧ ops.length ≤ 3 ∧ t.st = .done ∧ t.ok = true ∧ t.xtab = [] ∧ t.macP = false := by
  obtain ⟨u, hu, hinv, hnext⟩ := h.exists_turn (F := F) (by simp [State.busy, hst]) (hF _ (by simp [hst]))
  have hdisp : u.st = .disp := hu.st_eq.trans hst
  obtain ⟨hpos, hx, -, ⟨hm, -⟩, -⟩ := hinv.phase hdisp
  have hlen : u.pos = u.len := by rw [hpos, hu.len_eq, hl]
  obtain ⟨i, hi⟩ := State.exists_takes_high ⟨hu.rst_false h.rst_false, hdisp⟩
    (show u.versionHigh by rw [State.versionHigh, hu.vn_eq]; exact hv)
  obtain ⟨hrun, hin⟩ := hnext i _ hi
  obtain ⟨ops, t, hend, hops, hdone, hok, hxt, hmt⟩ :=
    hin.accept_of_highTarget rfl hlen hm (hF _ (by simp)) (hF _ (by simp))
  exact ⟨i :: ops, t, hrun.trans hend, Nat.succ_le_succ hops, hdone, hok, hxt.trans hx, hmt⟩

end

/-! ### The claims -/

/-- Settles O5. -/
theorem version4SearchesExtensions : Obligations.Version4SearchesExtensions := by
  unfold Obligations.Version4SearchesExtensions
  exact ⟨fun s => exec_of_dispatch (f := .ext) rfl, fun s t => enabled_of_dispatch (f := .ext) rfl⟩

/-- Settles O6: each row of D.LEGACY dispatches to MAC; in DISP the records end where the header does. -/
theorem legacyVersionsTakeTrailerAsMac : Obligations.LegacyVersionsTakeTrailerAsMac := by
  unfold Obligations.LegacyVersionsTakeTrailerAsMac
  refine ⟨fun p hp => ?rows, fun s h hst => ?region⟩
  case rows =>
    have hrow (s : State) : exec p.1 s = dispatchTo p.2 .mac s := by fin_cases hp <;> rfl
    exact ⟨fun s => exec_of_dispatch (hrow s), fun s t => enabled_of_dispatch (hrow s)⟩
  case region =>
    obtain ⟨hpos, hx, -⟩ := h.phase hst
    exact ⟨hx, by rw [h.xcnt_eq_length, hx, List.length_nil], by rw [State.rem, hpos]; rfl⟩

/-- Settles O7: each row of D.HIGH dispatches to `State.highTarget`, and with LEN = 48 either target leads to C.OK. -/
theorem highVersionsFollowPolicy : Obligations.HighVersionsFollowPolicy := by
  unfold Obligations.HighVersionsFollowPolicy
  refine ⟨fun p hp => ?rows, fun s h hr hd hst hv hl => ?noTrailer⟩
  case rows =>
    have hrow (s : State) : exec p.1 s = dispatchTo p.2 s.highTarget s := by fin_cases hp <;> rfl
    exact ⟨fun s hr hst hv hc => exec_of_dispatch (State.highTarget_of_macOnly hc ▸ hrow s) hr hst hv,
      fun s hr hst hv hc => exec_of_dispatch (State.highTarget_of_trailingData hc ▸ hrow s) hr hst hv,
      fun s t => enabled_of_dispatch (hrow s)⟩
  case noTrailer =>
    have hin : s.InRun := ⟨h, hr, fun _ => hd⟩
    obtain ⟨ops, t, hrun, hops, hend⟩ := hin.accept_of_high (F := (· ≠ .done)) hst hv hl fun _ hf => hf
    obtain ⟨k, hk, htrace, -⟩ := hrun.exists_run
    obtain ⟨hdone, hrest⟩ := hend
    exact ⟨k, t, hk, hdone, by rw [htrace, List.length_map]; exact hops, hrest⟩

end Sys2Proof.Machine
end

section
/-! PROOFS. The extension field decoder of 43_extension_fsm.md: what X.STOP, X.FALL and X.TAKE do and where they run (O8, O9,
O10, O42), and that the loop they make, host turns in between, ends in MAC with what the closed form of R135 gives (O50). -/

namespace Sys2Proof.Machine

/-! ### The three operations -/

section
variable {s t : State}

/-- X.FALL runs where a header is there and its length is not valid. -/
theorem Takes.enabled_of_xFall {i : Instr} (h : Takes i s t) (hi : i.mnemonic = "X.FALL") :
    s.At .ext ∧ 4 ≤ s.rem ∧ ¬ xValid s.lenAtPos s.rem := by
  cases h with
  | xFallMod1 h hr hl | xFallMod2 h hr hl | xFallMod3 h hr hl => exact ⟨h, hr, by omega⟩
  | xFallZero h hr hl => exact ⟨h, hr, by simp [hl]⟩
  | xFallOver h hr hl hz ho => exact ⟨h, hr, by omega⟩
  | _ => simp [Instr.mnemonic] at hi

theorem State.rem_takeField (s : State) (ty l : BitVec 16) : (s.takeField ty l).rem = s.rem - (l.toNat : Int) := by
  simp only [State.rem, State.takeField_len, State.takeField_pos]
  omega

/-- The record X.TAKE appends stands for the field at POS. -/
theorem State.fieldOf_takeField {ty l : BitVec 16} (hi : s.intact = true) (hl : xValid l s.rem) :
    (s.takeField ty l).fieldOf { xtype := ty, xlen := l, xoff := s.pos } =
      some (s.recordField { xtype := ty, xlen := l, xoff := s.pos }) :=
  State.fieldOf_eq (.inl hi) hl.1 (State.pos_add_le hl.2.2)

end

/-- Settles O8: X.STOP looks at REM alone. -/
theorem stubEndsExtensionLoop : Obligations.StubEndsExtensionLoop := by
  unfold Obligations.StubEndsExtensionLoop
  refine ⟨fun s hrst hst hr => ?_, fun s m hrst hst hr => ?_, fun s t h => ?_⟩
  · exact (Takes.xStop ⟨hrst, hst⟩ hr).exec_eq
  · exact (Takes.xStop (s := { s with pkt := m }) ⟨hrst, hst⟩ hr).exec_eq
  · cases exec_next.mp h with
    | xStop hat hr => exact ⟨hat.1, hat.2, hr⟩

/-- Settles O9: each row by its constructor of the step relation, all of which reject the length at POS. -/
theorem invalidLengthFallsBackToMac : Obligations.InvalidLengthFallsBackToMac := by
  unfold Obligations.InvalidLengthFallsBackToMac
  refine ⟨fun s l hrst hst hr hl => ?rows, fun i s t hi h => ?enabled⟩
  case rows =>
    obtain rfl : l = s.lenAtPos := hl
    have hat : s.At .ext := ⟨hrst, hst⟩
    exact ⟨fun h1 => (Takes.xFallMod1 hat hr h1).exec_eq, fun h2 => (Takes.xFallMod2 hat hr h2).exec_eq,
      fun h3 => (Takes.xFallMod3 hat hr h3).exec_eq, fun hz => (Takes.xFallZero hat hr hz).exec_eq,
      fun h0 hz ho => (Takes.xFallOver hat hr h0 (fun e => hz (BitVec.eq_of_toNat_eq e)) ho).exec_eq⟩
  case enabled =>
    obtain ⟨⟨hrst, hst⟩, hr, hv⟩ := (exec_next.mp h).enabled_of_xFall hi
    exact ⟨hrst, hst, hr, s.lenAtPos, rfl, by omega⟩

/-- Settles O10: the header at POS is read from there again as the operands, the payload through the record. -/
theorem validFieldIsTaken : Obligations.ValidFieldIsTaken := by
  unfold Obligations.ValidFieldIsTaken
  refine ⟨fun s ty l hrst hst hty hl h4 hle hmod => ?taken, fun s t ty l h => ?enabled⟩
  case taken =>
    obtain rfl : ty = s.typeAtPos := hty
    obtain rfl : l = s.lenAtPos := hl
    exact ⟨(Takes.xTake ⟨hrst, hst⟩ ⟨h4, hmod, hle⟩).exec_eq, State.pos_add_le hle⟩
  case enabled =>
    cases exec_next.mp h with
    | xTake hat hv =>
      obtain ⟨h4, hmod, hle⟩ := id hv
      exact ⟨hat.1, hat.2, by omega, rfl, rfl, h4, hmod, hle, fun hi => State.fieldOf_takeField hi hv⟩

/-- Settles O42: a valid length is at least 4 and at most REM. -/
theorem takeShrinksRemainder : Obligations.TakeShrinksRemainder := by
  unfold Obligations.TakeShrinksRemainder
  intro s t ty l h
  cases exec_next.mp h with
  | xTake hat hv =>
    have hrem := s.rem_takeField s.typeAtPos s.lenAtPos
    exact ⟨rfl, hrem, by omega, by omega⟩

/-! ### The closed form, one pass at a time -/

/-- What the closed form gives from POS on, in at most `n` passes (R135). -/
def State.loop (s : State) (n : Nat) : List XRec × Nat × Bool := loopFrom s.pkt s.len n s.pos

/-- The closed form reads no byte outside the packet. -/
theorem loopFrom_congr {m m' : Memory} {len : Nat} (h : ∀ k, k < len → Memory.read m k = Memory.read m' k) (n p : Nat) :
    loopFrom m len n p = loopFrom m' len n p := by
  induction n generalizing p with
  | zero => rfl
  | succ n ih =>
    by_cases hp : len < p + 4
    · rw [loopFrom, loopFrom, if_pos hp, if_pos hp]
    · rw [loopFrom, loopFrom, if_neg hp, if_neg hp, h p (by omega), h (p + 1) (by omega), h (p + 2) (by omega),
        h (p + 3) (by omega)]
      simp only [ih]

section
variable {s u t : State} {n : Nat}

theorem State.HostLeaves.loop_eq (h : s.HostLeaves u) (n : Nat) : u.loop n = s.loop n := by
  rw [State.loop, State.loop, h.pos_eq, h.len_eq]
  exact loopFrom_congr h.byte_eq n s.pos

theorem State.loop_of_stub (hr : s.rem < 4) (n : Nat) : s.loop n = ([], s.pos, false) := by
  cases n with
  | zero => rfl
  | succ n =>
    rw [State.loop, loopFrom, if_pos]
    rw [State.rem] at hr
    omega

theorem be_pair (a b : Byte) : be [a, b] = (a ++ b).toNat := by
  rw [toNat_append_byte]
  simp [be]

/-- A pass of the closed form does what X.TAKE or X.FALL does. -/
theorem State.loop_succ (hr : 4 ≤ s.rem) (n : Nat) :
    s.loop (n + 1) =
      if xValid s.lenAtPos s.rem then
        Prod.map ({ xtype := s.typeAtPos, xlen := s.lenAtPos, xoff := s.pos } :: ·) id
          ((s.takeField s.typeAtPos s.lenAtPos).loop n)
      else ([], s.pos, true) := by
  have hp := State.pos_add_le (n := 4) hr
  have htype : be [s.byte s.pos, s.byte (s.pos + 1)] = s.typeAtPos.toNat := be_pair _ _
  have hlen : be [s.byte (s.pos + 2), s.byte (s.pos + 3)] = s.lenAtPos.toNat := be_pair _ _
  rw [State.byte, State.byte] at htype hlen
  have hvalid : 4 ≤ s.lenAtPos.toNat ∧ s.lenAtPos.toNat % 4 = 0 ∧ s.lenAtPos.toNat ≤ s.len - s.pos ↔
      xValid s.lenAtPos s.rem := by
    rw [xValid, State.rem]
    omega
  rw [State.loop, loopFrom, if_neg (by omega)]
  simp only [htype, hlen, hvalid, BitVec.ofNat_toNat, BitVec.setWidth_eq]
  rfl

end

/-! ### The loop reaches MAC -/

/-- The mnemonics of a loop that ends as `r` says. -/
def loopTrace (r : List XRec × Nat × Bool) : List String :=
  List.replicate r.1.length "X.TAKE" ++ [if r.2.2 then "X.FALL" else "X.STOP"]

/-- The operations `ops` take the loop from `s` to its end `t` in MAC, with the registers of the closed form. -/
structure State.LoopEnds (s : State) (n : Nat) (ops : List Instr) (t : State) : Prop where
  inRun : t.InRun
  st_eq : t.st = .mac
  len_eq : t.len = s.len
  registers : (t.xtab, t.pos, t.xle) = Prod.map (s.xtab ++ ·) id (s.loop n)
  trace : ops.map Instr.mnemonic = loopTrace (s.loop n)

section
variable {F : Fsm → Prop} {s u t : State} {n : Nat} {ops : List Instr}

theorem State.LoopEnds.of_hostLeaves (h : u.LoopEnds n ops t) (hu : s.HostLeaves u) : s.LoopEnds n ops t where
  inRun := h.inRun
  st_eq := h.st_eq
  len_eq := h.len_eq.trans hu.len_eq
  registers := by rw [h.registers, hu.loop_eq, hu.xtab_eq]
  trace := by rw [h.trace, hu.loop_eq]

/-- X.STOP ends the loop; XLE is clear in EXT. -/
theorem State.Inv.loopEnds_of_stub (h : u.Inv) (hst : u.st = .ext) (hr : u.rem < 4) (hin : (u.goto .mac).InRun) (n : Nat) :
    u.LoopEnds n [.xStop] (u.goto .mac) := by
  obtain ⟨-, -, -, -, -, -, hxle⟩ := h.phase hst
  have hloop := State.loop_of_stub hr n
  exact ⟨hin, rfl, rfl, by simp [hloop, hxle], by rw [hloop]; rfl⟩

/-- X.FALL ends the loop. -/
theorem State.InRun.loopEnds_of_invalid (hin : u.fallBack.InRun) (hr : 4 ≤ u.rem) (hv : ¬ xValid u.lenAtPos u.rem)
    {i : Instr} (hi : i.mnemonic = "X.FALL") (n : Nat) : u.LoopEnds (n + 1) [i] u.fallBack := by
  have hloop : u.loop (n + 1) = ([], u.pos, true) := (State.loop_succ hr n).trans (if_neg hv)
  exact ⟨hin, rfl, rfl, by simp [hloop], by rw [hloop, List.map_singleton, hi]; rfl⟩

/-- X.TAKE goes before the rest of the loop. -/
theorem State.LoopEnds.of_takeField (h : (u.takeField u.typeAtPos u.lenAtPos).LoopEnds n ops t)
    (hv : xValid u.lenAtPos u.rem) : u.LoopEnds (n + 1) (.xTake u.typeAtPos u.lenAtPos :: ops) t := by
  have hloop := (State.loop_succ (show 4 ≤ u.rem by omega) n).trans (if_pos hv)
  refine ⟨h.inRun, h.st_eq, h.len_eq, ?_, ?_⟩
  · rw [h.registers, hloop]
    simp [Prod.map]
  · rw [List.map_cons, h.trace, hloop]
    rfl

/-- With fewer than four bytes left the loop ends at the block's next turn. -/
theorem State.InRun.exists_loopEnds_of_stub (h : s.InRun) (hst : s.st = .ext) (hF : F .ext) (hr : s.rem < 4) (n : Nat) :
    ∃ ops t, RunsThrough F s ops t ∧ s.LoopEnds n ops t := by
  obtain ⟨u, hu, hinv, hnext⟩ := h.exists_turn (by simp [State.busy, hst]) (hst ▸ hF)
  have hext : u.st = .ext := hu.st_eq.trans hst
  have hr : u.rem < 4 := by rwa [State.rem, hu.len_eq, hu.pos_eq]
  obtain ⟨hrun, hin⟩ := hnext _ _ (.xStop ⟨hu.rst_false h.rst_false, hext⟩ hr)
  exact ⟨_, _, hrun, (hinv.loopEnds_of_stub hext hr hin n).of_hostLeaves hu⟩

/-- The loop ends in MAC, as many passes as there are groups of four bytes being enough (R131). -/
theorem State.InRun.exists_loopEnds (h : s.InRun) (hst : s.st = .ext) (hF : F .ext) (hn : s.rem < 4 * (n + 1)) :
    ∃ ops t, RunsThrough F s ops t ∧ s.LoopEnds n ops t := by
  induction n generalizing s with
  | zero => exact h.exists_loopEnds_of_stub hst hF (by omega) 0
  | succ n ih =>
    obtain hr | hr := lt_or_ge s.rem 4
    · exact h.exists_loopEnds_of_stub hst hF hr (n + 1)
    · obtain ⟨u, hu, -, hnext⟩ := h.exists_turn (F := F) (by simp [State.busy, hst]) (hst ▸ hF)
      have hat : u.At .ext := ⟨hu.rst_false h.rst_false, hu.st_eq.trans hst⟩
      have hrem : u.rem = s.rem := by rw [State.rem, hu.len_eq, hu.pos_eq, State.rem]
      by_cases hv : xValid u.lenAtPos u.rem
      · obtain ⟨hrun, hin⟩ := hnext _ _ (.xTake hat hv)
        have hless := u.rem_takeField u.typeAtPos u.lenAtPos
        obtain ⟨ops, t, hrest, hend⟩ := ih hin rfl (by omega)
        exact ⟨_, t, hrun.trans hrest, (hend.of_takeField hv).of_hostLeaves hu⟩
      · obtain ⟨i, hi, hfall⟩ := State.exists_xFall hat (hrem ▸ hr) hv
        obtain ⟨hrun, hin⟩ := hnext _ _ hi
        exact ⟨_, _, hrun, (hin.loopEnds_of_invalid (hrem ▸ hr) hv hfall n).of_hostLeaves hu⟩

/-- From the dispatch of version 4 the loop comes after D.V4. -/
theorem State.InRun.exists_loopEnds_of_disp (h : s.InRun) (hst : s.st = .disp) (hv : s.vn = some 4) (hdisp : F .disp)
    (hext : F .ext) : ∃ ops t, RunsThrough F s (.dV4 :: ops) t ∧ s.LoopEnds s.len ops t := by
  obtain ⟨u, hu, -, hnext⟩ := h.exists_turn (F := F) (by simp [State.busy, hst]) (hst ▸ hdisp)
  obtain ⟨hrun, hin⟩ := hnext _ _ (.dV4 ⟨hu.rst_false h.rst_false, hu.st_eq.trans hst⟩ (hu.vn_eq.trans hv))
  have hn : (u.goto .ext).rem < 4 * (s.len + 1) := by
    rw [State.rem, State.goto_len, hu.len_eq]
    omega
  obtain ⟨ops, t, hrest, hend⟩ := hin.exists_loopEnds rfl hext hn
  have hend : u.LoopEnds s.len ops t := { hend with }
  exact ⟨ops, t, hrun.trans hrest, hend.of_hostLeaves hu⟩

end

/-- Settles O50: the operations are D.V4, one X.TAKE for each record and the one that ends the loop; the records are at most
⌊(LEN − 48) / 4⌋ by the invariant. -/
theorem loopHasClosedForm : Obligations.LoopHasClosedForm := by
  unfold Obligations.LoopHasClosedForm
  intro s h hr hd hst hv
  have hin : s.InRun := ⟨h, hr, fun _ => hd⟩
  obtain ⟨hpos, hx, -⟩ := h.phase hst
  obtain ⟨ops, t, hrun, hend⟩ :=
    hin.exists_loopEnds_of_disp (F := fun f => f = .disp ∨ f = .ext) hst hv (.inl rfl) (.inr rfl)
  obtain ⟨k, hk, htrace, hcount, hbefore⟩ := hrun.exists_run
  have hloop : s.loop s.len = loopFrom s.pkt s.len s.len 48 := by rw [State.loop, hpos]
  have hregs : (t.xtab, t.pos, t.xle) = loopFrom s.pkt s.len s.len 48 := by
    rw [hend.registers, hx, hloop]
    rfl
  have hops : ops.length = t.xtab.length + 1 := by
    have := congrArg List.length hend.trace
    simpa [loopTrace, hloop, ← hregs] using this
  have hbound : t.xtab.length ≤ (s.len - 48) / 4 := by
    rw [← hend.inRun.inv.xcnt_eq_length, ← hend.len_eq]
    exact hend.inRun.inv.xcnt_le
  refine ⟨k, t, hk, hend.st_eq, ?_, hcount, hbefore, congrArg Prod.fst hregs, hend.inRun.inv.xcnt_eq_length,
    congrArg (·.2.1) hregs, congrArg (·.2.2) hregs⟩
  rw [htrace, List.length_map, List.length_cons]
  omega

end Sys2Proof.Machine
end

section
/-! PROOFS. The MAC frame validator of 44_mac_validator.md: what M.NONE, M.SHORT, M.KEY and M.FULL do, where they run and which
MAC value they leave (O11, O12, O13, O14). -/

namespace Sys2Proof.Machine

/-! ### What an M operation leaves in the MAC registers -/

section
variable {s : State}

/-- In MAC the registers that M.NONE leaves alone are still ⊥. -/
theorem State.Inv.macAbsent_noMac (h : s.Inv) (hst : s.st = .mac) : s.noMac.macAbsent := by
  obtain ⟨-, -, ⟨-, -, hkey, hoff, hlen⟩, -⟩ := h.phase hst
  exact ⟨rfl, rfl, hkey, hoff, hlen⟩

/-- The MAC value of a MAC just taken, where its digest is as it was or empty. -/
theorem State.macValue_takeMac {kv : Bool} {key : BitVec 32} {off dlen : Nat} (hi : s.intact = true ∨ dlen = 0)
    (hle : off + dlen ≤ s.len) :
    (s.takeMac kv key off dlen).macValue =
      some (some { keyId := if kv then some key else none, digest := s.slice off dlen }) :=
  State.macValue_eq rfl (fun _ => rfl) rfl rfl hi hle

/-- Where POS is not past LEN the difference of the registers does not wrap and is REM. -/
theorem State.len_sub_pos_eq_rem (h : 0 ≤ s.rem) : ((s.len - s.pos : Nat) : Int) = s.rem := by
  unfold State.rem at h ⊢
  omega

theorem State.len_eq_pos_add_four (h : s.rem = 4) : s.len = s.pos + 4 := by
  have hrem := State.len_sub_pos_eq_rem (s := s) (by omega)
  omega

/-- With four bytes left the digest M.KEY names begins at LEN and is empty. -/
theorem State.takeMac_of_rem_eq_four (h : s.rem = 4) (key : BitVec 32) :
    s.takeMac true key (s.pos + 4) (s.len - s.pos - 4) = s.takeMac true key s.len 0 := by
  have hlen := State.len_eq_pos_add_four h
  rw [← hlen, show s.len - s.pos - 4 = 0 by omega]

end

/-! ### The four operations -/

/-- Settles O11: M.NONE clears MAC_P, which is all the MAC value looks at. -/
theorem emptyRemainderIsNoMac : Obligations.EmptyRemainderIsNoMac := by
  unfold Obligations.EmptyRemainderIsNoMac
  refine ⟨fun s hrst hst hr => (Takes.mNone ⟨hrst, hst⟩ hr).exec_eq, fun s t h => ?_, fun s t hinv h => ?_⟩
  · cases exec_next.mp h with
    | mNone hat hr => exact ⟨hat.1, hat.2, hr, State.macValue_of_absent rfl⟩
  · cases exec_next.mp h with
    | mNone hat hr => exact hinv.macAbsent_noMac hat.2

/-- Settles O12: each policy by its constructor of the step relation, in neither of which a byte is read. -/
theorem shortRemainderFollowsPolicy : Obligations.ShortRemainderFollowsPolicy := by
  unfold Obligations.ShortRemainderFollowsPolicy
  refine ⟨fun s m hrst hst h0 hr hc => ?accepts, fun s m hrst hst h0 hr hc => ?fails, fun s t h => ?enabled⟩
  case accepts =>
    exact ⟨(Takes.mShort (s := { s with pkt := m }) ⟨hrst, hst⟩ h0 hr hc).exec_eq, State.len_sub_pos_eq_rem h0.le⟩
  case fails => exact (Takes.mShortFails (s := { s with pkt := m }) ⟨hrst, hst⟩ h0 hr hc).exec_eq
  case enabled =>
    cases exec_next.mp h with
    | mShort hat h0 hr hc =>
      have hpos : s.pos + 1 ≤ s.len := State.pos_add_le h0
      exact ⟨hat.1, hat.2, by omega, fun hi _ => State.macValue_takeMac (.inl hi) (by omega)⟩
    | mShortFails hat h0 hr hc => exact ⟨hat.1, hat.2, by omega, fun _ ha => by simp [hc] at ha⟩

/-- Settles O13: the digest is empty, so the MAC value needs no premise on the packet. -/
theorem fourBytesAreKeyWithEmptyDigest : Obligations.FourBytesAreKeyWithEmptyDigest := by
  unfold Obligations.FourBytesAreKeyWithEmptyDigest
  refine ⟨fun s hrst hst hr => ?taken, fun s t h => ?enabled⟩
  case taken =>
    have hexec := (Takes.mKey ⟨hrst, hst⟩ hr).exec_eq
    rw [State.takeMac_of_rem_eq_four hr] at hexec
    exact ⟨hexec, State.len_eq_pos_add_four hr⟩
  case enabled =>
    cases exec_next.mp h with
    | mKey hat hr =>
      rw [State.takeMac_of_rem_eq_four hr]
      exact ⟨hat.1, hat.2, hr, State.macValue_takeMac (.inr rfl) le_rfl⟩

/-- Settles O14: the digest of LEN − POS − 4 bytes from POS + 4 ends the packet. -/
theorem longRemainderIsKeyAndDigest : Obligations.LongRemainderIsKeyAndDigest := by
  unfold Obligations.LongRemainderIsKeyAndDigest
  refine ⟨fun s hrst hst hr => ?taken, fun s t h => ?enabled⟩
  case taken =>
    have hrem := State.len_sub_pos_eq_rem (s := s) (by omega)
    exact ⟨(Takes.mFull ⟨hrst, hst⟩ hr).exec_eq, State.pos_add_le (n := 5) hr, by omega⟩
  case enabled =>
    cases exec_next.mp h with
    | mFull hat hr =>
      have hpos : s.pos + 5 ≤ s.len := State.pos_add_le hr
      exact ⟨hat.1, hat.2, hr, fun hi => State.macValue_takeMac (.inl hi) (by omega)⟩

end Sys2Proof.Machine
end

section
/-! PROOFS. The reference decoder of 45_assembler.md R157: what it reads is the header of a state that holds the packet, and
the reference encoder R158 gives the bytes of every part back (O55). -/

namespace Sys2Proof.Machine

/-! ### A packet in the buffer -/

/-- The packet of `s` is `bs`. -/
structure State.Holds (s : State) (bs : List Byte) : Prop where
  len_eq : s.len = bs.length
  byte_eq : ∀ i, i < bs.length → s.byte i = bs.getD i 0

/-- The block with the parameters `c` right after START on the packet `bs`, with no turn of the host to come. -/
def State.started (c : Config) (bs : List Byte) : State :=
  ({ State.reset with cfg := c, pkt := Memory.writeAll [] 0 bs, lenI := bs.length } : State).startRun

theorem State.started_holds (c : Config) (bs : List Byte) : (State.started c bs).Holds bs where
  len_eq := rfl
  byte_eq i hi := by
    have hread := Memory.read_writeAll Memory.wf_nil 0 bs i
    rwa [if_pos ⟨Nat.zero_le i, by omega⟩, Nat.sub_zero] at hread

section
variable {s : State} {bs : List Byte} {a n : Nat}

theorem State.Holds.slice_eq (h : s.Holds bs) (ha : a + n ≤ bs.length) : s.slice a n = (bs.drop a).take n := by
  have hlen : ((bs.drop a).take n).length = n := by
    rw [List.length_take, List.length_drop]
    omega
  refine List.ext_getElem (by simp [State.slice, hlen]) fun i hi _ => ?_
  have hi : i < n := by simpa [State.slice] using hi
  simp [State.slice, h.byte_eq (a + i) (by omega), show a + i < bs.length by omega]

theorem State.Holds.fieldAt_one (h : s.Holds bs) (ha : a + 1 ≤ bs.length) : fieldAt 8 bs a 1 = s.byte a := by
  rw [fieldAt, ← h.slice_eq ha]
  exact be_one _

theorem State.Holds.fieldAt_two (h : s.Holds bs) (ha : a + 2 ≤ bs.length) :
    fieldAt 16 bs a 2 = s.byte a ++ s.byte (a + 1) := by
  rw [fieldAt, ← h.slice_eq ha]
  exact be_two _ _

theorem State.Holds.fieldAt_four (h : s.Holds bs) (ha : a + 4 ≤ bs.length) :
    fieldAt 32 bs a 4 = s.byte a ++ s.byte (a + 1) ++ s.byte (a + 2) ++ s.byte (a + 3) := by
  rw [fieldAt, ← h.slice_eq ha]
  exact be_four _ _ _ _

/-! ### What the reference decoder answers -/

/-- The trailer `r` of a packet of version `v`, as R157 decodes it: the fields, what is left, and whether an invalid length
ended the loop. -/
def decodeTrailer (v : BitVec 3) (r : List Byte) : List ExtensionField × List Byte × Bool :=
  if v = 4 then decodeFields r.length r else ([], r, false)

theorem decodePacket_of_short (hl : bs.length < 48) : decodePacket bs = .error .truncated := if_pos hl

/-- Every field of the header is read from the bytes H.LOAD reads it from. -/
theorem State.Holds.decodePacket_eq (h : s.Holds bs) (hl : 48 ≤ bs.length) :
    decodePacket bs =
      let r := decodeTrailer s.headerBytes.vn (bs.drop 48)
      .ok (s.headerBytes.packet r.1 (decodeMac r.2.1), r.2.2) := by
  have one (a : Nat) (ha : a < 48) : fieldAt 8 bs a 1 = s.byte a := h.fieldAt_one (by omega)
  have four (a : Nat) (ha : a < 45) :
      fieldAt 32 bs a 4 = s.byte a ++ s.byte (a + 1) ++ s.byte (a + 2) ++ s.byte (a + 3) := h.fieldAt_four (by omega)
  rw [decodePacket, if_neg hl.not_gt]
  simp only [one 0, one 1, one 2, one 3, four 4, four 8, four 12, four 16, four 20, four 24, four 28, four 32, four 36,
    four 40, four 44, Nat.reduceLT]
  rfl

/-! ### The encoder gives each part back -/

/-- A field of n bytes, read at width w = 8·n and written again, is the bytes it was read from. -/
theorem beBytes_fieldAt {w : Nat} (hw : 2 ^ w = 256 ^ n) (ha : a + n ≤ bs.length) :
    beBytes n (fieldAt w bs a n).toNat = (bs.drop a).take n := by
  have hlen : ((bs.drop a).take n).length = n := by
    rw [List.length_take, List.length_drop]
    omega
  have hlt := be_lt ((bs.drop a).take n)
  have hinv := beBytes_be ((bs.drop a).take n)
  rw [hlen] at hlt hinv
  rw [fieldAt, BitVec.toNat_ofNat, hw, Nat.mod_eq_of_lt hlt, hinv]

/-- The field that begins a byte sequence, with the length L of its own header. -/
def firstField (r : List Byte) : ExtensionField :=
  { fieldType := fieldAt 16 r 0 2, length := fieldAt 16 r 2 2, payload := (r.take (fieldAt 16 r 2 2).toNat).drop 4 }

theorem decodeFields_of_stub (hr : bs.length < 4) (n : Nat) : decodeFields n bs = ([], bs, false) := by
  cases n with
  | zero => rfl
  | succ n => rw [decodeFields, if_pos hr]

/-- A pass of the loop of R157: a field of valid length is taken, an invalid length ends the loop. -/
theorem decodeFields_succ (hr : 4 ≤ bs.length) (n : Nat) :
    decodeFields (n + 1) bs =
      if xValid (fieldAt 16 bs 2 2) bs.length then
        Prod.map (firstField bs :: ·) id (decodeFields n (bs.drop (fieldAt 16 bs 2 2).toNat))
      else ([], bs, true) := by
  have hvalid : ((fieldAt 16 bs 2 2).toNat < 4 ∨ (fieldAt 16 bs 2 2).toNat % 4 ≠ 0 ∨
      bs.length < (fieldAt 16 bs 2 2).toNat) ↔ ¬ xValid (fieldAt 16 bs 2 2) bs.length := by
    omega
  rw [decodeFields, if_neg hr.not_gt]
  simp only [hvalid, ite_not]
  rfl

/-- The first field and what follows it are the whole. -/
theorem firstField_bytes_append (hv : xValid (fieldAt 16 bs 2 2) bs.length) :
    (firstField bs).bytes ++ bs.drop (fieldAt 16 bs 2 2).toNat = bs := by
  obtain ⟨h4, -, hle⟩ := hv
  rw [firstField]
  generalize hl : (fieldAt 16 bs 2 2).toNat = l at h4 hle ⊢
  have hpayload : (bs.take l).drop 4 ++ bs.drop l = bs.drop 4 := by
    rw [← List.drop_append_of_le_length (by rw [List.length_take]; omega), List.take_append_drop]
  have hlength : (bs.drop 2).take 2 ++ bs.drop 4 = bs.drop 2 := by
    simpa using List.take_append_drop 2 (bs.drop 2)
  rw [ExtensionField.bytes, beBytes_fieldAt (by norm_num) (by omega), beBytes_fieldAt (by norm_num) (by omega),
    List.append_assoc, hpayload, List.append_assoc, hlength, List.drop_zero, List.take_append_drop]

/-- The fields the loop takes and the bytes it leaves are the bytes it began with. -/
theorem decodeFields_bytes (n : Nat) (r : List Byte) :
    (decodeFields n r).1.flatMap ExtensionField.bytes ++ (decodeFields n r).2.1 = r := by
  induction n generalizing r with
  | zero => rfl
  | succ n ih =>
    obtain hr | hr := lt_or_ge r.length 4
    · rw [decodeFields_of_stub hr]
      rfl
    · rw [decodeFields_succ hr]
      split_ifs with hv
      · simp only [Prod.map, id, List.flatMap_cons, List.append_assoc, ih, firstField_bytes_append hv]
      · rfl

theorem decodeTrailer_bytes (v : BitVec 3) (r : List Byte) :
    (decodeTrailer v r).1.flatMap ExtensionField.bytes ++ (decodeTrailer v r).2.1 = r := by
  rw [decodeTrailer]
  split_ifs
  · exact decodeFields_bytes _ r
  · rfl

theorem macBytes_decodeMac (r : List Byte) : macBytes (decodeMac r) = r := by
  rw [decodeMac]
  split_ifs with hnone hshort
  · exact (List.length_eq_zero_iff.mp hnone).symm
  · rfl
  · have hkey : beBytes 4 (fieldAt 32 r 0 4).toNat = r.take 4 := beBytes_fieldAt (by norm_num) (by omega)
    exact (congrArg (· ++ r.drop 4) hkey).trans (List.take_append_drop 4 r)

theorem ofInt_sext8 (v : BitVec 8) : BitVec.ofInt 8 (sext8 v) = v := by
  rw [sext8_eq_toInt, BitVec.ofInt_toInt]

/-- The bytes of a packet are those of its parts. -/
theorem Header.encodePacket_packet (v : Header) (exts : List ExtensionField) (mac : Option Mac) :
    encodePacket (v.packet exts mac) = v.bytes ++ (exts.flatMap ExtensionField.bytes ++ macBytes mac) := by
  simp [encodePacket, Header.packet, Header.bytes, ofInt_sext8]

/-- The header of a state that holds the packet has the first 48 bytes of it. -/
theorem State.Holds.bytes_headerBytes (h : s.Holds bs) (hl : 48 ≤ bs.length) : s.headerBytes.bytes = bs.take 48 := by
  have hslice := h.slice_eq (a := 0) (n := 48) (by omega)
  rw [List.drop_zero] at hslice
  rw [State.bytes_headerBytes, ← hslice, State.slice]
  simp only [Nat.zero_add]

end

/-- Settles O55: header, fields and MAC are each written as the bytes they were read from, the fields by induction on the
passes of the loop. -/
theorem encodeInvertsDecodePacket : Obligations.EncodeInvertsDecodePacket := by
  unfold Obligations.EncodeInvertsDecodePacket
  intro bs p x h
  obtain hl | hl := lt_or_ge bs.length 48
  · simp [decodePacket_of_short hl] at h
  · have hs := State.started_holds Config.ntpp10 bs
    rw [hs.decodePacket_eq hl] at h
    obtain ⟨rfl, -⟩ := Prod.mk.inj (Except.ok.inj h)
    rw [Header.encodePacket_packet, macBytes_decodeMac, decodeTrailer_bytes, hs.bytes_headerBytes hl,
      List.take_append_drop]

end Sys2Proof.Machine
end

section
/-! PROOFS. Sequencing and the final check of 45_assembler.md: what START, C.OK and C.TRAIL do and where they run (O1, O15,
O16, O33, O44), what a successful run accounts for (O45), and that its result stays until the next START (O57). -/

namespace Sys2Proof.Machine

/-! ### START, C.OK, C.TRAIL -/

/-- START keeps the pins, the buffer, the parameters and the turns, and nothing else. -/
theorem State.startRun_congr {s u : State} (hrst : u.rst = s.rst) (hstart : u.start = s.start) (hlenI : u.lenI = s.lenI)
    (hxidx : u.xidx = s.xidx) (hpkt : u.pkt = s.pkt) (hcfg : u.cfg = s.cfg) (hturns : u.turns = s.turns) :
    u.startRun = s.startRun := by
  simp only [State.startRun, hrst, hstart, hlenI, hxidx, hpkt, hcfg, hturns]

/-- Settles O1. -/
theorem startBeginsRun : Obligations.StartBeginsRun := by
  unfold Obligations.StartBeginsRun
  refine ⟨fun s hrst hst hs => (Takes.start hrst hst hs).exec_eq, fun s t h => ?_⟩
  cases exec_next.mp h with
  | start hrst hst hs => exact ⟨hrst, hst, hs⟩

/-- Settles O33: START leaves of the run before only what both states have alike. -/
theorem nothingSurvivesStart : Obligations.NothingSurvivesStart := by
  unfold Obligations.NothingSurvivesStart
  intro s s' hrst hrst' hst hst' hs hs' hlenI hxidx hpkt hcfg hturns
  have hsame : s'.startRun = s.startRun :=
    State.startRun_congr (hrst'.trans hrst.symm) (hs'.trans hs.symm) hlenI hxidx hpkt hcfg hturns
  exact ⟨s.startRun, (Takes.start hrst hst hs).exec_eq, hsame ▸ (Takes.start hrst' hst' hs').exec_eq⟩

/-- Settles O15: in CHK the packet is still as START found it, so that the accepted state has a result. -/
theorem fullConsumptionSetsOk : Obligations.FullConsumptionSetsOk := by
  unfold Obligations.FullConsumptionSetsOk
  refine ⟨fun s hrst hst hp => (Takes.cOk ⟨hrst, hst⟩ hp).exec_eq, fun s t h => ?enabled, fun s t hinv h => ?success⟩
  case enabled =>
    cases exec_next.mp h with
    | cOk hat hp => exact ⟨hat.1, hat.2, hp⟩
  case success =>
    cases exec_next.mp h with
    | cOk hat hp =>
      obtain ⟨-, -, herr, -⟩ := hinv.phase hat.2
      have hintact : s.intact = true := hinv.intact_of_not_done hat.2 (by simp)
      obtain ⟨v, mac, -, -, hres⟩ := (hinv.accept hat.2 hp).exists_result rfl rfl (.inl hintact)
      exact ⟨herr, rfl, _, hres⟩

/-- Settles O16: C.TRAIL is the error entry, after which there is no result. -/
theorem leftoverBytesRaiseTrailingData : Obligations.LeftoverBytesRaiseTrailingData := by
  unfold Obligations.LeftoverBytesRaiseTrailingData
  refine ⟨fun s hrst hst hp => (Takes.cTrail ⟨hrst, hst⟩ hp).exec_eq, fun s t h => ?enabled, fun s hinv _ hp => ?below⟩
  case enabled =>
    cases exec_next.mp h with
    | cTrail hat hp =>
      exact ⟨hat.1, hat.2, hp, State.result_of_invalid (State.resultValid_eq_false (.inr rfl))⟩
  case below => exact hinv.pos_le_len.lt_of_ne hp

/-- Settles O44: under MAC_ONLY nothing is left over in CHK. -/
theorem trailingDataUnreachableByDefault : Obligations.TrailingDataUnreachableByDefault := by
  unfold Obligations.TrailingDataUnreachableByDefault
  intro s h hc t ht
  cases exec_next.mp ht with
  | cTrail hat hp => exact hp (h.pos_eq_len_of_chk hat.2 hc)

/-! ### Header, records and MAC region tile the packet -/

/-- The first record begins where the tiling does. -/
theorem tiles_head {a b : Nat} {rs : List XRec} (h : tiles a rs b = true) (h0 : 0 < rs.length) : rs[0].xoff = a := by
  cases rs with
  | nil => simp at h0
  | cons r rs =>
    simp only [tiles, Bool.and_eq_true, beq_iff_eq] at h
    exact h.1.1.1

/-- Each record begins where the one before it ends. -/
theorem tiles_next {a b : Nat} {rs : List XRec} (h : tiles a rs b = true) {i : Nat} (hi : i + 1 < rs.length) :
    rs[i + 1].xoff = rs[i].xoff + rs[i].xlen.toNat := by
  induction rs generalizing a i with
  | nil => simp at hi
  | cons r rs ih =>
    simp only [tiles, Bool.and_eq_true, beq_iff_eq] at h
    obtain ⟨⟨⟨hoff, -⟩, -⟩, hrest⟩ := h
    have hi : i < rs.length := by simpa using hi
    cases i with
    | zero => simpa [hoff] using tiles_head hrest hi
    | succ i => exact ih hrest hi

/-- Settles O45: the invariant accounts for every byte of a successful run. -/
theorem successTilesThePacket : Obligations.SuccessTilesThePacket := by
  unfold Obligations.SuccessTilesThePacket
  intro s h hst hok
  obtain ⟨-, htiles, hframe, -⟩ := h.success hst hok
  refine ⟨tiles_head htiles, fun i => tiles_next htiles, State.macFrame_le hframe, ?_⟩
  obtain ⟨⟨hno, -⟩, hend⟩ | ⟨hp, hkv, -, hoff, hlen, hle⟩ | ⟨hp, hkv, -, hoff, hlen, hlt, hle⟩ := hframe
  · exact ⟨fun _ => hend, by simp [hno]⟩
  · exact ⟨by simp [hp], fun _ => .inl ⟨hkv, _, _, hoff, hlen, rfl, by omega⟩⟩
  · exact ⟨by simp [hp], fun _ => .inr ⟨hkv, _, _, hoff, hlen, rfl, by omega, by omega, by omega⟩⟩

/-! ### What the result depends on -/

/-- No register of the block differs: only the pins, the buffer, `intact` and the turns may. -/
abbrev State.sameRegisters (s u : State) : Prop :=
  u = { s with
    rst := u.rst, start := u.start, lenI := u.lenI, xidx := u.xidx, pkt := u.pkt, intact := u.intact, turns := u.turns }

/-- The packet, in the bytes below LEN and in whether it has changed since START, is the same. -/
abbrev State.samePacket (s u : State) : Prop := u.intact = s.intact ∧ ∀ k, k < s.len → u.byte k = s.byte k

section
variable {s u : State}

/-- A pointer names the same bytes of the same packet, and of any packet when it names none. -/
theorem State.packetBytes_congr (hlen : u.len = s.len) {a n : Nat} (h : n = 0 ∨ s.samePacket u) :
    u.packetBytes a n = s.packetBytes a n := by
  have hread : memRead u a n = memRead s a n := by
    rw [memRead_eq, memRead_eq, hlen]
    split_ifs with hin
    · refine congrArg Except.ok (List.map_congr_left fun i hi => ?_)
      have hi : i < n := List.mem_range.mp hi
      obtain rfl | ⟨-, hbyte⟩ := h
      · omega
      · exact hbyte _ (by omega)
    · rfl
  obtain rfl | ⟨hintact, -⟩ := h
  · simp [State.packetBytes, hread]
  · rw [State.packetBytes, State.packetBytes, hread, hintact]

theorem State.fieldsOf_congr (hlen : u.len = s.len) {rs : List XRec} (h : (∀ r ∈ rs, r.xlen.toNat = 4) ∨ s.samePacket u) :
    u.fieldsOf rs = s.fieldsOf rs := by
  induction rs with
  | nil => rfl
  | cons r rs ih =>
    have hfield : u.fieldOf r = s.fieldOf r := by
      rw [State.fieldOf, State.fieldOf, State.packetBytes_congr hlen]
      exact h.imp_left fun h4 => by rw [h4 r List.mem_cons_self]
    rw [State.fieldsOf, State.fieldsOf, hfield, ih (h.imp_left fun h4 => (List.forall_mem_cons.mp h4).2)]

theorem State.macValue_congr (hreg : s.sameRegisters u) (h : (s.macP = true → s.macDlen = some 0) ∨ s.samePacket u) :
    u.macValue = s.macValue := by
  have hlen : u.len = s.len := (congrArg State.len hreg :)
  have hp : u.macP = s.macP := (congrArg State.macP hreg :)
  have hkv : u.macKv = s.macKv := (congrArg State.macKv hreg :)
  have hkey : u.macKey = s.macKey := (congrArg State.macKey hreg :)
  have hoff : u.macOff = s.macOff := (congrArg State.macOff hreg :)
  have hdlen : u.macDlen = s.macDlen := (congrArg State.macDlen hreg :)
  cases hmac : s.macP with
  | false => rw [State.macValue_of_absent hmac, State.macValue_of_absent (hp.trans hmac)]
  | true =>
    have hbytes (off n : Nat) (hn : s.macDlen = some n) : u.packetBytes off n = s.packetBytes off n :=
      State.packetBytes_congr hlen (h.imp_left fun h0 => Option.some.inj (hn.symm.trans (h0 hmac)))
    rw [State.macValue, State.macValue, hp, hkv, hkey, hoff, hdlen]
    cases hn : s.macDlen with
    | none => rfl
    | some n => simp only [hbytes _ n hn, Option.bind_eq_bind, Option.bind_some]

/-- The result is a function of the registers and of the packet, and of the registers alone when it points at nothing. -/
theorem State.result_congr (hreg : s.sameRegisters u) (h : s.pointsAtNothing ∨ s.samePacket u) : u.result = s.result := by
  have hlen : u.len = s.len := (congrArg State.len hreg :)
  have hx : u.fieldsOf s.xtab = s.fieldsOf s.xtab := State.fieldsOf_congr hlen (h.imp_left And.left)
  have hm : u.macValue = s.macValue := State.macValue_congr hreg (h.imp_left And.right)
  rw [hreg] at hx hm ⊢
  simp only [State.result, State.resultValid, State.isDone, hx, hm] <;> rfl

end

/-! ### The result stays -/

section
variable {s t : State}

/-- A write of the host is about no byte of the packet or leaves it as it was, or the packet has changed. -/
theorem State.samePacket_hostWrite (hwf : Memory.wf s.pkt) (a : Nat) (b : Byte) :
    s.samePacket (s.hostWrite a b) ∨ (a < s.len ∧ s.byte a ≠ b ∧ (s.hostWrite a b).intact = false) := by
  by_cases hsame : s.len ≤ a ∨ s.byte a = b
  · refine .inl ⟨?_, fun k hk => ?_⟩
    · have : (decide (s.len ≤ a) || Memory.read s.pkt a == b) = true := by simpa [State.byte] using hsame
      rw [State.hostWrite, this, Bool.and_true]
    · have hread : (s.hostWrite a b).byte k = if k = a then b else s.byte k := Memory.read_write hwf a b k
      rw [hread]
      split_ifs with hka
      · subst hka
        exact (hsame.resolve_left hk.not_ge).symm
      · rfl
  · obtain ⟨ha, hb⟩ := not_or.mp hsame
    have hb' : ¬ Memory.read s.pkt a = b := hb
    exact .inr ⟨not_le.mp ha, hb, by simp [State.hostWrite, ha, hb']⟩

/-- The turn at hand is a write of the host that changes a byte of the packet, as `intact` then says in `t`. -/
abbrev State.packetWritten (s t : State) : Prop :=
  ∃ a b, s.turns.head? = some (.host (.writePkt a b)) ∧ a < s.len ∧ s.byte a ≠ b ∧ t.intact = false

/-- An operation of the block out of DONE is START. -/
theorem Takes.eq_startRun {i : Instr} (h : Takes i s t) (hst : s.st = .done) : t = s.startRun := by
  cases h with
  | start => rfl
  | hTrunc h | hLoad h | dV4 h | dLegacy0 h | dLegacy1 h | dLegacy2 h | dLegacy3 h | dHigh5 h | dHigh6 h | dHigh7 h
  | xStop h | xFallMod1 h | xFallMod2 h | xFallMod3 h | xFallZero h | xFallOver h | xTake h | mNone h | mShort h
  | mShortFails h | mKey h | mFull h | cOk h | cTrail h => simp [h.2] at hst

/-- A step that stays in DONE changes no register, and of the packet only what the host writes there. -/
theorem step_of_done (hwf : Memory.wf s.pkt) (hst : s.st = .done) (h : step s = .next t) (ht : t.st = .done) :
    s.sameRegisters t ∧ (s.samePacket t ∨ s.packetWritten t) := by
  have same (u : State) (hreg : s.sameRegisters u) (hintact : u.intact = s.intact) (hpkt : u.pkt = s.pkt) :
      s.sameRegisters u ∧ (s.samePacket u ∨ s.packetWritten u) :=
    ⟨hreg, .inl ⟨hintact, fun k _ => congrArg (Memory.read · k) hpkt⟩⟩
  obtain ⟨-, hturn⟩ | ⟨a, ha, hturn⟩ := step_next h
  · obtain ⟨-, rfl⟩ | ⟨-, u, i, -, -, he⟩ | ⟨-, u, -, -, rfl⟩ := blockTurn_next hturn
    · cases ht
    · rw [(exec_next.mp he).eq_startRun hst] at ht
      cases ht
    · exact same _ rfl rfl rfl
  · obtain ⟨k, b, rfl, -, -, rfl⟩ | ⟨n, -, -, rfl⟩ | ⟨b, -, rfl⟩ | ⟨-, rfl⟩ | ⟨-, rfl⟩ | ⟨i, -, -, rfl⟩ | ⟨p, -, -, rfl⟩ :=
      hostTurn_next hturn
    · exact ⟨rfl, (State.samePacket_hostWrite (s := s.afterTurn) hwf k b).imp id fun hw => ⟨k, b, ha, hw⟩⟩
    · exact same _ rfl rfl rfl
    · exact same _ rfl rfl rfl
    · cases ht
    · exact same _ rfl rfl rfl
    · exact same _ rfl rfl rfl
    · exact same _ rfl rfl rfl

end

/-- Settles O57: the registers stay, so the result does where the packet stays or the result points at nothing of it, and
otherwise there is none. -/
theorem resultFrozenUntilNextStart : Obligations.ResultFrozenUntilNextStart := by
  unfold Obligations.ResultFrozenUntilNextStart
  intro s t h hst _ hstep ht
  obtain ⟨hwf, -⟩ := h.base
  obtain ⟨hreg, hpkt⟩ := step_of_done hwf hst hstep ht
  refine ⟨hreg, fun hkept => ?_, ?_⟩
  · obtain hpkt | ⟨a, b, hw, ha, hb, -⟩ := hpkt
    · exact State.result_congr hreg (.inr hpkt)
    · exact absurd (hkept a b hw) (not_or.mpr ⟨ha.not_ge, hb⟩)
  · obtain hpkt | ⟨-, -, -, -, -, hchanged⟩ := hpkt
    · exact .inl (State.result_congr hreg (.inr hpkt))
    · by_cases hnothing : s.pointsAtNothing
      · exact .inl (State.result_congr hreg (.inl hnothing))
      · have hinv : t.Inv := invariantKeptByEveryStep s t h hstep
        have hpoints : t.pointsAtNothing ↔ s.pointsAtNothing := by rw [hreg]
        exact .inr (hinv.result_changed hchanged fun hp => hnothing (hpoints.mp hp))

end Sys2Proof.Machine
end

section
/-! PROOFS. The host does not show in a run: what the block does alone on a packet, from START on, it does from every launch
state of 70_reset_and_hazards.md R203 as well, with the host's turns in between. The launch premises say nothing of `xidx` or
of the form of the buffer, so a launch state need not meet the invariant; the state after START on the packet alone does. -/

namespace Sys2Proof

/-- ST is that of a busy block. -/
def Fsm.running (f : Fsm) : Prop := f ≠ .idle ∧ f ≠ .done

@[simp] theorem Fsm.running_hdr : Fsm.hdr.running := ⟨by decide, by decide⟩
@[simp] theorem Fsm.running_disp : Fsm.disp.running := ⟨by decide, by decide⟩
@[simp] theorem Fsm.running_ext : Fsm.ext.running := ⟨by decide, by decide⟩
@[simp] theorem Fsm.running_mac : Fsm.mac.running := ⟨by decide, by decide⟩
@[simp] theorem Fsm.running_chk : Fsm.chk.running := ⟨by decide, by decide⟩

end Sys2Proof

namespace Sys2Proof.Machine

theorem State.busy_iff {s : State} : s.busy = true ↔ s.st.running := by
  cases hst : s.st <;> simp [State.busy, Fsm.running, hst]

/-! ### Pins, buffer and turns do not steer a busy block -/

/-- `s` with other values on the pins a busy block does not sample (R197, R198) and other turns to come. -/
def State.withPins (s : State) (b : Bool) (n x : Nat) (ts : List Turn) : State :=
  { s with start := b, lenI := n, xidx := x, turns := ts }

/-- A busy block does the same whatever stands there. -/
theorem Takes.withPins {i : Instr} {s t : State} (h : Takes i s t) (hrun : s.st.running) (b : Bool) (n x : Nat)
    (ts : List Turn) : Takes i (s.withPins b n x ts) (t.withPins b n x ts) := by
  cases h with
  | start _ hst => exact absurd hst (not_or.mpr hrun)
  | hTrunc h hl => exact .hTrunc (s := s.withPins b n x ts) h hl
  | hLoad h hl => exact .hLoad (s := s.withPins b n x ts) h hl
  | dV4 h hv => exact .dV4 (s := s.withPins b n x ts) h hv
  | dLegacy0 h hv => exact .dLegacy0 (s := s.withPins b n x ts) h hv
  | dLegacy1 h hv => exact .dLegacy1 (s := s.withPins b n x ts) h hv
  | dLegacy2 h hv => exact .dLegacy2 (s := s.withPins b n x ts) h hv
  | dLegacy3 h hv => exact .dLegacy3 (s := s.withPins b n x ts) h hv
  | dHigh5 h hv => exact .dHigh5 (s := s.withPins b n x ts) h hv
  | dHigh6 h hv => exact .dHigh6 (s := s.withPins b n x ts) h hv
  | dHigh7 h hv => exact .dHigh7 (s := s.withPins b n x ts) h hv
  | xStop h hr => exact .xStop (s := s.withPins b n x ts) h hr
  | xFallMod1 h hr hl => exact .xFallMod1 (s := s.withPins b n x ts) h hr hl
  | xFallMod2 h hr hl => exact .xFallMod2 (s := s.withPins b n x ts) h hr hl
  | xFallMod3 h hr hl => exact .xFallMod3 (s := s.withPins b n x ts) h hr hl
  | xFallZero h hr hl => exact .xFallZero (s := s.withPins b n x ts) h hr hl
  | xFallOver h hr hl hz ho => exact .xFallOver (s := s.withPins b n x ts) h hr hl hz ho
  | xTake h hv => exact .xTake (s := s.withPins b n x ts) h hv
  | mNone h hr => exact .mNone (s := s.withPins b n x ts) h hr
  | mShort h h0 hr hc => exact .mShort (s := s.withPins b n x ts) h h0 hr hc
  | mShortFails h h0 hr hc => exact .mShortFails (s := s.withPins b n x ts) h h0 hr hc
  | mKey h hr => exact .mKey (s := s.withPins b n x ts) h hr
  | mFull h hr => exact .mFull (s := s.withPins b n x ts) h hr
  | cOk h hp => exact .cOk (s := s.withPins b n x ts) h hp
  | cTrail h hp => exact .cTrail (s := s.withPins b n x ts) h hp

/-- Out of a busy state no operation is START. -/
theorem Takes.ne_start {i : Instr} {s t : State} (h : Takes i s t) (hrun : s.st.running) : i ≠ .start := by
  rintro rfl
  cases h with
  | start _ hst => exact hst.elim hrun.1 hrun.2

/-- What the block does in a busy state it does where the host has acted within its duties, with the same effect. -/
theorem Takes.of_hostLeaves {i : Instr} {q t u : State} (h : Takes i q t) (hrun : q.st.running) (hu : q.HostLeaves u) :
    ∃ v, Takes i u v ∧ t.HostLeaves v := by
  have hrst : u.rst = q.rst := (hu.rst_false h.rst_eq).trans h.rst_eq.symm
  have hfields : u = (q.withPkt u.pkt).withPins u.start u.lenI u.xidx u.turns :=
    hu.registers.trans (by rw [hrst, hu.intact_eq]; rfl)
  have hpkt : Takes i (q.withPkt u.pkt) (t.withPkt u.pkt) :=
    exec_next.mp (h.exec_withPkt fun k hk _ => hu.byte_eq k hk)
  have htakes := hpkt.withPins hrun u.start u.lenI u.xidx u.turns
  rw [← hfields] at htakes
  refine ⟨_, htakes, rfl, id, rfl, fun k hk => ?_⟩
  have hlen := (h.len_intact_eq (h.ne_start hrun)).1
  have hbyte : t.byte k = q.byte k := congrArg (Memory.read · k) h.pkt_pins_cfg_eq.1
  exact (hu.byte_eq k (hlen ▸ hk)).trans hbyte.symm

/-! ### From a run of the block alone to a run with the host -/

section
variable {s u t : State}

theorem State.afterTurn_of_nil (h : s.turns = []) : s.afterTurn = s := by
  rw [State.afterTurn, h, List.tail_nil, ← h]

theorem State.turn_of_blockMoves (hd : s.dutiesKept) (hrun : s.st.running) (hm : s.blockMoves) :
    ∃ u, s.HostLeaves u ∧ ∀ i t, Takes i u t → RunsThrough Fsm.running s [i] t ∧ (t.busy = true → t.dutiesKept) :=
  ⟨s.afterTurn, State.HostLeaves.afterTurn s, fun _ t ht =>
    ⟨.block hrun hm ht (.refl t), State.dutiesKept_step hd (ht.step_of_block hm)⟩⟩

/-- The host within its duties comes to the block's next turn, whether or not the state meets the invariant. -/
theorem State.exists_turn_of_duties (hd : s.dutiesKept) (hrun : s.st.running) :
    ∃ u, s.HostLeaves u ∧ ∀ i t, Takes i u t → RunsThrough Fsm.running s [i] t ∧ (t.busy = true → t.dutiesKept) := by
  induction hturns : s.turns generalizing s with
  | nil => exact s.turn_of_blockMoves hd hrun (.inl (by simp [hturns]))
  | cons turn rest ih =>
    obtain hm | ⟨a, ha⟩ := s.blockMoves_or_host
    · exact s.turn_of_blockMoves hd hrun hm
    · have hallowed := (a.allowed_afterTurn s).trans (State.dutiesKept_head hd ha)
      obtain ⟨u, hu, hreg, hrst, hpkt⟩ := hostTurn_of_allowed hallowed
      obtain ⟨hintact, hbyte⟩ := hpkt (State.busy_iff.mpr hrun)
      have hleft : s.HostLeaves u := (State.HostLeaves.afterTurn s).trans ⟨by rw [hreg], hrst, hintact, hbyte⟩
      have hrunu : u.st.running := hleft.st_eq ▸ hrun
      have hstep : step s = .next u := (step_host ha).trans hu
      have hrest : u.turns = rest := by rw [step_turns hstep, hturns, List.tail_cons]
      obtain ⟨v, hv, hnext⟩ := ih (State.dutiesKept_step hd hstep (State.busy_iff.mpr hrunu)) hrunu hrest
      exact ⟨v, hleft.trans hv, fun i t ht => (hnext i t ht).imp_left (.host hrun ha hu)⟩

/-- The operations of a run without turns of the host are those of a run with them, and the end is the same. -/
theorem RunsThrough.with_host {q : State} {ops : List Instr} (h : RunsThrough Fsm.running q ops t) (hq : q.turns = [])
    (hs : q.HostLeaves s) (hrst : s.rst = false) (hd : s.busy = true → s.dutiesKept) :
    ∃ v, RunsThrough Fsm.running s ops v ∧ t.HostLeaves v := by
  induction h generalizing s with
  | refl => exact ⟨s, .refl s, hs⟩
  | host _ ha => simp [hq] at ha
  | block hrun _ htakes _ ih =>
    rw [State.afterTurn_of_nil hq] at htakes
    have hruns : s.st.running := hs.st_eq ▸ hrun
    obtain ⟨w, hw, hnext⟩ := State.exists_turn_of_duties (hd (State.busy_iff.mpr hruns)) hruns
    obtain ⟨v, hv, hleft⟩ := htakes.of_hostLeaves hrun (hs.trans hw)
    obtain ⟨hfirst, hdv⟩ := hnext _ v hv
    have hrstv : v.rst = false := hv.pkt_pins_cfg_eq.2.1.trans (hw.rst_false hrst)
    obtain ⟨e, hrest, hend⟩ := ih (htakes.turns_eq.trans hq) hleft hrstv hdv
    exact ⟨e, hfirst.trans hrest, hend⟩

/-! ### From the launch -/

/-- START of a launch state leaves the block as START on the packet alone does. -/
theorem State.started_hostLeaves_of_launch {bs : List Byte} (h : s.launch bs) :
    (State.started s.cfg bs).HostLeaves s.afterTurn.startRun := by
  obtain ⟨hrst, -, -, -, hlenI, -, hbyte, -⟩ := h
  have hlen : s.afterTurn.lenI = bs.length := hlenI
  exact ⟨by rw [State.startRun, hlen]; rfl, fun _ => hrst, rfl, fun k hk =>
    (hbyte k hk).trans ((State.started_holds s.cfg bs).byte_eq k hk).symm⟩

/-- A run of the block alone on a packet is the run from every launch state on it: the same operations after START, with
the host's turns in between, busy all along, and to the same end. -/
theorem State.exists_run_of_launch {bs : List Byte} (h : s.launch bs) {ops : List Instr}
    (hrun : RunsThrough Fsm.running (State.started s.cfg bs) ops t) :
    ∃ k v, core.run k s = .next v ∧ t.HostLeaves v ∧ traceOf k s = "START" :: ops.map Instr.mnemonic ∧
      k = (traceOf k s).length + s.hostTurns k ∧
      ∀ j u, 0 < j → j < k → core.run j s = .next u → u.busy = true := by
  have hstarted := State.started_hostLeaves_of_launch h
  obtain ⟨hrst, hst, hs, hm, -, -, -, hd⟩ := h
  have htakes : Takes .start s.afterTurn s.afterTurn.startRun := .start hrst hst hs
  have hstep := htakes.step_of_block hm
  obtain ⟨v, hv, hleft⟩ := hrun.with_host rfl hstarted hrst (State.dutiesKept_step hd hstep)
  obtain ⟨k, hk, htrace, hcount, hbefore⟩ := hv.exists_run
  have hops : traceOf (k + 1) s = "START" :: traceOf k s.afterTurn.startRun := by
    rw [traceOf_succ hstep, htakes.nextOperation_eq hm]
    rfl
  refine ⟨k + 1, v, (core_run_succ hstep).trans hk, hleft, by rw [hops, htrace], ?_, fun j u h0 hj hu => ?_⟩
  · rw [hops, List.length_cons, State.hostTurns_succ_of_block hm (step_turns hstep)]
    omega
  · obtain ⟨j, rfl⟩ := Nat.exists_eq_succ_of_ne_zero h0.ne'
    rw [core_run_succ hstep] at hu
    exact State.busy_iff.mpr (hbefore j u (by omega) hu)

end

end Sys2Proof.Machine
end

section
/-! PROOFS. The run of the block alone on a packet: through HDR and DISP, the loop in EXT, MAC and CHK, the operations it takes
and the state it ends in. -/

namespace Sys2Proof.Machine

/-! ### A block without a host -/

/-- A state of a run with no turn of the host to come. -/
structure State.Alone (s : State) : Prop where
  inv : s.Inv
  rst_false : s.rst = false
  turns_nil : s.turns = []

section
variable {s t : State}

theorem State.Alone.inRun (h : s.Alone) : s.InRun := ⟨h.inv, h.rst_false, fun _ => State.dutiesKept_of_nil h.turns_nil⟩

theorem State.Alone.takes (h : s.Alone) {i : Instr} (ht : Takes i s t) : t.Alone where
  inv := ht.inv h.inv
  rst_false := ht.pkt_pins_cfg_eq.2.1.trans h.rst_false
  turns_nil := ht.turns_eq.trans h.turns_nil

theorem State.Alone.run (h : s.Alone) {i : Instr} (ht : Takes i s t) (hrun : s.st.running) :
    RunsThrough Fsm.running s [i] t :=
  .block hrun (.inl (by simp [h.turns_nil])) (by rwa [State.afterTurn_of_nil h.turns_nil]) (.refl t)

theorem RunsThrough.alone {F : Fsm → Prop} {ops : List Instr} (h : RunsThrough F s ops t) (hs : s.Alone) : t.Alone := by
  induction h with
  | refl => exact hs
  | host _ ha => simp [hs.turns_nil] at ha
  | block _ _ ht _ ih =>
    rw [State.afterTurn_of_nil hs.turns_nil] at ht
    exact ih (hs.takes ht)

theorem Takes.holdsHeader {i : Instr} (h : Takes i s t) (hi : i.mnemonic ∉ ["START", "H.LOAD"]) {v : Header}
    (hv : s.holdsHeader v) : t.holdsHeader v := by
  have hstart : i ≠ .start := by
    rintro rfl
    simp [Instr.mnemonic] at hi
  obtain ⟨h1, h2, h3, h4, h5, h6, h7, h8, h9, h10, h11, h12, h13⟩ :=
    h.header_eq hstart fun e => hi (by simp [e])
  simpa only [State.holdsHeader, h1, h2, h3, h4, h5, h6, h7, h8, h9, h10, h11, h12, h13] using hv

/-- Behind H.LOAD a run leaves the header, the buffer and the parameters as they are. -/
theorem RunsThrough.leaves_header {F : Fsm → Prop} {ops : List Instr} (h : RunsThrough F s ops t) (hs : s.turns = [])
    (hops : ∀ i ∈ ops, i.mnemonic ∉ ["START", "H.LOAD"]) {v : Header} (hv : s.holdsHeader v) :
    t.holdsHeader v ∧ t.pkt = s.pkt ∧ t.cfg = s.cfg := by
  induction h with
  | refl => exact ⟨hv, rfl, rfl⟩
  | host _ ha => simp [hs] at ha
  | block _ _ ht _ ih =>
    rw [State.afterTurn_of_nil hs] at ht
    obtain ⟨hi, hrest⟩ := List.forall_mem_cons.mp hops
    obtain ⟨hheader, hpkt, hcfg⟩ := ih (ht.turns_eq.trans hs) hrest (ht.holdsHeader hi hv)
    obtain ⟨hpkt', -, -, -, -, hcfg'⟩ := ht.pkt_pins_cfg_eq
    exact ⟨hheader, hpkt.trans hpkt', hcfg.trans hcfg'⟩

end

theorem Memory.writeAll_within {w a : Nat} {m : Memory} {bs : List Byte} (h : Memory.within w m)
    (ha : a + bs.length ≤ 2 ^ w) : Memory.within w (Memory.writeAll m a bs) := by
  induction bs generalizing m a with
  | nil => exact h
  | cons b bs ih =>
    rw [List.length_cons] at ha
    exact ih (Memory.write_within h (by omega) b) (by omega)

theorem State.started_alone {c : Config} {bs : List Byte} (hl : bs.length ≤ c.lenMax) : (State.started c bs).Alone := by
  have hfits : 0 + bs.length ≤ 2 ^ c.lenW := by
    have := c.lenMax_lt
    omega
  have hbase : ({ State.reset with cfg := c, pkt := Memory.writeAll [] 0 bs, lenI := bs.length } : State).base :=
    ⟨Memory.writeAll_wf Memory.wf_nil 0 bs,
      ⟨hl, Nat.two_pow_pos _, Memory.writeAll_within (List.forall_mem_nil _) hfits⟩, Nat.zero_le _, le_rfl, rfl,
      by simp [State.reset]⟩
  exact ⟨State.startRun_inv hbase, rfl, rfl⟩

/-! ### From MAC to the end -/

/-- What the block does from `s` in MAC on: the operations, and the state in DONE they end in (R140 to R143, R151). -/
inductive State.MacEnds (s : State) : List Instr → State → Prop
  | none (hr : s.rem = 0) : s.MacEnds [.mNone, .cOk] s.noMac.accept
  | short (h0 : 0 < s.rem) (hr : s.rem < 4) (hc : s.cfg.shortMac = .acceptNoKey) :
      s.MacEnds [.mShort, .cOk] (s.takeMac false 0 s.pos (s.len - s.pos)).accept
  | shortFails (h0 : 0 < s.rem) (hr : s.rem < 4) (hc : s.cfg.shortMac = .truncated) :
      s.MacEnds [.mShort] (s.raise .truncated)
  | keyed (hr : 4 ≤ s.rem) {i : Instr} (hi : i.mnemonic = "M.KEY" ∨ i.mnemonic = "M.FULL") :
      s.MacEnds [i, .cOk] (s.takeMac true s.keyAtPos (s.pos + 4) (s.len - s.pos - 4)).accept

section
variable {s t : State}

theorem State.rem_nonneg (h : s.pos ≤ s.len) : 0 ≤ s.rem := by
  rw [State.rem]
  omega

theorem State.pos_eq_len (h : s.rem = 0) : s.pos = s.len := by
  rw [State.rem] at h
  omega

/-- An operation into CHK with POS = LEN, and C.OK after it. -/
theorem State.Alone.run_accept (h : s.Alone) {i : Instr} (ht : Takes i s t) (hrun : s.st.running) (hst : t.st = .chk)
    (hp : t.pos = t.len) : RunsThrough Fsm.running s [i, .cOk] t.accept :=
  have halone := h.takes ht
  (h.run ht hrun).trans (halone.run (.cOk ⟨halone.rst_false, hst⟩ hp) (by simp [hst]))

theorem State.Alone.exists_macEnds (h : s.Alone) (hst : s.st = .mac) :
    ∃ ops t, RunsThrough Fsm.running s ops t ∧ s.MacEnds ops t := by
  have hat : s.At .mac := ⟨h.rst_false, hst⟩
  have hrun : s.st.running := by simp [hst]
  obtain hr | hr := lt_or_ge s.rem 4
  · obtain h0 | h0 := (State.rem_nonneg h.inv.pos_le_len).eq_or_lt
    · exact ⟨_, _, h.run_accept (.mNone hat h0.symm) hrun rfl (State.pos_eq_len h0.symm), .none h0.symm⟩
    · cases hc : s.cfg.shortMac with
      | acceptNoKey => exact ⟨_, _, h.run_accept (.mShort hat h0 hr hc) hrun rfl rfl, .short h0 hr hc⟩
      | truncated => exact ⟨_, _, h.run (.mShortFails hat h0 hr hc) hrun, .shortFails h0 hr hc⟩
  · obtain ⟨i, hi, hkeyed⟩ := State.exists_keyedMac hat hr
    exact ⟨_, _, h.run_accept hi hrun rfl rfl, .keyed hr hkeyed⟩

end

/-! ### From HDR to MAC -/

/-- The records, the cursor and XLE with which a run on the packet of `s` reaches MAC: those of the closed form R135 in
version 4, else none, with the cursor behind the header. -/
def State.trailer (s : State) : List XRec × Nat × Bool :=
  if s.headerBytes.vn = 4 then loopFrom s.pkt s.len (s.len - 48) 48 else ([], 48, false)

theorem State.trailer_eq_loop {s : State} (hv : s.headerBytes.vn = 4) :
    s.trailer = ((s.loadHeader s.headerBytes).goto .ext).loop (s.len - 48) := if_pos hv

/-- The mnemonics of the operations from DISP to MAC, for version `v` and a trailer `r`. -/
def dispatchTrace (v : BitVec 3) (r : List XRec × Nat × Bool) : List String :=
  if v = 4 then "D.V4" :: loopTrace r else if v.toNat < 4 then ["D.LEGACY"] else ["D.HIGH"]

/-- `m` is the state in MAC that the operations `ops` reach from `s` in HDR. -/
structure State.ReachesMac (s : State) (ops : List Instr) (m : State) : Prop where
  alone : m.Alone
  st_eq : m.st = .mac
  header : m.holdsHeader s.headerBytes
  pkt_eq : m.pkt = s.pkt
  cfg_eq : m.cfg = s.cfg
  len_eq : m.len = s.len
  registers : (m.xtab, m.pos, m.xle) = s.trailer
  trace : ops.map Instr.mnemonic = "H.LOAD" :: dispatchTrace s.headerBytes.vn s.trailer

/-- The header of the packet of `s` is of version 5 to 7, whose trailer is unclaimed under TRAILING_DATA (R122). -/
abbrev State.leavesTrailer (s : State) : Prop :=
  s.cfg.vother = .trailingData ∧ (s.headerBytes.vn = 5 ∨ s.headerBytes.vn = 6 ∨ s.headerBytes.vn = 7)

section
variable {s : State}

/-- In every version but 4 the dispatch is one operation, to MAC unless the trailer is left unclaimed. -/
theorem State.exists_dispatch_mac (h : s.At .disp) {v : BitVec 3} (hv : s.vn = some v) (h4 : v ≠ 4)
    (hmac : s.cfg.vother = .trailingData → ¬ (v = 5 ∨ v = 6 ∨ v = 7)) (r : List XRec × Nat × Bool) :
    ∃ i, Takes i s (s.goto .mac) ∧ [i.mnemonic] = dispatchTrace v r := by
  have high (hh : v = 5 ∨ v = 6 ∨ v = 7) : s.highTarget = .mac :=
    State.highTarget_of_macOnly (by cases hc : s.cfg.vother <;> simp_all)
  obtain rfl | rfl | rfl | rfl | rfl | rfl | rfl | rfl := version_cases v
  · exact ⟨_, .dLegacy0 h hv, rfl⟩
  · exact ⟨_, .dLegacy1 h hv, rfl⟩
  · exact ⟨_, .dLegacy2 h hv, rfl⟩
  · exact ⟨_, .dLegacy3 h hv, rfl⟩
  · exact absurd rfl h4
  · exact ⟨.dHigh5, high (.inl rfl) ▸ Takes.dHigh5 h hv, rfl⟩
  · exact ⟨.dHigh6, high (.inr (.inl rfl)) ▸ Takes.dHigh6 h hv, rfl⟩
  · exact ⟨.dHigh7, high (.inr (.inr rfl)) ▸ Takes.dHigh7 h hv, rfl⟩

/-- No operation of the loop is START or H.LOAD. -/
theorem mnemonic_of_loopTrace {ops : List Instr} {r : List XRec × Nat × Bool} (h : ops.map Instr.mnemonic = loopTrace r) :
    ∀ i ∈ ops, i.mnemonic ∉ ["START", "H.LOAD"] := by
  intro i hi
  have hmem : i.mnemonic ∈ loopTrace r := h ▸ List.mem_map_of_mem hi
  obtain ⟨-, hm⟩ | hm : (r.1 ≠ [] ∧ i.mnemonic = "X.TAKE") ∨ i.mnemonic = if r.2.2 then "X.FALL" else "X.STOP" := by
    simpa [loopTrace] using hmem
  · simp [hm]
  · split at hm <;> simp [hm]

theorem State.Alone.exists_reachesMac (h : s.Alone) (hst : s.st = .hdr) (hl : 48 ≤ s.len) (hmac : ¬ s.leavesTrailer) :
    ∃ ops m, RunsThrough Fsm.running s ops m ∧ s.ReachesMac ops m := by
  have hload : Takes .hLoad s (s.loadHeader s.headerBytes) := .hLoad ⟨h.rst_false, hst⟩ hl
  have hrun := h.run hload (by simp [hst])
  have hdisp := h.takes hload
  have hat : (s.loadHeader s.headerBytes).At .disp := ⟨h.rst_false, rfl⟩
  have hheader := s.holdsHeader_loadHeader s.headerBytes
  obtain ⟨-, hx, -, -, -, -, hxle⟩ := h.inv.phase hst
  by_cases hv : s.headerBytes.vn = 4
  · have hv4 : Takes .dV4 (s.loadHeader s.headerBytes) ((s.loadHeader s.headerBytes).goto .ext) :=
      .dV4 hat (congrArg some hv)
    have hext := hdisp.takes hv4
    obtain ⟨ops, m, hloop, hend⟩ := hext.inRun.exists_loopEnds (F := Fsm.running) (n := s.len - 48) rfl (by simp)
      (by simp only [State.rem, State.goto_len, State.goto_pos, State.loadHeader_len, State.loadHeader_pos]; omega)
    have htrailer := State.trailer_eq_loop hv
    obtain ⟨hm, hpkt, hcfg⟩ := hloop.leaves_header hext.turns_nil (mnemonic_of_loopTrace hend.trace) hheader
    refine ⟨_, m, (hrun.trans (hdisp.run hv4 (by simp))).trans hloop, hloop.alone hext, hend.st_eq, hm, hpkt, hcfg,
      hend.len_eq, ?_, ?_⟩
    · rw [hend.registers, htrailer, State.goto_xtab, State.loadHeader_xtab, hx]
      rfl
    · rw [List.map_append, hend.trace, htrailer, dispatchTrace, if_pos hv]
      rfl
  · obtain ⟨i, hi, htrace⟩ := State.exists_dispatch_mac hat rfl hv (fun hc hh => hmac ⟨hc, hh⟩) s.trailer
    refine ⟨_, _, hrun.trans (hdisp.run hi (by simp)), hdisp.takes hi, rfl, hheader, rfl, rfl, rfl, ?_, ?_⟩
    · rw [State.trailer, if_neg hv]
      simp [hx, hxle]
    · exact congrArg ("H.LOAD" :: ·) htrace

end

/-! ### From HDR to the end -/

/-- What the block does from `s` in HDR on: the operations, and the state in DONE they end in. Where the trailer is left
unclaimed only the number of operations is of interest. -/
inductive State.RunEnds (s : State) : List Instr → State → Prop
  | truncated (hl : s.len < 48) : s.RunEnds [.hTrunc] (s.raise .truncated)
  | leaves {t : State} {i j : Instr} (hl : 48 ≤ s.len) (hh : s.leavesTrailer)
      (ht : t = if s.len = 48 then ((s.loadHeader s.headerBytes).goto .chk).accept
        else ((s.loadHeader s.headerBytes).goto .chk).raise .trailingData) : s.RunEnds [.hLoad, i, j] t
  | mac {ops ops' : List Instr} {m t : State} (hl : 48 ≤ s.len) (hh : ¬ s.leavesTrailer) (hm : s.ReachesMac ops m)
      (ht : m.MacEnds ops' t) : s.RunEnds (ops ++ ops') t

section
variable {s : State}

/-- D.HIGH to CHK, and the final check of a trailer that is empty or not. -/
theorem State.Alone.exists_run_leaves (h : s.Alone) (hst : s.st = .hdr) (hl : 48 ≤ s.len) (hh : s.leavesTrailer) :
    ∃ ops t, RunsThrough Fsm.running s ops t ∧ s.RunEnds ops t := by
  have hload : Takes .hLoad s (s.loadHeader s.headerBytes) := .hLoad ⟨h.rst_false, hst⟩ hl
  have hdisp := h.takes hload
  have htarget : (s.loadHeader s.headerBytes).highTarget = .chk := State.highTarget_of_trailingData hh.1
  obtain ⟨i, hi⟩ := State.exists_takes_high (s := s.loadHeader s.headerBytes) ⟨h.rst_false, rfl⟩
    (by simpa [State.versionHigh] using hh.2)
  rw [htarget] at hi
  have hchk := hdisp.takes hi
  have hrun := (h.run hload (by simp [hst])).trans (hdisp.run hi (by simp))
  have hat : ((s.loadHeader s.headerBytes).goto .chk).At .chk := ⟨h.rst_false, rfl⟩
  by_cases h48 : s.len = 48
  · exact ⟨_, _, hrun.trans (hchk.run (.cOk hat h48.symm) (by simp)), .leaves hl hh (by rw [if_pos h48])⟩
  · exact ⟨_, _, hrun.trans (hchk.run (.cTrail hat (Ne.symm h48)) (by simp)), .leaves hl hh (by rw [if_neg h48])⟩

theorem State.Alone.exists_runEnds (h : s.Alone) (hst : s.st = .hdr) :
    ∃ ops t, RunsThrough Fsm.running s ops t ∧ s.RunEnds ops t := by
  obtain hl | hl := lt_or_ge s.len 48
  · exact ⟨_, _, h.run (.hTrunc ⟨h.rst_false, hst⟩ hl) (by simp [hst]), .truncated hl⟩
  · by_cases hh : s.leavesTrailer
    · exact h.exists_run_leaves hst hl hh
    · obtain ⟨ops, m, hrun, hm⟩ := h.exists_reachesMac hst hl hh
      obtain ⟨ops', t, hrest, ht⟩ := hm.alone.exists_macEnds hm.st_eq
      exact ⟨_, t, hrun.trans hrest, .mac hl hh hm ht⟩

end

end Sys2Proof.Machine
end

section
/-! PROOFS. The statements about a whole run: its length (O51), its trace (O52), how it ends under each parameter (O53), and
that it computes the reference decoder (O54). Each is proved of the block alone and carried over to the launch states. -/

namespace Sys2Proof.Machine

/-! ### The length of a run -/

section
variable {s m t : State} {ops : List Instr}

/-- The loop takes no more fields than the trailer has groups of four bytes. -/
theorem State.ReachesMac.trailer_length_le (h : s.ReachesMac ops m) : s.trailer.1.length ≤ (s.len - 48) / 4 := by
  have hcnt := h.alone.inv.xcnt_le
  rwa [h.alone.inv.xcnt_eq_length, h.len_eq, show m.xtab = s.trailer.1 from congrArg Prod.fst h.registers] at hcnt

theorem length_dispatchTrace_le (v : BitVec 3) (r : List XRec × Nat × Bool) : (dispatchTrace v r).length ≤ 2 + r.1.length := by
  rw [dispatchTrace]
  split_ifs
  · simp only [loopTrace, List.length_cons, List.length_append, List.length_replicate, List.length_nil]
    omega
  · exact (show 1 ≤ 2 + r.1.length by omega)
  · exact (show 1 ≤ 2 + r.1.length by omega)

theorem State.MacEnds.length_le (h : m.MacEnds ops t) : ops.length ≤ 2 := by
  cases h <;> simp

theorem State.RunEnds.length_le (h : s.RunEnds ops t) : 1 ≤ ops.length ∧ ops.length ≤ 5 + (s.len - 48) / 4 := by
  cases h with
  | truncated => exact ⟨le_rfl, (show 1 ≤ 5 + (s.len - 48) / 4 by omega)⟩
  | leaves => exact ⟨(show 1 ≤ 3 by omega), (show 3 ≤ 5 + (s.len - 48) / 4 by omega)⟩
  | @mac ops ops' m _ _ _ hm ht =>
    have hlen : ops.length = (dispatchTrace s.headerBytes.vn s.trailer).length + 1 := by
      simpa using congrArg List.length hm.trace
    have hdispatch := length_dispatchTrace_le s.headerBytes.vn s.trailer
    have hloop := hm.trailer_length_le
    have hmac := ht.length_le
    rw [List.length_append]
    omega

/-! ### The trace of a run -/

/-- Where no invalid length ends the loop, fewer than four bytes are left. -/
theorem State.loop_end_of_stub {n : Nat} (hn : s.rem < 4 * (n + 1)) (h : (s.loop n).2.2 = false) :
    s.len < (s.loop n).2.1 + 4 := by
  obtain hr | hr := lt_or_ge s.rem 4
  · rw [State.loop_of_stub hr]
    rw [State.rem] at hr
    simp only
    omega
  induction n generalizing s with
  | zero => omega
  | succ n ih =>
    rw [State.loop_succ hr] at h ⊢
    split_ifs at h ⊢ with hv
    have hless := s.rem_takeField s.typeAtPos s.lenAtPos
    obtain hr' | hr' := lt_or_ge (s.takeField s.typeAtPos s.lenAtPos).rem 4
    · rw [State.loop_of_stub hr']
      rw [State.rem, State.takeField_len] at hr'
      simp only [Prod.map, id]
      omega
    · exact ih (by omega) h hr'

/-- In version 4 an invalid length ended the loop exactly when there is a key identifier to read. -/
theorem State.ReachesMac.xle_iff (h : s.ReachesMac ops m) (hv : s.headerBytes.vn = 4) : m.xle = true ↔ 4 ≤ m.rem := by
  obtain ⟨-, -, -, -, -, hkey⟩ := h.alone.inv.phase h.st_eq
  refine ⟨hkey, fun hr => ?_⟩
  by_contra hx
  have htrailer := State.trailer_eq_loop hv
  have hxle : m.xle = s.trailer.2.2 := congrArg (·.2.2) h.registers
  have hpos : m.pos = s.trailer.2.1 := congrArg (·.2.1) h.registers
  have hstub : s.len < s.trailer.2.1 + 4 := by
    rw [htrailer] at hxle ⊢
    refine State.loop_end_of_stub ?_ (by simpa [hxle] using hx)
    simp only [State.rem, State.goto_len, State.goto_pos, State.loadHeader_len, State.loadHeader_pos]
    omega
  rw [State.rem, h.len_eq, hpos] at hr
  omega

/-- Under ACCEPT_NO_KEY one M operation, chosen by REM, comes before C.OK. -/
theorem State.MacEnds.trace_eq (h : m.MacEnds ops t) (hc : m.cfg.shortMac = .acceptNoKey) :
    ∃ x, ops.map Instr.mnemonic = [x, "C.OK"] ∧
      ((m.rem < 4 ∧ (x = "M.NONE" ∨ x = "M.SHORT")) ∨ (4 ≤ m.rem ∧ (x = "M.KEY" ∨ x = "M.FULL"))) := by
  cases h with
  | none hr => exact ⟨_, rfl, .inl ⟨by omega, .inl rfl⟩⟩
  | short _ hr => exact ⟨_, rfl, .inl ⟨hr, .inr rfl⟩⟩
  | shortFails _ _ hc' => simp [hc] at hc'
  | keyed hr hi => exact ⟨_, rfl, .inr ⟨hr, hi⟩⟩

/-- The words of R154 for a packet of at least 48 bytes, less START: one dispatch and one M operation, or version 4. -/
abbrev isRunWord (n : Nat) (w : List String) : Prop :=
  (∃ m ∈ ["M.NONE", "M.SHORT", "M.KEY", "M.FULL"], ∃ d ∈ ["D.LEGACY", "D.HIGH"], w = ["H.LOAD", d, m, "C.OK"]) ∨
  (∃ k, k ≤ n ∧ ∃ e ∈ [["X.STOP", "M.NONE"], ["X.STOP", "M.SHORT"], ["X.FALL", "M.KEY"], ["X.FALL", "M.FULL"]],
    w = ["H.LOAD", "D.V4"] ++ List.replicate k "X.TAKE" ++ e ++ ["C.OK"])

theorem State.ReachesMac.isRunWord {ops' : List Instr} (h : s.ReachesMac ops m) (ht : m.MacEnds ops' t)
    (hc : s.cfg.shortMac = .acceptNoKey) : isRunWord ((s.len - 48) / 4) ((ops ++ ops').map Instr.mnemonic) := by
  obtain ⟨x, hx, hrem⟩ := ht.trace_eq (h.cfg_eq ▸ hc)
  rw [List.map_append, h.trace, hx]
  by_cases hv : s.headerBytes.vn = 4
  · refine .inr ⟨_, h.trailer_length_le, ?_⟩
    have hxle : m.xle = s.trailer.2.2 := congrArg (·.2.2) h.registers
    rw [dispatchTrace, if_pos hv, loopTrace, ← hxle]
    obtain ⟨hr, hx⟩ | ⟨hr, hx⟩ := hrem
    · rw [if_neg fun hfall => absurd ((h.xle_iff hv).mp hfall) (by omega)]
      exact ⟨["X.STOP", x], by simpa using hx, by simp⟩
    · rw [if_pos ((h.xle_iff hv).mpr hr)]
      exact ⟨["X.FALL", x], by simpa using hx, by simp⟩
  · have hx' : x ∈ ["M.NONE", "M.SHORT", "M.KEY", "M.FULL"] := by
      obtain ⟨-, rfl | rfl⟩ | ⟨-, rfl | rfl⟩ := hrem <;> simp
    rw [dispatchTrace, if_neg hv]
    split_ifs
    · exact .inl ⟨x, hx', "D.LEGACY", by simp, rfl⟩
    · exact .inl ⟨x, hx', "D.HIGH", by simp, rfl⟩

theorem State.not_leavesTrailer (hc : s.cfg.vother = .macOnly) : ¬ s.leavesTrailer := by
  simp [State.leavesTrailer, hc]

theorem State.RunEnds.trace_eq (h : s.RunEnds ops t) (hc : s.cfg.defaultPolicies) :
    (s.len < 48 ∧ ops.map Instr.mnemonic = ["H.TRUNC"]) ∨
      (48 ≤ s.len ∧ isRunWord ((s.len - 48) / 4) (ops.map Instr.mnemonic)) := by
  cases h with
  | truncated hl => exact .inl ⟨hl, rfl⟩
  | leaves _ hh => exact absurd hh (State.not_leavesTrailer hc.1)
  | mac hl _ hm ht => exact .inr ⟨hl, hm.isRunWord ht hc.2⟩

/-! ### How a run ends -/

/-- The end of a run on a packet of n bytes, by its length and the parameters (R155). -/
abbrev State.endsBy (t : State) (c : Config) (n : Nat) : Prop :=
  (c.defaultPolicies → (t.ok = true ↔ 48 ≤ n) ∧ (t.err = .truncated ↔ n < 48) ∧ t.err ≠ .trailingData) ∧
  (c.vother = .trailingData → (t.err = .trailingData ↔ t.versionHigh ∧ 48 < n)) ∧
  (c.shortMac = .truncated →
    (t.err = .truncated ↔
      n < 48 ∨ (¬ (c.vother = .trailingData ∧ t.versionHigh) ∧
        (n - t.macStart = 1 ∨ n - t.macStart = 2 ∨ n - t.macStart = 3))))

section
variable {c : Config} {n : Nat}

theorem State.endsBy_of_ok (hok : t.ok = true) (herr : t.err = .none) (hl : 48 ≤ n)
    (htrail : c.vother = .trailingData → t.versionHigh → n = 48)
    (hshort : c.shortMac = .truncated → ¬ (c.vother = .trailingData ∧ t.versionHigh) →
      n ≤ t.macStart ∨ t.macStart + 4 ≤ n) : t.endsBy c n := by
  refine ⟨fun _ => by simp [hok, herr, hl], fun hc => ?_, fun hc => ?_⟩
  · simp only [herr, reduceCtorEq, false_iff, not_and]
    exact fun hv => (htrail hc hv).le.not_gt
  · simp only [herr, reduceCtorEq, false_iff]
    rintro (h | ⟨hv, h⟩)
    · omega
    · have := hshort hc hv
      omega

theorem State.endsBy_of_truncated (hok : t.ok = false) (herr : t.err = .truncated)
    (htrail : c.vother = .trailingData → t.versionHigh → n ≤ 48)
    (hshort : n < 48 ∨ (c.shortMac = .truncated ∧ ¬ (c.vother = .trailingData ∧ t.versionHigh) ∧
      t.macStart < n ∧ n < t.macStart + 4)) : t.endsBy c n := by
  refine ⟨fun hd => ?_, fun hc => ?_, fun _ => ?_⟩
  · have hl : n < 48 := hshort.resolve_right fun ⟨hc, _⟩ => by simp [hd.2] at hc
    simp [hok, herr, hl]
  · simp only [herr, reduceCtorEq, false_iff, not_and]
    exact fun hv => (htrail hc hv).not_gt
  · simp only [herr, true_iff]
    exact hshort.imp_right fun ⟨_, hv, h⟩ => ⟨hv, by omega⟩

theorem State.endsBy_of_trailingData (herr : t.err = .trailingData) (hc : c.vother = .trailingData) (hv : t.versionHigh)
    (hl : 48 < n) : t.endsBy c n := by
  refine ⟨fun hd => ?_, fun _ => ?_, fun _ => ?_⟩
  · simp [hd.1] at hc
  · simp only [herr, true_iff]
    exact ⟨hv, hl⟩
  · simp only [herr, reduceCtorEq, false_iff]
    rintro (h | ⟨h, -⟩)
    · omega
    · exact h ⟨hc, hv⟩

end

/-- The M operation decides by REM how the run ends, the version and the records being those of MAC. -/
theorem State.MacEnds.status (h : m.MacEnds ops t) (hm : m.Inv) (hst : m.st = .mac) :
    t.vn = m.vn ∧ t.xtab = m.xtab ∧
    ((t.ok = true ∧ t.err = .none ∧ (m.cfg.shortMac = .truncated → m.rem = 0 ∨ 4 ≤ m.rem)) ∨
      (t.ok = false ∧ t.err = .truncated ∧ m.cfg.shortMac = .truncated ∧ 0 < m.rem ∧ m.rem < 4)) := by
  obtain ⟨-, -, -, -, herr, -⟩ := hm.phase hst
  cases h with
  | none hr => exact ⟨rfl, rfl, .inl ⟨rfl, herr, fun _ => .inl hr⟩⟩
  | short _ _ hc => exact ⟨rfl, rfl, .inl ⟨rfl, herr, fun hc' => by simp [hc] at hc'⟩⟩
  | shortFails h0 hr hc => exact ⟨rfl, rfl, .inr ⟨rfl, rfl, hc, h0, hr⟩⟩
  | keyed hr _ => exact ⟨rfl, rfl, .inl ⟨rfl, herr, fun _ => .inr hr⟩⟩

theorem State.ReachesMac.endsBy {ops' : List Instr} (h : s.ReachesMac ops m) (ht : m.MacEnds ops' t) (hl : 48 ≤ s.len)
    (hh : ¬ s.leavesTrailer) : t.endsBy s.cfg s.len := by
  obtain ⟨hvn, hx, hstatus⟩ := ht.status h.alone.inv h.st_eq
  obtain ⟨-, hv, -⟩ := h.header
  have hhigh : ¬ (s.cfg.vother = .trailingData ∧ t.versionHigh) := by
    simpa [State.versionHigh, hvn, hv] using hh
  have hstart : t.macStart = m.pos := by
    rw [State.macStart, hx]
    exact h.alone.inv.macStart_of_mac h.st_eq
  have hrem : m.rem = (s.len : Int) - (t.macStart : Int) := by rw [State.rem, h.len_eq, hstart]
  rw [h.cfg_eq] at hstatus
  obtain ⟨hok, herr, hshort⟩ | ⟨hok, herr, hc, h0, hr⟩ := hstatus
  · refine State.endsBy_of_ok hok herr hl (fun hc hv => absurd ⟨hc, hv⟩ hhigh) fun hc _ => ?_
    have := hshort hc
    omega
  · exact State.endsBy_of_truncated hok herr (fun hc hv => absurd ⟨hc, hv⟩ hhigh)
      (.inr ⟨hc, hhigh, by omega, by omega⟩)

theorem State.RunEnds.endsBy (h : s.RunEnds ops t) (hs : s.Alone) (hst : s.st = .hdr) : t.endsBy s.cfg s.len := by
  obtain ⟨-, -, -, -, -, herr, -⟩ := hs.inv.phase hst
  cases h with
  | truncated hl => exact State.endsBy_of_truncated rfl rfl (fun _ _ => by omega) (.inl hl)
  | leaves hl hh ht =>
    obtain ⟨hc, hv⟩ := hh
    have hhigh : t.versionHigh := by
      rw [ht]
      split_ifs <;> simpa [State.versionHigh] using hv
    by_cases h48 : s.len = 48
    · rw [if_pos h48] at ht
      subst ht
      exact State.endsBy_of_ok rfl herr hl (fun _ _ => h48) fun _ hno => absurd ⟨hc, hhigh⟩ hno
    · rw [if_neg h48] at ht
      subst ht
      exact State.endsBy_of_trailingData rfl hc hhigh (by omega)
  | mac hl hh hm ht => exact hm.endsBy ht hl hh

/-! ### What a run computes -/

section
variable {bs : List Byte}

theorem State.Holds.length_drop_pos (h : s.Holds bs) (hp : s.pos ≤ s.len) : ((bs.drop s.pos).length : Int) = s.rem := by
  rw [List.length_drop, ← h.len_eq, State.len_sub_pos_eq_rem (State.rem_nonneg hp)]

theorem State.Holds.drop_eq_slice (h : s.Holds bs) {a : Nat} (ha : a ≤ s.len) : bs.drop a = s.slice a (s.len - a) := by
  rw [h.slice_eq (by rw [← h.len_eq]; omega), h.len_eq, List.take_of_length_le (List.length_drop ..).le]

theorem State.Holds.lenAtPos_eq (h : s.Holds bs) (hr : 4 ≤ s.rem) : fieldAt 16 (bs.drop s.pos) 2 2 = s.lenAtPos := by
  have hin := State.pos_add_le (n := 4) hr
  rw [fieldAt, List.drop_drop]
  exact h.fieldAt_two (a := s.pos + 2) (by rw [← h.len_eq]; omega)

/-- The field that begins the bytes from POS on is that of the record X.TAKE appends. -/
theorem State.Holds.firstField_eq (h : s.Holds bs) (hv : xValid s.lenAtPos s.rem) :
    firstField (bs.drop s.pos) = s.recordField { xtype := s.typeAtPos, xlen := s.lenAtPos, xoff := s.pos } := by
  have hlen := h.lenAtPos_eq (by omega)
  obtain ⟨h4, -, hle⟩ := hv
  have hin := State.pos_add_le hle
  have htype : fieldAt 16 (bs.drop s.pos) 0 2 = s.typeAtPos := by
    rw [fieldAt, List.drop_drop]
    exact h.fieldAt_two (by rw [← h.len_eq]; omega)
  have hpayload : ((bs.drop s.pos).take s.lenAtPos.toNat).drop 4 = s.slice (s.pos + 4) (s.lenAtPos.toNat - 4) := by
    rw [h.slice_eq (by rw [← h.len_eq]; omega), List.drop_take, List.drop_drop]
  rw [firstField, htype, hlen, hpayload]
  rfl

/-- The loop of R157 on the bytes from POS on does what the closed form says, pass by pass. -/
theorem State.Holds.decodeFields_eq (h : s.Holds bs) (hp : s.pos ≤ s.len) (n : Nat) :
    decodeFields n (bs.drop s.pos) =
      Prod.map (List.map s.recordField) (Prod.map bs.drop id) (s.loop n) := by
  induction n generalizing s with
  | zero => rfl
  | succ n ih =>
    have hlength := h.length_drop_pos hp
    obtain hr | hr := lt_or_ge s.rem 4
    · rw [decodeFields_of_stub (by omega), State.loop_of_stub hr]
      rfl
    · rw [decodeFields_succ (by omega), State.loop_succ hr, hlength, h.lenAtPos_eq hr]
      split_ifs with hv
      · have htaken : (s.takeField s.typeAtPos s.lenAtPos).Holds bs := ⟨h.len_eq, h.byte_eq⟩
        rw [List.drop_drop, h.firstField_eq hv]
        exact congrArg (Prod.map (s.recordField _ :: ·) id) (ih htaken (State.pos_add_le hv.2.2))
      · rfl

/-- The field a record stands for is read from the buffer alone. -/
theorem State.recordField_congr (h : t.pkt = s.pkt) : t.recordField = s.recordField := by
  funext r
  simp only [State.recordField, State.slice, State.byte, h]

/-- What R157 decodes from the trailer is what the registers in MAC hold. -/
theorem State.ReachesMac.decodeTrailer_eq (h : s.ReachesMac ops m) (hs : s.Holds bs) (hl : 48 ≤ s.len) :
    decodeTrailer s.headerBytes.vn (bs.drop 48) = (m.xtab.map m.recordField, bs.drop m.pos, m.xle) := by
  have hfield := State.recordField_congr h.pkt_eq
  rw [decodeTrailer, hfield]
  split_ifs with hv
  · have hext : ((s.loadHeader s.headerBytes).goto .ext).Holds bs := ⟨hs.len_eq, hs.byte_eq⟩
    have hloop := hext.decodeFields_eq hl (s.len - 48)
    rw [← State.trailer_eq_loop hv, ← h.registers] at hloop
    rw [List.length_drop, ← hs.len_eq]
    exact hloop
  · have hnone : (m.xtab, m.pos, m.xle) = ([], 48, false) := h.registers.trans (if_neg hv)
    obtain ⟨hx, hpos, hxle⟩ : m.xtab = [] ∧ m.pos = 48 ∧ m.xle = false := by simpa using hnone
    rw [hx, hpos, hxle, List.map_nil]

/-! The MAC that R157 decodes from what is left, by REM. -/

theorem State.Holds.decodeMac_none (h : s.Holds bs) (hr : s.rem = 0) : decodeMac (bs.drop s.pos) = none := by
  rw [State.pos_eq_len hr, h.len_eq, List.drop_length]
  rfl

theorem State.Holds.decodeMac_short (h : s.Holds bs) (h0 : 0 < s.rem) (hr : s.rem < 4) :
    decodeMac (bs.drop s.pos) = some { keyId := none, digest := s.slice s.pos (s.len - s.pos) } := by
  have hin : s.pos + 1 ≤ s.len := State.pos_add_le h0
  have hlength := h.length_drop_pos (by omega)
  rw [decodeMac, if_neg (by omega), if_pos (by omega), h.drop_eq_slice (by omega)]

theorem State.Holds.decodeMac_keyed (h : s.Holds bs) (hr : 4 ≤ s.rem) :
    decodeMac (bs.drop s.pos) =
      some { keyId := some s.keyAtPos, digest := s.slice (s.pos + 4) (s.len - s.pos - 4) } := by
  have hin := State.pos_add_le (n := 4) hr
  have hlength := h.length_drop_pos (by omega)
  have hkey : fieldAt 32 (bs.drop s.pos) 0 4 = s.keyAtPos := by
    rw [fieldAt, List.drop_drop]
    exact h.fieldAt_four (by rw [← h.len_eq]; omega)
  rw [decodeMac, if_neg (by omega), if_neg (by omega), hkey, List.drop_drop, h.drop_eq_slice hin, Nat.sub_sub]

/-- Under ACCEPT_NO_KEY the run succeeds, with the MAC that R157 decodes from what is left. -/
theorem State.MacEnds.macValue_eq (h : m.MacEnds ops t) (hm : m.Holds bs) (hi : m.intact = true)
    (hc : m.cfg.shortMac = .acceptNoKey) : t.ok = true ∧ t.macValue = some (decodeMac (bs.drop m.pos)) := by
  cases h with
  | none hr =>
    rw [hm.decodeMac_none hr]
    exact ⟨rfl, State.macValue_of_absent rfl⟩
  | short h0 hr =>
    have hin : m.pos + 1 ≤ m.len := State.pos_add_le h0
    rw [hm.decodeMac_short h0 hr]
    exact ⟨rfl, State.macValue_takeMac (s := m) (.inl hi) (by omega)⟩
  | shortFails _ _ hc' => simp [hc] at hc'
  | keyed hr =>
    have hin := State.pos_add_le (n := 4) hr
    rw [hm.decodeMac_keyed hr]
    exact ⟨rfl, State.macValue_takeMac (s := m) (.inl hi) (by omega)⟩

/-- What the M operation and C.OK leave as it was. -/
theorem State.MacEnds.leaves (h : m.MacEnds ops t) :
    t.st = .done ∧ t.xtab = m.xtab ∧ t.xle = m.xle ∧ t.pkt = m.pkt ∧ t.intact = m.intact ∧
      ∀ v, m.holdsHeader v → t.holdsHeader v := by
  cases h <;> exact ⟨rfl, rfl, rfl, rfl, rfl, fun _ hv => hv⟩

/-- A run through MAC gives what `Decode` does. -/
theorem State.ReachesMac.decodePacket_eq {ops' : List Instr} (h : s.ReachesMac ops m) (ht : m.MacEnds ops' t)
    (halone : t.Alone) (hs : s.Holds bs) (hl : 48 ≤ s.len) (hc : s.cfg.shortMac = .acceptNoKey) :
    ∃ p, decodePacket bs = .ok (p, t.xle) ∧ t.ok = true ∧ t.err = .none ∧ t.result = some p := by
  have hintact := h.alone.inv.intact_of_not_done h.st_eq (by simp)
  have hm : m.Holds bs := ⟨h.len_eq.trans hs.len_eq, fun i hi => by rw [State.byte, h.pkt_eq]; exact hs.byte_eq i hi⟩
  obtain ⟨hst, hx, hxle, hpkt, hintact', hheader⟩ := ht.leaves
  obtain ⟨hok, hmac⟩ := ht.macValue_eq hm hintact (h.cfg_eq ▸ hc)
  have hfield := State.recordField_congr hpkt
  have hexts := State.fieldsOf_xtab (halone.inv.success hst hok).2 (.inl (hintact'.trans hintact))
  rw [hfield, hx] at hexts
  have hstatus := (halone.inv.status_of_done hst).resolve_right fun hfail => by simp [hok] at hfail
  refine ⟨_, ?_, hok, hstatus.2, State.result_eq (State.resultValid_iff.mpr ⟨hst, hok⟩) (hheader _ h.header)
    (by rw [hx]; exact hexts) hmac⟩
  rw [hs.decodePacket_eq (hs.len_eq ▸ hl), h.decodeTrailer_eq hs hl, hxle]

/-- The run on a packet computes `Decode` (R157). -/
theorem State.RunEnds.computes (h : s.RunEnds ops t) (hs : s.Alone) (hst : s.st = .hdr) (ht : t.Alone)
    (hb : s.Holds bs) (hc : s.cfg.defaultPolicies) :
    (decodePacket bs = .error .truncated ∧ t.ok = false ∧ t.err = .truncated ∧ t.result = none ∧ t.xle = false) ∨
      ∃ p, decodePacket bs = .ok (p, t.xle) ∧ t.ok = true ∧ t.err = .none ∧ t.result = some p := by
  obtain ⟨-, -, -, -, -, -, hxle⟩ := hs.inv.phase hst
  cases h with
  | truncated hl =>
    exact .inl ⟨decodePacket_of_short (hb.len_eq ▸ hl), rfl, rfl,
      State.result_of_invalid (State.resultValid_eq_false (.inr rfl)), hxle⟩
  | leaves _ hh => exact absurd hh (State.not_leavesTrailer hc.1)
  | mac hl _ hm hend => exact .inr (hm.decodePacket_eq hend ht hb hl hc.2)

theorem State.RunEnds.st_eq (h : s.RunEnds ops t) : t.st = .done := by
  cases h with
  | truncated => rfl
  | leaves _ _ ht =>
    rw [ht]
    split_ifs <;> rfl
  | mac _ _ _ ht => exact ht.leaves.1

end

end

/-! ### The claims -/

section
variable {s u : State}

theorem State.HostLeaves.ok_eq (h : s.HostLeaves u) : u.ok = s.ok := (congrArg State.ok h.registers :)
theorem State.HostLeaves.err_eq (h : s.HostLeaves u) : u.err = s.err := (congrArg State.err h.registers :)
theorem State.HostLeaves.xle_eq (h : s.HostLeaves u) : u.xle = s.xle := (congrArg State.xle h.registers :)
theorem State.HostLeaves.result_eq (h : s.HostLeaves u) : u.result = s.result :=
  State.result_congr h.registers (.inr ⟨h.intact_eq, h.byte_eq⟩)

theorem State.started_alone_of_launch {bs : List Byte} (h : s.launch bs) : (State.started s.cfg bs).Alone := by
  obtain ⟨-, -, -, -, -, hl, -⟩ := h
  exact State.started_alone hl

/-- From a launch state the run ends as the block alone does on the packet, after the same operations. -/
theorem State.exists_end_of_launch {bs : List Byte} (h : s.launch bs) :
    ∃ ops t k v, (State.started s.cfg bs).RunEnds ops t ∧ t.Alone ∧ core.run k s = .next v ∧ v.st = .done ∧
      t.HostLeaves v ∧ traceOf k s = "START" :: ops.map Instr.mnemonic ∧ k = (traceOf k s).length + s.hostTurns k ∧
      ∀ j u, 0 < j → j < k → core.run j s = .next u → u.busy = true := by
  have halone := State.started_alone_of_launch h
  obtain ⟨ops, t, hrun, hends⟩ := halone.exists_runEnds rfl
  obtain ⟨k, v, hk, hleft, hrest⟩ := State.exists_run_of_launch h hrun
  exact ⟨ops, t, k, v, hends, hrun.alone halone, hk, hleft.st_eq.trans hends.st_eq, hleft, hrest⟩

end

/-- Settles O51: H.TRUNC alone, or H.LOAD, the dispatch, a pass for each record and one that ends the loop, an M operation and
the final check. -/
theorem everyRunEndsInBound : Obligations.EveryRunEndsInBound := by
  unfold Obligations.EveryRunEndsInBound
  intro s bs h
  obtain ⟨ops, t, k, v, hends, -, hk, hst, -, htrace, hcount, hbusy⟩ := State.exists_end_of_launch h
  have hlen : (traceOf k s).length = ops.length + 1 := by rw [htrace, List.length_cons, List.length_map]
  have hbound : 1 ≤ ops.length ∧ ops.length ≤ 5 + (bs.length - 48) / 4 := hends.length_le
  exact ⟨k, v, hk, hst, by omega, by omega, hcount, hbusy⟩

/-- Settles O52: XLE, which X.FALL alone sets, and REM choose the M operation alike. -/
theorem runTraceFollowsGrammar : Obligations.RunTraceFollowsGrammar := by
  unfold Obligations.RunTraceFollowsGrammar
  intro s bs h hc
  obtain ⟨ops, t, k, v, hends, -, hk, hst, -, htrace, -, hbusy⟩ := State.exists_end_of_launch h
  refine ⟨k, v, hk, hst, hbusy, ?_⟩
  rw [htrace]
  obtain ⟨hl, hw⟩ | ⟨hl, ⟨m, hm, d, hd, hw⟩ | ⟨n, hn, e, he, hw⟩⟩ := hends.trace_eq hc
  · exact .inl ⟨hl, by rw [hw]⟩
  · exact .inr (.inl ⟨hl, m, hm, d, hd, by rw [hw]⟩)
  · exact .inr (.inr ⟨hl, n, hn, e, he, by rw [hw]; rfl⟩)

/-- Settles O53, by how the block alone ends its run. -/
theorem runOutcomeByLengthAndPolicy : Obligations.RunOutcomeByLengthAndPolicy := by
  unfold Obligations.RunOutcomeByLengthAndPolicy
  intro s bs h
  obtain ⟨ops, t, k, v, hends, -, hk, hst, hleft, -, -, hbusy⟩ := State.exists_end_of_launch h
  have hend : t.endsBy s.cfg bs.length := hends.endsBy (State.started_alone_of_launch h) rfl
  refine ⟨k, v, hk, hst, hbusy, ?_⟩
  simpa only [State.endsBy, State.versionHigh, State.macStart, hleft.ok_eq, hleft.err_eq, hleft.vn_eq, hleft.xtab_eq]
    using hend

/-- Settles O54: the block alone computes `Decode`, and the host leaves the registers and the packet of the result alone. -/
theorem runComputesReferenceDecoder : Obligations.RunComputesReferenceDecoder := by
  unfold Obligations.RunComputesReferenceDecoder
  intro s bs h hc
  obtain ⟨ops, t, k, v, hends, ht, hk, hst, hleft, -, -, hbusy⟩ := State.exists_end_of_launch h
  refine ⟨k, v, hk, hst, hbusy, ?_⟩
  rw [hleft.ok_eq, hleft.err_eq, hleft.xle_eq, hleft.result_eq]
  obtain ⟨hd, hend⟩ | ⟨p, hd, hend⟩ :=
    hends.computes (State.started_alone_of_launch h) rfl ht (State.started_holds s.cfg bs) hc
  · refine ⟨fun e he => ?_, fun p x hp => by simp [hd] at hp⟩
    obtain rfl : ErrCode.truncated = e := Except.error.inj (hd.symm.trans he)
    exact hend
  · refine ⟨fun e he => by simp [hd] at he, fun q x hq => ?_⟩
    obtain ⟨rfl, rfl⟩ := Prod.mk.inj (Except.ok.inj (hd.symm.trans hq))
    obtain ⟨hok, herr, hres⟩ := hend
    exact ⟨hok, herr, hres, rfl⟩

end Sys2Proof.Machine
end

section
/-! PROOFS. The two ways the block comes to rest: it waits for `start` in IDLE and DONE (O18), and a run ends by the final
check or by the error entry (O30). -/

namespace Sys2Proof.Machine

/-- Settles O18: the turn is the block's, and it finds no operation. -/
theorem blockWaitsWithoutStart : Obligations.BlockWaitsWithoutStart := by
  unfold Obligations.BlockWaitsWithoutStart
  intro s hb hr hst hs
  exact (step_block hb).trans (blockTurn_of_waiting (s := s.afterTurn) hr hst hs)

/-- D.HIGH goes on with the run under either policy. -/
theorem State.highTarget_running (s : State) : s.highTarget.running := by
  cases hc : s.cfg.vother with
  | macOnly => exact State.highTarget_of_macOnly hc ▸ Fsm.running_mac
  | trailingData => exact State.highTarget_of_trailingData hc ▸ Fsm.running_chk

/-- Every operation that leads to DONE, with its writes: C.OK accepts, the others are the error entry. -/
theorem Takes.accept_or_raise_of_done {i : Instr} {s t : State} (h : Takes i s t) (hst : t.st = .done) :
    (i = .cOk ∧ t = s.accept) ∨
    ((i = .hTrunc ∨ (i = .mShort ∧ s.cfg.shortMac = .truncated)) ∧ t = s.raise .truncated) ∨
    (i = .cTrail ∧ t = s.raise .trailingData) := by
  cases h with
  | cOk => exact .inl ⟨rfl, rfl⟩
  | hTrunc => exact .inr (.inl ⟨.inl rfl, rfl⟩)
  | mShortFails _ _ _ hc => exact .inr (.inl ⟨.inr ⟨rfl, hc⟩, rfl⟩)
  | cTrail => exact .inr (.inr ⟨rfl, rfl⟩)
  | dHigh5 | dHigh6 | dHigh7 => exact absurd hst s.highTarget_running.2
  | start | hLoad | dV4 | dLegacy0 | dLegacy1 | dLegacy2 | dLegacy3 | xStop | xFallMod1 | xFallMod2 | xFallMod3
  | xFallZero | xFallOver | xTake | mNone | mShort | mKey | mFull => cases hst

/-- Settles O30: `State.accept` and `State.raise` are the writes of the statement. -/
theorem runEndsOnlyByCheckOrRaise : Obligations.RunEndsOnlyByCheckOrRaise := by
  unfold Obligations.RunEndsOnlyByCheckOrRaise
  exact ⟨fun i s t h hst => (exec_next.mp h).accept_or_raise_of_done hst, rfl, rfl⟩

end Sys2Proof.Machine
end

section
/-! PROOFS. What the host's side can do to the block: reset it from any state (O19), drive its pins and write its buffer
(O21), and nothing else (O35); and the pins a busy block does not sample (O34). -/

namespace Sys2Proof.Machine

/-! ### The pins of a busy block -/

/-- The decoder waits in no state but IDLE and DONE. -/
theorem idle_or_done_of_waiting {c : Sel} {u : List Byte} (h : decode c u = .error .waiting) :
    c.st = .idle ∨ c.st = .done := by
  cases hst : c.st with
  | idle => exact .inl rfl
  | done => exact .inr rfl
  | hdr | mac | chk =>
    simp only [decode, hst] at h
    split_ifs at h <;> cases h
  | disp =>
    simp only [decode, hst] at h
    split at h <;> cases h
  | ext =>
    simp only [decode, hst] at h
    split_ifs at h
    split at h <;> cases h

/-- A turn of a busy block out of reset is an operation. -/
theorem exists_takes_of_blockTurn {s t : State} (hb : s.busy = true) (hr : s.rst = false) (h : blockTurn s = .next t) :
    ∃ i, Takes i s t := by
  obtain ⟨hrst, -⟩ | ⟨-, u, i, -, -, hexec⟩ | ⟨-, u, -, hwait, -⟩ := blockTurn_next h
  · exact absurd hrst (by simp [hr])
  · exact ⟨i, exec_next.mp hexec⟩
  · exact ((idle_or_done_of_waiting hwait).elim (State.busy_iff.mp hb).1 (State.busy_iff.mp hb).2).elim

/-- Settles O34: the turn is an operation, and `Takes.withPins` says it does not look at the three pins. -/
theorem pinsNotSampledWhileBusy : Obligations.PinsNotSampledWhileBusy := by
  unfold Obligations.PinsNotSampledWhileBusy
  intro s t b n x hb h hr
  obtain ⟨i, ht⟩ := exists_takes_of_blockTurn hb hr h
  have hpins : t.withPins b n x s.turns = { t with start := b, lenI := n, xidx := x } := by
    rw [State.withPins, ← ht.turns_eq]
  exact hpins ▸ (ht.withPins (State.busy_iff.mp hb) b n x s.turns).blockTurn_eq

/-! ### Reset -/

/-- Settles O19: the act and the turn both answer `State.resetBlock`, with `rst` asserted. -/
theorem resetFromAnyState : Obligations.ResetFromAnyState := by
  unfold Obligations.ResetFromAnyState
  refine ⟨fun s => rfl, fun s hm hr => ?_, fun i s t hr h => ?_⟩
  · rw [step_block hm, blockTurn_of_rst (s := s.afterTurn) hr, State.resetBlock, State.afterTurn_rst, hr]
    rfl
  · exact absurd (exec_next.mp h).rst_eq (by simp [hr])

/-! ### The acts of the host -/

section
variable {s : State} {a : Nat}

theorem hostTurn_writePkt_of_below_len (ha : a < 2 ^ s.cfg.lenW) (hb : s.busy = true) (hl : a < s.len) (b : Byte) :
    hostTurn (.writePkt a b) s = .refused .bufferChanged := by
  rw [hostTurn, if_neg (not_not.mpr ha), if_pos ⟨hb, hl⟩]

theorem hostTurn_writePkt (ha : a < 2 ^ s.cfg.lenW) (h : s.busy = false ∨ s.len ≤ a) (b : Byte) :
    hostTurn (.writePkt a b) s = .next (s.hostWrite a b) := by
  have hok : ¬ (s.busy = true ∧ a < s.len) := by
    rintro ⟨hb, hl⟩
    exact h.elim (by simp [hb]) hl.not_ge
  rw [hostTurn, if_neg (not_not.mpr ha), if_neg hok]

theorem hostTurn_writePkt_of_no_address (ha : 2 ^ s.cfg.lenW ≤ a) (b : Byte) :
    hostTurn (.writePkt a b) s = .fault .noSuchAddress := if_pos ha.not_gt

theorem State.hostWrite_intact_iff (b : Byte) :
    (s.hostWrite a b).intact = true ↔ s.intact = true ∧ (s.len ≤ a ∨ s.byte a = b) := by
  simp [State.byte]

theorem State.byte_hostWrite (hwf : Memory.wf s.pkt) (b : Byte) (k : Nat) :
    (s.hostWrite a b).byte k = if k = a then b else s.byte k := Memory.read_write hwf a b k

end

/-- Settles O21: the write has its three outcomes above; the other acts are the guard of `hostTurn` on the pin driven or the
port read. -/
theorem hostActsHaveTheirOwnEffect : Obligations.HostActsHaveTheirOwnEffect := by
  unfold Obligations.HostActsHaveTheirOwnEffect
  refine ⟨fun s a b ha hb hl => hostTurn_writePkt_of_below_len ha hb hl b, fun s a b hwf ha h => ?_,
    fun s a b ha => hostTurn_writePkt_of_no_address ha b,
    fun s n => ⟨fun hn => if_pos hn, fun hn => if_neg hn.not_ge⟩, fun s b => rfl, fun s => rfl,
    fun s i => ⟨fun hi => if_pos hi, fun hi => if_neg hi.not_gt⟩,
    fun s p hp => if_pos (Option.isSome_iff_ne_none.mpr hp),
    fun s p hp => if_neg (by simp [hp])⟩
  refine ⟨s.hostWrite a b, hostTurn_writePkt ha h b, rfl, State.hostWrite_intact_iff b, ?_, fun k hk => ?_⟩
  · rw [State.byte_hostWrite hwf, if_pos rfl]
  · rw [State.byte_hostWrite hwf, if_neg hk]

/-- Settles O35: every act that `hostTurn_next` lists, but the assertion of `rst`, writes pins, buffer and `intact` alone. -/
theorem hostTurnsLeaveTheBlock : Obligations.HostTurnsLeaveTheBlock := by
  unfold Obligations.HostTurnsLeaveTheBlock
  intro a s t h ha
  obtain ⟨k, b, -, -, -, rfl⟩ | ⟨n, -, -, rfl⟩ | ⟨b, -, rfl⟩ | ⟨hrst, -⟩ | ⟨-, rfl⟩ | ⟨i, -, -, rfl⟩ | ⟨p, -, -, rfl⟩ :=
    hostTurn_next h
  case inr.inr.inr.inl => exact absurd hrst ha
  all_goals rfl

end Sys2Proof.Machine
end
